-- ==== Sys2Proof/Word.lean ====
section
/-! DEFINITION. The word types of the block: 32-bit host words, bytes, and binary64 bit patterns. -/

namespace Sys2Proof

/-- A host-port word (R8: "A \"word\" is 32 bits"). -/
abbrev Word := BitVec 32

/-- A byte on the sensor bus (R8). -/
abbrev Byte := BitVec 8

/-- An IEEE 754 binary64 bit pattern (R85: sign bit 63, exponent bits 62:52, fraction bits 51:0). -/
abbrev F64 := BitVec 64

end Sys2Proof
end

