-- ==== Sys2Proof/Syntax.lean ====
section
/-! DEFINITION. What can be written down: the eleven commands, the host register names, bus transactions and
their answers, what the host can do at the block's pins, and the lines of a host program. -/

namespace Sys2Proof

/-- The eleven commands of R81. No command carries an operand (R82). -/
inductive Instr where
  | nop | configure | loadCal | readRaw | compensate | sample
  | baseline | altEval | altitude | recalibrate | init
  deriving DecidableEq, Repr

/-- The stages commands are made of (R200). -/
inductive Stage where
  | cfg | cal | raw | comp | base | alt | rebase
  deriving DecidableEq, Repr

/-- The host-visible register words of R21, a 64-bit register as its two halves. -/
inductive RegName where
  | cmd | status | ctrl | devAddr | baseN | settleMs | intervalMs
  | rawP | rawT | tFine | tCenti
  | pQ248Lo | pQ248Hi | tempCLo | tempCHi | pressHpaLo | pressHpaHi
  | p0Lo | p0Hi | t0Lo | t0Hi | altOffsetLo | altOffsetHi
  | recalAltLo | recalAltHi | altOutLo | altOutHi
  | digT1 | digT2 | digT3 | digP1 | digP2 | digP3 | digP4 | digP5 | digP6 | digP7 | digP8 | digP9
  deriving DecidableEq, Repr

/-- The 64-bit registers of R21, each a pair of words (R62). -/
inductive PairName where
  | pQ248 | tempC | pressHpa | p0 | t0 | altOffset | recalAlt | altOut
  deriving DecidableEq, Repr

/-- The access codes of R21. CMD and STATUS have their own. -/
inductive Access where
  | command | w1c | rw | rwIdle | ro
  deriving DecidableEq, Repr

/-- A bus transaction (R64, R65): a read of `n` bytes from `reg` on, or a write of `bytes` at `reg`. -/
inductive BusTx where
  | read (dev : BitVec 7) (reg : BitVec 8) (n : Nat)
  | write (dev : BitVec 7) (reg : BitVec 8) (bytes : List Byte)
  deriving DecidableEq, Repr

/-- What the sensor side does about a transaction: it answers with bytes (for a write, whatever they are, OK),
answers `BusError`, or never answers at all (K7, outside the oracle of R7). -/
inductive BusResponse where
  | data (bytes : List Byte)
  | error
  | silent
  deriving DecidableEq, Repr

/-- What the host side can do at the block's pins, one action a turn:
an access of one word (R60), reading STATUS until BUSY reads 0 (`WAIT`, R91, R93), waiting for `irq` (R74, R230),
a check that words read as given, which is no access (`EXPECT`, R91), doing nothing for one turn, and the reset input
(R251). -/
inductive HostAction where
  | read (off : BitVec 8)
  | write (off : BitVec 8) (data : Word)
  | wait
  | waitIrq
  | expect (want : List (BitVec 8 × Word))
  | pause
  | reset
  deriving DecidableEq, Repr

/-- A decimal as written, (-1)^neg * digits * 10^exponent: `f64:0.0065` is 65 * 10^-4 (R91). -/
structure Decimal where
  neg      : Bool
  digits   : Nat
  exponent : Int
  deriving DecidableEq, Repr

/-- The two ways a 64-bit value is written: its bits, or a binary64 literal `f64:<decimal>` (R91). -/
inductive Value64 where
  | bits (v : BitVec 64)
  | f64 (d : Decimal)
  deriving DecidableEq, Repr

/-- A line of a host program (R90 to R92). A register is a name or a bare offset. -/
inductive HostLine where
  | wr (r : RegName) (v : Word)
  | wrAt (off : BitVec 8) (v : Word)
  | wr64 (r : PairName) (v : Value64)
  | rd (r : RegName)
  | rdAt (off : BitVec 8)
  | command (i : Instr)
  | commandWord (w : Word)
  | wait
  | run (i : Instr)
  | clear
  | expect (r : RegName) (v : Word)
  | expectAt (off : BitVec 8) (v : Word)
  | expect64 (r : PairName) (v : Value64)
  deriving DecidableEq, Repr

end Sys2Proof
end

