-- ==== Sys2Proof/Config.lean ====
section
/-! DEFINITION. What an implementation fixes and what the spec leaves open (R6, R7). The open parameters are
opaque constants with no body: nothing can be proved of their values. -/

namespace Sys2Proof

/-- The `sensor` oracle of R7 and D54: the history of completed transactions and a new one, to its answer;
`none` is `BusError`. Used once the answers scripted in State are used up (log 4). -/
opaque Config.sensor : List (BusTx × BusResponse) → BusTx → Option (List Byte)

/-- The open part of `NAN64` (R7, D33): the pattern of the n-th NaN drawn (log 6). -/
opaque Config.nanFree : Nat → F64

/-- The four binary64 operations (R9). -/
inductive FloatOp where
  | add | sub | mul | div
  deriving DecidableEq, Repr

/-- The open part of how an operation propagates a NaN operand (D33): a pattern for the operation and its operands. It is
no draw (R208, log 21). -/
opaque Config.nanOfOperands : FloatOp → F64 → F64 → F64

/-- The configuration bytes CONFIGURE writes (R87, R111). -/
def Config.measurementCtrlByte : Byte := 0x57
def Config.configByte : Byte := 0x10

/-- The sensor register addresses the block uses (R68). -/
def Config.regCalibration : BitVec 8 := 0x88
def Config.regMeasurementCtrl : BitVec 8 := 0xF4
def Config.regConfig : BitVec 8 := 0xF5
def Config.regRaw : BitVec 8 := 0xF7

/-- The lengths of the two burst reads (R6, R68). -/
def Config.calibrationBytes : Nat := 24
def Config.rawBytes : Nat := 6

/-- The float literals of R170, as binary64 bit patterns. -/
def Config.lapseRate : F64 := 0x3F7A9FBE76C8B439   -- 0.0065
def Config.kelvinZero : F64 := 0x4071126666666666  -- 273.15
def Config.one : F64 := 0x3FF0000000000000         -- 1.0
def Config.hundred : F64 := 0x4059000000000000     -- 100.0
def Config.pressScale : F64 := 0x40D9000000000000  -- 25600.0
def Config.gasConstant : F64 := 0x4020A0C49BA5E354 -- 8.314, only in `coeff`
def Config.gravity : F64 := 0x40239D013A92A305     -- 9.80665, only in `coeff`
def Config.molarMass : F64 := 0x3F9DA8BD230B9DC3   -- 0.028964, only in `coeff`

/-- `COEFF`, the exponent of the barometric formula (R170, D35). -/
def Config.coeff : F64 := 0x3FC85A6452101251

/-- The reset values that are not zero (R250). -/
def Config.devAddrReset : BitVec 7 := 0x76
def Config.baseNReset : BitVec 8 := 10
def Config.settleMsReset : BitVec 16 := 1000
def Config.intervalMsReset : BitVec 16 := 100

end Sys2Proof
end

