-- ==== Sys2Proof/Machine/State.lean ====
section
/-! DEFINITION. The state of the block as plain data: the host-visible registers (R21), the sequencer's hidden
state (R50), and the model's own inputs and records. -/

namespace Sys2Proof.Machine

/-- No step of the block ends in a fault: an error is a code in STATUS.ERR and "the block is idle and accepts the
next command" after it (R231). So no one raises a fault, and the type is empty. -/
inductive Fault where
  deriving DecidableEq, Repr

/-- Why the model takes no step. -/
inductive Refusal where
  /-- An instruction without a meaning yet, by its mnemonic; raised only by an arm of `exec`. Safe. -/
  | notModelled (mnemonic : String)
  /-- A host access at an offset whose bits [1:0] are not 0: "a model refuses it (it has no step)" (R60, K18).
  Raised by the host port. Safe. -/
  | misalignedHostAccess (off : BitVec 8)
  /-- A bus request outside the interface of R64 and R65, a range past register 0xFF among them (D53, K19). Raised by
  the bus port; no command issues one. Safe. -/
  | badBusRequest (tx : BusTx)
  deriving DecidableEq, Repr

/-- The codes of STATUS.ERR (R220); 7 to 15 are never produced, so they are no value here. -/
inductive ErrCode where
  | ok | ebus | euninit | einvcomp | eillegal | earg | eseq
  deriving DecidableEq, Repr

/-- The stored fields of STATUS (R23). BUSY is the phase (R50), reserved bits have no storage. -/
structure Status where
  done      : Bool
  cfgDone   : Bool
  calValid  : Bool
  rawValid  : Bool
  resValid  : Bool
  baseValid : Bool
  pinv      : Bool
  ovf       : Bool
  wrOvr     : Bool
  err       : ErrCode
  deriving DecidableEq, Repr

/-- The calibration register file (R47), each coefficient as its 16 bits. -/
structure Calibration where
  t1 : BitVec 16
  t2 : BitVec 16
  t3 : BitVec 16
  p1 : BitVec 16
  p2 : BitVec 16
  p3 : BitVec 16
  p4 : BitVec 16
  p5 : BitVec 16
  p6 : BitVec 16
  p7 : BitVec 16
  p8 : BitVec 16
  p9 : BitVec 16
  deriving DecidableEq, Repr

/-- The result registers a compensation commits together (R37 to R41, R150). -/
structure Results where
  tFine    : BitVec 32
  tCenti   : BitVec 32
  pQ248    : BitVec 64
  tempC    : F64
  pressHpa : F64
  deriving DecidableEq, Repr

/-- What one evaluation of the pipeline gives (R148). -/
structure CompResult where
  res  : Results
  pinv : Bool
  ovf  : Bool
  deriving DecidableEq, Repr

/-- Where inside a stage the sequencer stands, with the hidden values that are live there (R50): the byte buffer of
the last bus read, the pipeline's evaluated result, the sample index `i`, the accumulators `sum_p` and `sum_t`, the
delay counter. A stage's first point carries nothing. -/
inductive Point where
  | cfgFirst
  | cfgSecond
  | cfgCommit
  | calRead
  | calCommit (buf : List Byte)
  | rawRead
  | rawCommit (buf : List Byte)
  | compEval
  | compCommit (r : CompResult)
  | baseEnter
  | baseWait (delay : BitVec 16) (i : Nat) (sumP sumT : F64)
  | baseRead (i : Nat) (sumP sumT : F64)
  | baseEval (buf : List Byte) (i : Nat) (sumP sumT : F64)
  | baseAdd (r : CompResult) (i : Nat) (sumP sumT : F64)
  | altEval
  | rebase
  deriving DecidableEq, Repr

/-- The sequencer while it runs a command (R50): the accepted command, the index into its stage list, and the point
inside that stage. -/
structure Running where
  cmd   : Instr
  stage : Nat
  point : Point
  deriving DecidableEq, Repr

/-- `phase` of R50. RUNNING is STATUS.BUSY = 1. -/
inductive Phase where
  | idle
  | running (q : Running)
  deriving DecidableEq, Repr

/-- The block's state. The last six fields are the model's own: the host's pending actions, the words host reads
returned, the outcomes of the host's EXPECT checks, the sensor's scripted answers, the history of bus transactions, and the count of NaN patterns drawn. -/
structure State where
  cmd         : Word
  status      : Status
  ie          : Bool
  devAddr     : BitVec 7
  baseN       : BitVec 8
  settleMs    : BitVec 16
  intervalMs  : BitVec 16
  rawP        : BitVec 20
  rawT        : BitVec 20
  res         : Results
  p0          : F64
  t0          : F64
  altOffset   : F64
  recalAlt    : F64
  altOut      : F64
  dig         : Calibration
  phase       : Phase
  hostQueue   : List HostAction
  observed    : List Word
  checks      : List Bool
  sensorQueue : List BusResponse
  busTrace    : List (BusTx × BusResponse)
  draws       : Nat
  deriving DecidableEq, Repr

/-- What a step, a command or a stage answers. -/
abbrev Out := Host.Outcome State Fault Refusal

/-- STATUS.BUSY: "RUNNING exactly when STATUS.BUSY = 1" (R50). -/
def State.busy (s : State) : Bool :=
  match s.phase with
  | .idle => false
  | .running _ => true

/-- STATUS after reset (R250). -/
def Status.reset : Status :=
  { done := false, cfgDone := false, calValid := false, rawValid := false, resValid := false,
    baseValid := false, pinv := false, ovf := false, wrOvr := false, err := .ok }

/-- DIG_T1 .. DIG_P9 after reset (R250). -/
def Calibration.reset : Calibration :=
  { t1 := 0, t2 := 0, t3 := 0, p1 := 0, p2 := 0, p3 := 0, p4 := 0, p5 := 0, p6 := 0, p7 := 0, p8 := 0, p9 := 0 }

/-- The result registers after reset (R250). -/
def Results.reset : Results := { tFine := 0, tCenti := 0, pQ248 := 0, tempC := 0, pressHpa := 0 }

/-- The machine right after reset (R250), with nothing pending and nothing recorded. -/
def State.reset : State :=
  { cmd := 0, status := Status.reset, ie := false,
    devAddr := Config.devAddrReset, baseN := Config.baseNReset,
    settleMs := Config.settleMsReset, intervalMs := Config.intervalMsReset,
    rawP := 0, rawT := 0, res := Results.reset,
    p0 := 0, t0 := 0, altOffset := 0, recalAlt := 0, altOut := 0,
    dig := Calibration.reset, phase := .idle,
    hostQueue := [], observed := [], checks := [], sensorQueue := [], busTrace := [], draws := 0 }

end Sys2Proof.Machine
end

