-- ==== Sys2Proof/Machine/Flags.lean ====
section
/-! DEFINITION. The wraps that compute STATUS.OVF (R9, R24), and the word STATUS reads as (R23). -/

namespace Sys2Proof.Machine

/-- The wrap `wN(e)` of R9: the integer in [-2^(N-1), 2^(N-1)) congruent to e modulo 2^N. -/
def wrapInt (n : Nat) (e : Int) : Int := Int.bmod e (2 ^ n)

/-- An integer result of the pipeline, and whether any wrap on the way to it changed a value (R24). -/
structure Wrapped where
  val : Int
  ovf : Bool
  deriving DecidableEq, Repr

/-- `w32(e)` with its contribution to OVF (R9). -/
def w32 (e : Int) : Wrapped := ⟨wrapInt 32 e, wrapInt 32 e != e⟩

/-- `w64(e)` with its contribution to OVF (R9). -/
def w64 (e : Int) : Wrapped := ⟨wrapInt 64 e, wrapInt 64 e != e⟩

/-- The code of an error in STATUS[15:12] (R220). -/
def ErrCode.code : ErrCode → BitVec 4
  | .ok => 0
  | .ebus => 1
  | .euninit => 2
  | .einvcomp => 3
  | .eillegal => 4
  | .earg => 5
  | .eseq => 6

/-- The word a read of STATUS returns (R23); reserved bits 31:16 and 11:10 read 0. -/
def statusWord (st : Status) (busy : Bool) : Word :=
  0#16 ++ st.err.code ++ 0#2 ++ BitVec.ofBool st.wrOvr ++ BitVec.ofBool st.ovf ++ BitVec.ofBool st.pinv ++
    BitVec.ofBool st.baseValid ++ BitVec.ofBool st.resValid ++ BitVec.ofBool st.rawValid ++
    BitVec.ofBool st.calValid ++ BitVec.ofBool st.cfgDone ++ BitVec.ofBool st.done ++ BitVec.ofBool busy

/-- A host write to STATUS clears each of DONE, OVF and WR_OVR whose written bit is 1 (R23, D56). -/
def statusClear (v : Word) (st : Status) : Status :=
  { st with
    done := st.done && !v.getLsbD 1
    ovf := st.ovf && !v.getLsbD 8
    wrOvr := st.wrOvr && !v.getLsbD 9 }

/-- OVF after an evaluation: set by a wrap, never cleared (R24). -/
def noteOvf (ovf : Bool) (st : Status) : Status := { st with ovf := st.ovf || ovf }

/-- `irq = CTRL.IE AND STATUS.DONE` (R230). -/
def State.irq (s : State) : Bool := s.ie && s.status.done

end Sys2Proof.Machine
end

