-- ==== Sys2Proof/Machine/Float.lean ====
section
/-! DEFINITION. Binary64 arithmetic with round to nearest, ties to even (R9, D32), on bit patterns. Operands are
unpacked to exact numbers, the result is computed exactly and rounded once. Where an operation produces a NaN from
operands that are none it answers the pattern `nan` it is given, which the caller draws (D33, log 6); where an operand
is a NaN it propagates one, with no draw (R208, log 21). -/

namespace Sys2Proof.Machine

/-- A binary64 datum: a NaN, an infinity, or the finite number (-1)^neg * m * 2^e. -/
inductive Unpacked where
  | nan
  | inf (neg : Bool)
  | fin (neg : Bool) (m : Nat) (e : Int)
  deriving DecidableEq, Repr

/-- The fields of a pattern (R85). -/
def fsignBit (x : F64) : Bool := x.msb
def fexpBits (x : F64) : Nat := (x.extractLsb' 52 11).toNat
def ffracBits (x : F64) : Nat := (x.extractLsb' 0 52).toNat

/-- The datum a pattern stands for (R85; exponent bits all ones for infinities and NaNs, all zeros for subnormals). -/
def unpack (x : F64) : Unpacked :=
  if fexpBits x = 2047 then
    if ffracBits x = 0 then .inf (fsignBit x) else .nan
  else if fexpBits x = 0 then .fin (fsignBit x) (ffracBits x) (-1074)
  else .fin (fsignBit x) (2 ^ 52 + ffracBits x) ((fexpBits x : Int) - 1075)

/-- Whether a pattern is a NaN. -/
def fisNaN (x : F64) : Bool := fexpBits x == 2047 && ffracBits x != 0

/-- Whether a pattern is a finite number. -/
def fisFinite (x : F64) : Bool := fexpBits x != 2047

/-- Whether a pattern is +0 or -0. -/
def fisZero (x : F64) : Bool := fexpBits x == 0 && ffracBits x == 0

/-- A pattern with its sign bit (R85). -/
def fsigned (neg : Bool) (magnitude : Nat) : F64 :=
  BitVec.ofNat 64 ((if neg then 2 ^ 63 else 0) + magnitude)

/-- The magnitude bits of infinity. -/
def infBits : Nat := 2047 * 2 ^ 52

def fzero (neg : Bool) : F64 := fsigned neg 0
def finf (neg : Bool) : F64 := fsigned neg infBits

/-- The pattern of q * 2^(k - 1074), where 2^52 ≤ q ≤ 2^53, or k = 0 and q ≤ 2^53: the carry of a rounding
into the next binade and the step from subnormal to normal are the same addition. Too large is infinity. -/
def fpack (neg : Bool) (k q : Nat) : F64 :=
  if k * 2 ^ 52 + q < infBits then fsigned neg (k * 2 ^ 52 + q) else finf neg

/-- The exponent L with 2^L ≤ n/d < 2^(L+1), for positive n and d. -/
def ratLog2 (n d : Nat) : Int :=
  let l : Int := (Nat.log2 n : Int) - (Nat.log2 d : Int)
  if d * 2 ^ l.toNat ≤ n * 2 ^ (-l).toNat then l else l - 1

/-- n/d to the nearest integer, ties to even. -/
def divNearestEven (n d : Nat) : Nat :=
  if 2 * (n % d) > d ∨ (2 * (n % d) = d ∧ n / d % 2 = 1) then n / d + 1 else n / d

/-- The exact (-1)^neg * n/d, d > 0, rounded to binary64, to nearest, ties to even (R9, D32). -/
def fround (neg : Bool) (n d : Nat) : F64 :=
  if n = 0 then fzero neg
  else
    let e : Int := max (ratLog2 n d - 52) (-1074)
    fpack neg (e + 1074).toNat (divNearestEven (n * 2 ^ (-e).toNat) (d * 2 ^ e.toNat))

/-- Integer to binary64, `f64(i)` of R9. -/
def fofInt (i : Int) : F64 := fround (decide (i < 0)) i.natAbs 1

/-- m * 2^e as a numerator and a denominator. -/
def dyadicNum (m : Nat) (e : Int) : Nat := m * 2 ^ e.toNat
def dyadicDen (e : Int) : Nat := 2 ^ (-e).toNat

/-- The integer (-1)^neg * m * 2^(e - base), for base ≤ e. -/
def scaledInt (neg : Bool) (m : Nat) (e base : Int) : Int :=
  let v : Int := ((m * 2 ^ (e - base).toNat : Nat) : Int)
  if neg then -v else v

/-- A pattern made a NaN: itself if it is one, else the quiet NaN. -/
def toNaN (x : F64) : F64 := if fisNaN x then x else 0x7FF8000000000000

/-- What an operation with a NaN operand answers: some NaN, the same for the same operands (D33, R208, log 21). -/
def propagateNaN (op : FloatOp) (a b : F64) : F64 := toNaN (Config.nanOfOperands op a b)

/-- `a +. b` (R9). An exact zero sum is +0.0 unless both operands are -0.0 (G6). -/
def fadd (nan a b : F64) : F64 :=
  match unpack a, unpack b with
  | .nan, _ => propagateNaN .add a b
  | _, .nan => propagateNaN .add a b
  | .inf s, .inf t => if s = t then finf s else nan
  | .inf s, .fin _ _ _ => finf s
  | .fin _ _ _, .inf t => finf t
  | .fin s m e, .fin t n f =>
    let base := min e f
    let sum := scaledInt s m e base + scaledInt t n f base
    if sum = 0 then fzero (s && t)
    else fround (decide (sum < 0)) (dyadicNum sum.natAbs base) (dyadicDen base)

/-- The pattern with its sign changed. -/
def fnegate (x : F64) : F64 := x ^^^ (1#64 <<< 63)

/-- `a -. b` (R9): the sum with `b` negated. -/
def fsub (nan a b : F64) : F64 :=
  if fisNaN a || fisNaN b then propagateNaN .sub a b else fadd nan a (fnegate b)

/-- `a *. b` (R9). -/
def fmul (nan a b : F64) : F64 :=
  match unpack a, unpack b with
  | .nan, _ => propagateNaN .mul a b
  | _, .nan => propagateNaN .mul a b
  | .inf s, .inf t => finf (s != t)
  | .inf s, .fin t n _ => if n = 0 then nan else finf (s != t)
  | .fin s m _, .inf t => if m = 0 then nan else finf (s != t)
  | .fin s m e, .fin t n f => fround (s != t) (dyadicNum (m * n) (e + f)) (dyadicDen (e + f))

/-- `a /. b` (R9). A finite non-zero number over ±0 is an infinity, 0/0 and inf/inf are NaN (G6). -/
def fdiv (nan a b : F64) : F64 :=
  match unpack a, unpack b with
  | .nan, _ => propagateNaN .div a b
  | _, .nan => propagateNaN .div a b
  | .inf _, .inf _ => nan
  | .inf s, .fin t _ _ => finf (s != t)
  | .fin s _ _, .inf t => fzero (s != t)
  | .fin s m e, .fin t n f =>
    if n = 0 then (if m = 0 then nan else finf (s != t))
    else fround (s != t) (dyadicNum m (e - f)) (n * dyadicDen (e - f))

/-- The n-th NaN pattern drawn, `NAN64` (R7, D33): some NaN, nothing says which (log 6). -/
def nan64 (n : Nat) : F64 := toNaN (Config.nanFree n)

/-! ### Values -/

/-- The exact rational value of a finite pattern (R85); 0 for the others. -/
def fval (x : F64) : ℚ :=
  match unpack x with
  | .fin neg m e => (if neg then -1 else 1) * (m : ℚ) * (2 : ℚ) ^ e
  | .nan | .inf _ => 0

/-- One ulp: the spacing of binary64 numbers at a finite pattern. -/
def fulp (x : F64) : ℚ :=
  match unpack x with
  | .fin _ _ e => (2 : ℚ) ^ e
  | .nan | .inf _ => 0

end Sys2Proof.Machine
end

