-- ==== Sys2Proof/Machine/Operands.lean ====
section
/-! DEFINITION. How operands are assembled: bytes from the sensor into coefficients and samples (R113, R116), and
registers into the integers the pipeline computes on (R130). -/

namespace Sys2Proof.Machine

/-- Byte k of a buffer. A read that reached this point has the length its stage asked for (R64), so the byte is
there. -/
def byteAt (b : List Byte) (k : Nat) : Byte := b.getD k 0

/-- Coefficient k of a calibration block: bytes 2k and 2k+1, little-endian (R88, R113). -/
def coefficient (b : List Byte) (k : Nat) : BitVec 16 := byteAt b (2 * k + 1) ++ byteAt b (2 * k)

/-- `CalDecode` of R113, in the order DIG_T1 .. DIG_T3, DIG_P1 .. DIG_P9. -/
def calDecode (b : List Byte) : Calibration :=
  { t1 := coefficient b 0, t2 := coefficient b 1, t3 := coefficient b 2,
    p1 := coefficient b 3, p2 := coefficient b 4, p3 := coefficient b 5,
    p4 := coefficient b 6, p5 := coefficient b 7, p6 := coefficient b 8,
    p7 := coefficient b 9, p8 := coefficient b 10, p9 := coefficient b 11 }

/-- `Raw20` of R116: `(b0 << 12) | (b1 << 4) | (b2 >> 4)`. -/
def raw20 (b0 b1 b2 : Byte) : BitVec 20 :=
  (b0.zeroExtend 20 <<< 12) ||| (b1.zeroExtend 20 <<< 4) ||| (b2.zeroExtend 20 >>> 4)

/-- The pressure sample of a raw burst: bytes 0 to 2 (R89, R115). -/
def rawPressure (b : List Byte) : BitVec 20 := raw20 (byteAt b 0) (byteAt b 1) (byteAt b 2)

/-- The temperature sample of a raw burst: bytes 3 to 5 (R89, R115). -/
def rawTemperature (b : List Byte) : BitVec 20 := raw20 (byteAt b 3) (byteAt b 4) (byteAt b 5)

/-- A field read as unsigned, `zext_N` of R9. -/
def zext {n : Nat} (v : BitVec n) : Int := (v.toNat : Int)

/-- A field read as two's complement, `sext_N` of R9. -/
def sext {n : Nat} (v : BitVec n) : Int := v.toInt

/-- `asr(v, k) = floor(v / 2^k)` (R9, D24). -/
def asr (v : Int) (k : Nat) : Int := v >>> k

/-- `tdiv(a, b)`: the quotient truncated toward zero (R9, R132). -/
def truncDiv (a b : Int) : Int := Int.tdiv a b

end Sys2Proof.Machine
end

