-- ==== Sys2Proof/Machine/Compensation.lean ====
section
/-! DEFINITION. The compensation pipeline (R130 to R148): one definition per labelled step, each with the wraps the
spec writes in it, then the two paths, the sentinel and the float stage. -/

namespace Sys2Proof.Machine

/-- T1: `w32( asr(rt, 3) - w32(t1 * 2) )` (R133). -/
def stepT1 (rt t1 : Int) : Wrapped :=
  let a := w32 (t1 * 2)
  let r := w32 (asr rt 3 - a.val)
  ⟨r.val, a.ovf || r.ovf⟩

/-- T2: `asr( w32(a1 * t2), 11 )` (R133). -/
def stepT2 (a1 t2 : Int) : Wrapped :=
  let r := w32 (a1 * t2)
  ⟨asr r.val 11, r.ovf⟩

/-- T3: `w32( asr(rt, 4) - t1 )` (R133). -/
def stepT3 (rt t1 : Int) : Wrapped := w32 (asr rt 4 - t1)

/-- T4: `asr( w32(d * d), 12 )`, a square (R133, R134). -/
def stepT4 (d : Int) : Wrapped :=
  let r := w32 (d * d)
  ⟨asr r.val 12, r.ovf⟩

/-- T5: `asr( w32(s * t3), 14 )` (R133). -/
def stepT5 (s t3 : Int) : Wrapped :=
  let r := w32 (s * t3)
  ⟨asr r.val 14, r.ovf⟩

/-- T6: `w32( var1 + var2 )` (R133). -/
def stepT6 (var1 var2 : Int) : Wrapped := w32 (var1 + var2)

/-- T7: `asr( w32( w32(t_fine * 5) + 128 ), 8 )` (R133). -/
def stepT7 (tFine : Int) : Wrapped :=
  let a := w32 (tFine * 5)
  let r := w32 (a.val + 128)
  ⟨asr r.val 8, a.ovf || r.ovf⟩

/-- The labelled results of the temperature path. -/
structure TempPath where
  a1   : Wrapped
  var1 : Wrapped
  d    : Wrapped
  s    : Wrapped
  var2 : Wrapped
  tFine  : Wrapped
  tCenti : Wrapped
  deriving DecidableEq, Repr

/-- The temperature computation of R133. -/
def tempPath (rt t1 t2 t3 : Int) : TempPath :=
  let a1 := stepT1 rt t1
  let var1 := stepT2 a1.val t2
  let d := stepT3 rt t1
  let s := stepT4 d.val
  let var2 := stepT5 s.val t3
  let tFine := stepT6 var1.val var2.val
  { a1, var1, d, s, var2, tFine, tCenti := stepT7 tFine.val }

/-- Whether any step of the temperature path wrapped (R24). -/
def tempOvf (t : TempPath) : Bool :=
  t.a1.ovf || t.var1.ovf || t.d.ovf || t.s.ovf || t.var2.ovf || t.tFine.ovf || t.tCenti.ovf

/-- P1: `w64( t_fine - 128000 )` (R138). -/
def stepP1 (tFine : Int) : Wrapped := w64 (tFine - 128000)

/-- P2: `w64( w64(v1 * v1) * p6 )` (R138). -/
def stepP2 (v1 p6 : Int) : Wrapped :=
  let a := w64 (v1 * v1)
  let r := w64 (a.val * p6)
  ⟨r.val, a.ovf || r.ovf⟩

/-- P3: `w64( v2 + w64( w64(v1 * p5) * 2^17 ) )` (R138). -/
def stepP3 (v2 v1 p5 : Int) : Wrapped :=
  let a := w64 (v1 * p5)
  let b := w64 (a.val * 2 ^ 17)
  let r := w64 (v2 + b.val)
  ⟨r.val, a.ovf || b.ovf || r.ovf⟩

/-- P4: `w64( v2 + w64(p4 * 2^35) )` (R138). -/
def stepP4 (v2 p4 : Int) : Wrapped :=
  let a := w64 (p4 * 2 ^ 35)
  let r := w64 (v2 + a.val)
  ⟨r.val, a.ovf || r.ovf⟩

/-- P5: `w64( asr( w64( w64(v1 * v1) * p3 ), 8 ) + w64( w64(v1 * p2) * 2^12 ) )` (R138). -/
def stepP5 (v1 p3 p2 : Int) : Wrapped :=
  let a := w64 (v1 * v1)
  let b := w64 (a.val * p3)
  let c := w64 (v1 * p2)
  let d := w64 (c.val * 2 ^ 12)
  let r := w64 (asr b.val 8 + d.val)
  ⟨r.val, a.ovf || b.ovf || c.ovf || d.ovf || r.ovf⟩

/-- P6: `asr( w64( w64(2^47 + v1) * p1 ), 33 )`, reading C1 (R138, R139). -/
def stepP6 (v1 p1 : Int) : Wrapped :=
  let a := w64 (2 ^ 47 + v1)
  let r := w64 (a.val * p1)
  ⟨asr r.val 33, a.ovf || r.ovf⟩

/-- P8: `w64( 1048576 - rp )` (R138). -/
def stepP8 (rp : Int) : Wrapped := w64 (1048576 - rp)

/-- P9: `w64( w64( w64(p * 2^31) - v2 ) * 3125 )` (R138). -/
def stepP9 (p v2 : Int) : Wrapped :=
  let a := w64 (p * 2 ^ 31)
  let b := w64 (a.val - v2)
  let r := w64 (b.val * 3125)
  ⟨r.val, a.ovf || b.ovf || r.ovf⟩

/-- P10: `w64( tdiv(num, v1) )`, the one division, truncating (R132, R141). -/
def stepP10 (num v1 : Int) : Wrapped := w64 (truncDiv num v1)

/-- P11: `asr( w64( w64(p9 * asr(p, 13)) * asr(p, 13) ), 25 )` (R138). -/
def stepP11 (p9 p : Int) : Wrapped :=
  let a := w64 (p9 * asr p 13)
  let r := w64 (a.val * asr p 13)
  ⟨asr r.val 25, a.ovf || r.ovf⟩

/-- P12: `asr( w64(p8 * p), 19 )` (R138). -/
def stepP12 (p8 p : Int) : Wrapped :=
  let r := w64 (p8 * p)
  ⟨asr r.val 19, r.ovf⟩

/-- P13: `w64( asr( w64( w64(p + v1) + v2 ), 8 ) + w64(p7 * 2^4) )` (R138). -/
def stepP13 (p v1 v2 p7 : Int) : Wrapped :=
  let a := w64 (p + v1)
  let b := w64 (a.val + v2)
  let c := w64 (p7 * 2 ^ 4)
  let r := w64 (asr b.val 8 + c.val)
  ⟨r.val, a.ovf || b.ovf || c.ovf || r.ovf⟩

/-- The labelled results of P1 to P6. -/
structure PressFront where
  v1 : Wrapped
  a2 : Wrapped
  a3 : Wrapped
  v2 : Wrapped
  a5 : Wrapped
  divisor : Wrapped
  deriving DecidableEq, Repr

/-- Steps P1 to P6 of R138: `v2` is the value of P4, `divisor` the `v1` of P6. -/
def pressFront (tFine p1 p2 p3 p4 p5 p6 : Int) : PressFront :=
  let v1 := stepP1 tFine
  let a2 := stepP2 v1.val p6
  let a3 := stepP3 a2.val v1.val p5
  let v2 := stepP4 a3.val p4
  let a5 := stepP5 v1.val p3 p2
  { v1, a2, a3, v2, a5, divisor := stepP6 a5.val p1 }

/-- Whether any of P1 to P6 wrapped (R24). -/
def frontOvf (f : PressFront) : Bool :=
  f.v1.ovf || f.a2.ovf || f.a3.ovf || f.v2.ovf || f.a5.ovf || f.divisor.ovf

/-- The labelled results of P8 to P13. -/
structure PressBack where
  p8 : Wrapped
  num : Wrapped
  quot : Wrapped
  v1 : Wrapped
  v2 : Wrapped
  p : Wrapped
  deriving DecidableEq, Repr

/-- Steps P8 to P13 of R138, for a divisor that is not 0. -/
def pressBack (rp v2 divisor p7 p8 p9 : Int) : PressBack :=
  let p := stepP8 rp
  let num := stepP9 p.val v2
  let quot := stepP10 num.val divisor
  let w1 := stepP11 p9 quot.val
  let w2 := stepP12 p8 quot.val
  { p8 := p, num, quot, v1 := w1, v2 := w2, p := stepP13 quot.val w1.val w2.val p7 }

/-- Whether any of P8 to P13 wrapped (R24). -/
def backOvf (b : PressBack) : Bool :=
  b.p8.ovf || b.num.ovf || b.quot.ovf || b.v1.ovf || b.v2.ovf || b.p.ovf

/-- The temperature path on the registers (R130, R133). -/
def tempPathOf (c : Calibration) (rawT : BitVec 20) : TempPath :=
  tempPath (zext rawT) (zext c.t1) (sext c.t2) (sext c.t3)

/-- Steps P1 to P6 on the registers (R130, R138). -/
def pressFrontOf (c : Calibration) (tFine : Int) : PressFront :=
  pressFront tFine (zext c.p1) (sext c.p2) (sext c.p3) (sext c.p4) (sext c.p5) (sext c.p6)

/-- Steps P8 to P13 on the registers (R130, R138). -/
def pressBackOf (c : Calibration) (rawP : BitVec 20) (f : PressFront) : PressBack :=
  pressBack (zext rawP) f.v2.val f.divisor.val (sext c.p7) (sext c.p8) (sext c.p9)

/-- The temperature in °C: `f64(t_centi) /. 100.0` (R147). The quotient is never a NaN, so the draw is never
used. -/
def floatTemp (tCenti : Int) : F64 := fdiv (nan64 0) (fofInt tCenti) Config.hundred

/-- The pressure in hPa: `f64(p) /. 25600.0` (R147). The quotient is never a NaN, so the draw is never used. -/
def floatPress (p : Int) : F64 := fdiv (nan64 0) (fofInt p) Config.pressScale

/-- The result when step P7 finds `v1 == 0`: p = 0, PRESS_HPA = +0.0, P8 to P13 not performed (R146, R147). -/
def sentinelResult (t : TempPath) (f : PressFront) : CompResult :=
  { res := { tFine := BitVec.ofInt 32 t.tFine.val, tCenti := BitVec.ofInt 32 t.tCenti.val, pQ248 := 0,
             tempC := floatTemp t.tCenti.val, pressHpa := fzero false }
    pinv := true
    ovf := tempOvf t || frontOvf f }

/-- The result when step P7 finds `v1 != 0` (R138, R147). -/
def pressureResult (t : TempPath) (f : PressFront) (b : PressBack) : CompResult :=
  { res := { tFine := BitVec.ofInt 32 t.tFine.val, tCenti := BitVec.ofInt 32 t.tCenti.val,
             pQ248 := BitVec.ofInt 64 b.p.val,
             tempC := floatTemp t.tCenti.val, pressHpa := floatPress b.p.val }
    pinv := false
    ovf := tempOvf t || frontOvf f || backOvf b }

/-- Step P7 and what follows it (R138, R146). -/
def finishComp (c : Calibration) (rawP : BitVec 20) (t : TempPath) (f : PressFront) : CompResult :=
  if f.divisor.val = 0 then sentinelResult t f else pressureResult t f (pressBackOf c rawP f)

/-- `Comp` of R148: the whole pipeline as one function of the two samples and the twelve coefficients. -/
def comp (rawT rawP : BitVec 20) (c : Calibration) : CompResult :=
  finishComp c rawP (tempPathOf c rawT) (pressFrontOf c (tempPathOf c rawT).tFine.val)

end Sys2Proof.Machine
end

