-- ==== Sys2Proof/WellFormed.lean ====
section
/-! DEFINITION. Which terms are well formed. A command has no operand (R82), so each is; the checks are on host
accesses and on bus transactions. -/

namespace Sys2Proof

/-- Every command is well formed: "No command carries an operand in its word" (R82). -/
def Instr.wf : Instr → Bool
  | .nop | .configure | .loadCal | .readRaw | .compensate | .sample
  | .baseline | .altEval | .altitude | .recalibrate | .init => true

/-- An offset the host port takes: bits [1:0] are 0 (R60, R71). -/
def aligned (off : BitVec 8) : Bool := off.toNat % 4 == 0

/-- A host action inside the interface (R60). -/
def HostAction.wf : HostAction → Bool
  | .read off => aligned off
  | .write off _ => aligned off
  | .wait | .waitIrq | .expect _ | .pause | .reset => true

/-- A bus request inside the interface: a read of 1 to 24 bytes (R64) or a write of one byte (R65), neither
passing sensor register 0xFF (R64, D53). -/
def BusTx.wf : BusTx → Bool
  | .read _ reg n => decide (1 ≤ n ∧ n ≤ 24 ∧ reg.toNat + n ≤ 256)
  | .write _ reg bytes => decide (bytes.length = 1 ∧ reg.toNat + bytes.length ≤ 256)

/-- Whether an answer of these bytes answers the request: a read needs exactly the bytes it asked for (R64,
D18); a write only needs an answer. -/
def BusTx.answeredBy : BusTx → List Byte → Bool
  | .read _ _ n, b => b.length == n
  | .write _ _ _, _ => true

end Sys2Proof
end

