-- ==== Sys2Proof/Decode.lean ====
section
/-! DEFINITION. Decoding a command word (R84), encoding a command (R81), the register offsets of R21, and the
transactions a host program line stands for (R91 to R93). -/

namespace Sys2Proof

/-- What a command word decodes to: a command, or the reason it is illegal (R83). -/
inductive Decoded where
  | command (i : Instr)
  | reservedBits
  | unknownOpcode
  deriving DecidableEq, Repr

/-- The opcode map of R81. -/
def opcodeOf (op : BitVec 8) : Option Instr :=
  match op.toNat with
  | 0x00 => some .nop
  | 0x01 => some .configure
  | 0x02 => some .loadCal
  | 0x03 => some .readRaw
  | 0x04 => some .compensate
  | 0x05 => some .sample
  | 0x06 => some .baseline
  | 0x07 => some .altEval
  | 0x08 => some .altitude
  | 0x09 => some .recalibrate
  | 0x0A => some .init
  | _ => none

/-- The decoder of R84, total on every word: `rsv` = w[31:8] must be 0, then `op` = w[7:0] names the command. -/
def decode (w : Word) : Decoded :=
  if w.extractLsb' 8 24 = 0 then
    match opcodeOf (w.extractLsb' 0 8) with
    | some i => .command i
    | none => .unknownOpcode
  else .reservedBits

/-- The opcode of a command (R81). -/
def Instr.opcode : Instr → BitVec 8
  | .nop => 0x00
  | .configure => 0x01
  | .loadCal => 0x02
  | .readRaw => 0x03
  | .compensate => 0x04
  | .sample => 0x05
  | .baseline => 0x06
  | .altEval => 0x07
  | .altitude => 0x08
  | .recalibrate => 0x09
  | .init => 0x0A

/-- The command word of a command: `rsv` = 0 above its opcode (R80, R90). -/
def encode (i : Instr) : Word := 0#24 ++ i.opcode

/-- The command the decoder reads from an opcode-table word. A command is one 32-bit word (R80). -/
def decodeTableWord (nbits w : Nat) : Option Instr :=
  if w % 2 ^ nbits < 2 ^ 32 then
    match decode (BitVec.ofNat 32 (w % 2 ^ nbits)) with
    | .command i => some i
    | .reservedBits | .unknownOpcode => none
  else none

/-- The byte offset of a register word (R21, R47). -/
def RegName.offset : RegName → BitVec 8
  | .cmd => 0x00 | .status => 0x04 | .ctrl => 0x08 | .devAddr => 0x0C
  | .baseN => 0x10 | .settleMs => 0x14 | .intervalMs => 0x18
  | .rawP => 0x20 | .rawT => 0x24 | .tFine => 0x28 | .tCenti => 0x2C
  | .pQ248Lo => 0x30 | .pQ248Hi => 0x34 | .tempCLo => 0x38 | .tempCHi => 0x3C
  | .pressHpaLo => 0x40 | .pressHpaHi => 0x44 | .p0Lo => 0x48 | .p0Hi => 0x4C
  | .t0Lo => 0x50 | .t0Hi => 0x54 | .altOffsetLo => 0x58 | .altOffsetHi => 0x5C
  | .recalAltLo => 0x60 | .recalAltHi => 0x64 | .altOutLo => 0x68 | .altOutHi => 0x6C
  | .digT1 => 0x80 | .digT2 => 0x84 | .digT3 => 0x88 | .digP1 => 0x8C
  | .digP2 => 0x90 | .digP3 => 0x94 | .digP4 => 0x98 | .digP5 => 0x9C
  | .digP6 => 0xA0 | .digP7 => 0xA4 | .digP8 => 0xA8 | .digP9 => 0xAC

/-- Every register word. -/
def RegName.all : List RegName :=
  [.cmd, .status, .ctrl, .devAddr, .baseN, .settleMs, .intervalMs, .rawP, .rawT, .tFine, .tCenti,
   .pQ248Lo, .pQ248Hi, .tempCLo, .tempCHi, .pressHpaLo, .pressHpaHi] ++
  [.p0Lo, .p0Hi, .t0Lo, .t0Hi, .altOffsetLo, .altOffsetHi, .recalAltLo, .recalAltHi, .altOutLo, .altOutHi] ++
  [.digT1, .digT2, .digT3, .digP1, .digP2, .digP3, .digP4, .digP5, .digP6, .digP7, .digP8, .digP9]

/-- The register word at an offset; `none` for a reserved offset (R21). -/
def regAt (off : BitVec 8) : Option RegName := RegName.all.find? (fun r => r.offset == off)

/-- The access code of a register word (R21). `rwIdle` is RW*: writable only while BUSY = 0. -/
def RegName.access : RegName → Access
  | .cmd => .command
  | .status => .w1c
  | .ctrl => .rw
  | .devAddr | .baseN | .settleMs | .intervalMs | .rawP | .rawT | .recalAltLo | .recalAltHi => .rwIdle
  | .tFine | .tCenti | .pQ248Lo | .pQ248Hi | .tempCLo | .tempCHi | .pressHpaLo | .pressHpaHi
  | .p0Lo | .p0Hi | .t0Lo | .t0Hi | .altOffsetLo | .altOffsetHi | .altOutLo | .altOutHi
  | .digT1 | .digT2 | .digT3 | .digP1 | .digP2 | .digP3 | .digP4 | .digP5 | .digP6 | .digP7 | .digP8
  | .digP9 => .ro

/-- The low word of a 64-bit register, bits [31:0] (R21, D4). -/
def PairName.lo : PairName → RegName
  | .pQ248 => .pQ248Lo | .tempC => .tempCLo | .pressHpa => .pressHpaLo | .p0 => .p0Lo
  | .t0 => .t0Lo | .altOffset => .altOffsetLo | .recalAlt => .recalAltLo | .altOut => .altOutLo

/-- The high word of a 64-bit register, bits [63:32] (R21, D4). -/
def PairName.hi : PairName → RegName
  | .pQ248 => .pQ248Hi | .tempC => .tempCHi | .pressHpa => .pressHpaHi | .p0 => .p0Hi
  | .t0 => .t0Hi | .altOffset => .altOffsetHi | .recalAlt => .recalAltHi | .altOut => .altOutHi

/-- The two halves of a 64-bit value on the host port (R62, R85). -/
def loWord (v : BitVec 64) : Word := v.extractLsb' 0 32
def hiWord (v : BitVec 64) : Word := v.extractLsb' 32 32

/-- "The binary64 nearest that decimal" (R91); ties to even, and past the range an infinity (R9, D32, log 19). -/
def Decimal.nearest (d : Decimal) : F64 :=
  Machine.fround d.neg (d.digits * 10 ^ d.exponent.toNat) (10 ^ (-d.exponent).toNat)

/-- The 64 bits a value stands for (R91). -/
def Value64.pattern : Value64 → BitVec 64
  | .bits v => v
  | .f64 d => d.nearest

/-- A host write of a command word (R90, R93). -/
def commandAction (w : Word) : HostAction := .write RegName.cmd.offset w

/-- What the host does for a program line (R91 to R93): its host-port transactions, for WAIT the loop of them, and for
EXPECT a check, which is no access; of a 64-bit register it is one check of both halves. -/
def HostLine.actions : HostLine → List HostAction
  | .wr r v => [.write r.offset v]
  | .wrAt off v => [.write off v]
  | .wr64 r v => [.write r.lo.offset (loWord v.pattern), .write r.hi.offset (hiWord v.pattern)]
  | .rd r => [.read r.offset]
  | .rdAt off => [.read off]
  | .command i => [commandAction (encode i)]
  | .commandWord w => [commandAction w]
  | .wait => [.wait]
  | .run i => [commandAction (encode i), .wait]
  | .clear => [.write RegName.status.offset 0x00000302]
  | .expect r v => [.expect [(r.offset, v)]]
  | .expectAt off v => [.expect [(off, v)]]
  | .expect64 r v => [.expect [(r.lo.offset, loWord v.pattern), (r.hi.offset, hiWord v.pattern)]]

/-- What the host does for a program, line by line (R93). -/
def assemble (p : List HostLine) : List HostAction := p.flatMap HostLine.actions

end Sys2Proof
end

