-- ==== Sys2Proof/Machine/Ops.lean ====
section
/-! DEFINITION. The shared operations: reading and writing host registers (R21, R60), completing and raising (R202,
R221), accepting a command (R201), the bus port (R64 to R67), and running stages (R203). -/

namespace Sys2Proof.Machine

/-! ### Host registers -/

/-- The word a read of a register returns (R21, R85); coefficients are extended by their signedness (R47). -/
def readReg (r : RegName) (s : State) : Word :=
  match r with
  | .cmd => s.cmd
  | .status => statusWord s.status s.busy
  | .ctrl => (BitVec.ofBool s.ie).zeroExtend 32
  | .devAddr => s.devAddr.zeroExtend 32
  | .baseN => s.baseN.zeroExtend 32
  | .settleMs => s.settleMs.zeroExtend 32
  | .intervalMs => s.intervalMs.zeroExtend 32
  | .rawP => s.rawP.zeroExtend 32
  | .rawT => s.rawT.zeroExtend 32
  | .tFine => s.res.tFine
  | .tCenti => s.res.tCenti
  | .pQ248Lo => loWord s.res.pQ248
  | .pQ248Hi => hiWord s.res.pQ248
  | .tempCLo => loWord s.res.tempC
  | .tempCHi => hiWord s.res.tempC
  | .pressHpaLo => loWord s.res.pressHpa
  | .pressHpaHi => hiWord s.res.pressHpa
  | .p0Lo => loWord s.p0
  | .p0Hi => hiWord s.p0
  | .t0Lo => loWord s.t0
  | .t0Hi => hiWord s.t0
  | .altOffsetLo => loWord s.altOffset
  | .altOffsetHi => hiWord s.altOffset
  | .recalAltLo => loWord s.recalAlt
  | .recalAltHi => hiWord s.recalAlt
  | .altOutLo => loWord s.altOut
  | .altOutHi => hiWord s.altOut
  | .digT1 => s.dig.t1.zeroExtend 32
  | .digT2 => s.dig.t2.signExtend 32
  | .digT3 => s.dig.t3.signExtend 32
  | .digP1 => s.dig.p1.zeroExtend 32
  | .digP2 => s.dig.p2.signExtend 32
  | .digP3 => s.dig.p3.signExtend 32
  | .digP4 => s.dig.p4.signExtend 32
  | .digP5 => s.dig.p5.signExtend 32
  | .digP6 => s.dig.p6.signExtend 32
  | .digP7 => s.dig.p7.signExtend 32
  | .digP8 => s.dig.p8.signExtend 32
  | .digP9 => s.dig.p9.signExtend 32

/-- `MemRead(off, 4)` at an aligned offset: the register's word, or 0 at a reserved offset (R60). -/
def hostRead (off : BitVec 8) (s : State) : Word :=
  match regAt off with
  | some r => readReg r s
  | none => 0

/-- A 64-bit register with its low word replaced (R62). -/
def setLo (old : BitVec 64) (v : Word) : BitVec 64 := hiWord old ++ v

/-- A 64-bit register with its high word replaced (R62). -/
def setHi (old : BitVec 64) (v : Word) : BitVec 64 := v ++ loWord old

/-- RAW_VALID set, as a host write to RAW_P or RAW_T and a RAW commit do (R35, R36, R115). -/
def noteRaw (st : Status) : Status := { st with rawValid := true }

/-- A host write that is not ignored to an RW* register (R31 to R36, R45): bits above the field are ignored. -/
def writeArgument (r : RegName) (v : Word) (s : State) : State :=
  match r with
  | .devAddr => { s with devAddr := v.setWidth 7 }
  | .baseN => { s with baseN := v.setWidth 8 }
  | .settleMs => { s with settleMs := v.setWidth 16 }
  | .intervalMs => { s with intervalMs := v.setWidth 16 }
  | .rawP => { s with rawP := v.setWidth 20, status := noteRaw s.status }
  | .rawT => { s with rawT := v.setWidth 20, status := noteRaw s.status }
  | .recalAltLo => { s with recalAlt := setLo s.recalAlt v }
  | .recalAltHi => { s with recalAlt := setHi s.recalAlt v }
  | _ => s

/-- A write ignored because BUSY = 1: it sets WR_OVR and "changes nothing else" (R26). -/
def noteOverrun (s : State) : State := { s with status := { s.status with wrOvr := true } }

/-- The write effect of a register other than CMD (R21, R60). -/
def writeReg (r : RegName) (v : Word) (s : State) : State :=
  match r.access with
  | .w1c => { s with status := statusClear v s.status }
  | .rw => { s with ie := v.getLsbD 0 }
  | .rwIdle => if s.busy then noteOverrun s else writeArgument r v s
  | .ro | .command => s

/-! ### Completion and errors -/

/-- `complete(e)` (R202): idle, BUSY = 0, DONE = 1, ERR = e. -/
def complete (e : ErrCode) (s : State) : State :=
  { s with phase := .idle, status := { s.status with done := true, err := e } }

/-! ### Acceptance -/

/-- What every accepted CMD write does first: CMD takes the word, DONE and ERR are cleared (R201). -/
def beginAccept (w : Word) (s : State) : State :=
  { s with cmd := w, status := { s.status with done := false, err := .ok } }

/-- A command word refused at acceptance: it completes in the same step, no stage runs (R201, R221). -/
def refuseCommand (w : Word) (e : ErrCode) (s : State) : State := complete e (beginAccept w s)

/-- An accepted word that is no command (R83, R226). -/
def refuseIllegal (w : Word) (s : State) : Out := .next (refuseCommand w .eillegal s)

/-- One acceptance check: the error `e` when the bad condition holds. -/
def check (bad : Bool) (e : ErrCode) : Option ErrCode := if bad then some e else none

/-- The first failing check, in the order listed (R201, R228). -/
def firstFailing : List (Option ErrCode) → Option ErrCode
  | [] => none
  | some e :: _ => some e
  | none :: rest => firstFailing rest

/-- The point a stage starts at. -/
def entryOf : Stage → Point
  | .cfg => .cfgFirst
  | .cal => .calRead
  | .raw => .rawRead
  | .comp => .compEval
  | .base => .baseEnter
  | .alt => .altEval
  | .rebase => .rebase

/-- Acceptance of a command whose checks and stages are given (R201). The checks read the state at the write. -/
def accept (i : Instr) (checks : List (Option ErrCode)) (stages : List Stage) (s : State) : State :=
  match firstFailing checks with
  | some e => refuseCommand (encode i) e s
  | none =>
    match stages with
    | [] => complete .ok (beginAccept (encode i) s)
    | st :: _ => { beginAccept (encode i) s with phase := .running ⟨i, 0, entryOf st⟩ }

/-! ### The bus port -/

/-- The sensor's answer to a transaction: the next scripted one, else the oracle's (R7, R67, D54). -/
def nextAnswer (tx : BusTx) (s : State) : BusResponse :=
  match s.sensorQueue with
  | a :: _ => a
  | [] =>
    match Config.sensor s.busTrace tx with
    | some b => .data b
    | none => .error

/-- A completed transaction: its answer is used up and the history grows (R67). -/
def recordTx (tx : BusTx) (a : BusResponse) (s : State) : State :=
  { s with sensorQueue := s.sensorQueue.tail, busTrace := s.busTrace ++ [(tx, a)] }

/-- What one move of the sequencer inside a stage does: go on to another point, commit the stage, raise an error,
stay because the sensor has not answered, or be refused. -/
inductive Move where
  | goto (p : Point) (s : State)
  | commit (s : State)
  | raise (e : ErrCode) (s : State)
  | stay (s : State)
  | refuse (r : Refusal)
  deriving DecidableEq, Repr

/-- One bus transaction (R64 to R67): a `BusError` or an answer of the wrong length raises EBUS (R222, D18); a
sensor that never answers leaves the block where it is (K7); a request outside the interface is refused (K19). -/
def transact (tx : BusTx) (after : List Byte → Point) (s : State) : Move :=
  if tx.wf then
    match nextAnswer tx s with
    | .data b => if tx.answeredBy b then .goto (after b) (recordTx tx (.data b) s) else .raise .ebus (recordTx tx (.data b) s)
    | .error => .raise .ebus (recordTx tx .error s)
    | .silent => .stay s
  else .refuse (.badBusRequest tx)

/-- The k-th NaN pattern from here on (D33). -/
def State.nan (s : State) (k : Nat) : F64 := nan64 (s.draws + k)

/-- The patterns used so far are not drawn again. -/
def usedNaNs (k : Nat) (s : State) : State := { s with draws := s.draws + k }

end Sys2Proof.Machine
end

