-- ==== Sys2Proof/Laws/Float.lean ====
section
/-! SUPPORT. Binary64: what a packed pattern unpacks to, the binade of a quotient, and that `fround` answers a nearest
number, ties to even, and answers an exact number unchanged. -/

namespace Sys2Proof.Machine

/-! ### Patterns -/

theorem fexpBits_eq (x : F64) : fexpBits x = x.toNat / 2 ^ 52 % 2048 := by
  simp [fexpBits, BitVec.extractLsb'_toNat, Nat.shiftRight_eq_div_pow]

theorem ffracBits_eq (x : F64) : ffracBits x = x.toNat % 2 ^ 52 := by
  simp [ffracBits, BitVec.extractLsb'_toNat]

theorem fsignBit_eq (x : F64) : fsignBit x = decide (2 ^ 63 ≤ x.toNat) := by
  simp [fsignBit, BitVec.msb_eq_decide]

theorem fsigned_toNat {m : Nat} (neg : Bool) (h : m < 2 ^ 63) :
    (fsigned neg m).toNat = (if neg then 2 ^ 63 else 0) + m := by
  unfold fsigned
  rw [BitVec.toNat_ofNat, Nat.mod_eq_of_lt]
  cases neg <;> simp only [Bool.false_eq_true, if_false, if_true] <;> omega

theorem fsignBit_fsigned {m : Nat} (neg : Bool) (h : m < 2 ^ 63) : fsignBit (fsigned neg m) = neg := by
  rw [fsignBit_eq, fsigned_toNat neg h]
  cases neg
  · simp; omega
  · simp

theorem fexpBits_fsigned {m : Nat} (neg : Bool) (h : m < 2 ^ 63) : fexpBits (fsigned neg m) = m / 2 ^ 52 := by
  rw [fexpBits_eq, fsigned_toNat neg h]
  cases neg <;> (simp; omega)

theorem ffracBits_fsigned {m : Nat} (neg : Bool) (h : m < 2 ^ 63) : ffracBits (fsigned neg m) = m % 2 ^ 52 := by
  rw [ffracBits_eq, fsigned_toNat neg h]
  cases neg
  · simp
  · simp; omega

/-- A pattern is its sign and its magnitude. -/
theorem fsigned_self (x : F64) : fsigned (fsignBit x) (x.toNat % 2 ^ 63) = x := by
  apply BitVec.eq_of_toNat_eq
  have := x.isLt
  rw [fsigned_toNat _ (Nat.mod_lt _ (by norm_num)), fsignBit_eq]
  by_cases h : 2 ^ 63 ≤ x.toNat
  · rw [decide_eq_true h, if_pos rfl]
    omega
  · rw [decide_eq_false h, if_neg Bool.false_ne_true]
    omega

theorem magnitude_eq (x : F64) : x.toNat % 2 ^ 63 = fexpBits x * 2 ^ 52 + ffracBits x := by
  have := x.isLt
  rw [fexpBits_eq, ffracBits_eq]
  omega

theorem fexpBits_lt (x : F64) : fexpBits x < 2048 := by rw [fexpBits_eq]; exact Nat.mod_lt _ (by norm_num)

theorem ffracBits_lt (x : F64) : ffracBits x < 2 ^ 52 := by rw [ffracBits_eq]; exact Nat.mod_lt _ (by norm_num)

/-- Two patterns with the same sign, exponent and fraction are one. -/
theorem F64_ext {x y : F64} (hs : fsignBit x = fsignBit y) (he : fexpBits x = fexpBits y)
    (hf : ffracBits x = ffracBits y) : x = y := by
  rw [← fsigned_self x, ← fsigned_self y, magnitude_eq, magnitude_eq, hs, he, hf]

/-! ### Unpacking -/

/-- A finite datum in canonical form: normal with 53 significant bits, or subnormal. -/
def Canonical (m : Nat) (e : Int) : Prop :=
  (2 ^ 52 ≤ m ∧ m < 2 ^ 53 ∧ -1074 ≤ e ∧ e ≤ 971) ∨ (m < 2 ^ 52 ∧ e = -1074)

theorem fisFinite_iff (x : F64) : fisFinite x = true ↔ fexpBits x ≠ 2047 := by simp [fisFinite]

theorem fisNaN_iff (x : F64) : fisNaN x = true ↔ unpack x = .nan := by
  unfold fisNaN unpack
  by_cases h : fexpBits x = 2047 <;> by_cases h0 : fexpBits x = 0 <;> by_cases h' : ffracBits x = 0 <;> simp [h, h0, h']

/-- A finite pattern unpacks to a canonical datum with its sign. -/
theorem unpack_finite {x : F64} (h : fisFinite x = true) :
    ∃ m e, unpack x = .fin (fsignBit x) m e ∧ Canonical m e := by
  rw [fisFinite_iff] at h
  have hl := fexpBits_lt x
  have hf := ffracBits_lt x
  unfold unpack
  rw [if_neg h]
  by_cases h0 : fexpBits x = 0
  · exact ⟨_, _, by rw [if_pos h0], .inr ⟨hf, rfl⟩⟩
  · refine ⟨_, _, by rw [if_neg h0], .inl ⟨by omega, by omega, by omega, by omega⟩⟩

theorem fisFinite_of_unpack {x : F64} {s : Bool} {m : Nat} {e : Int} (h : unpack x = .fin s m e) :
    fisFinite x = true := by
  rw [fisFinite_iff]
  intro h'
  unfold unpack at h
  rw [if_pos h'] at h
  split at h <;> simp at h

theorem unpack_fin {x : F64} {s : Bool} {m : Nat} {e : Int} (h : unpack x = .fin s m e) :
    s = fsignBit x ∧ Canonical m e := by
  obtain ⟨m', e', h1, h2⟩ := unpack_finite (fisFinite_of_unpack h)
  rw [h] at h1
  injection h1 with a b c
  subst b c
  exact ⟨a, h2⟩

/-- The pattern of a canonical datum. -/
theorem unpack_fpack {m : Nat} {e : Int} (neg : Bool) (h : Canonical m e) :
    unpack (fpack neg (e + 1074).toNat m) = .fin neg m e := by
  rcases h with ⟨h1, h2, h3, h4⟩ | ⟨h1, rfl⟩
  · obtain ⟨k, hk⟩ : ∃ k : Nat, e = (k : Int) - 1074 := ⟨(e + 1074).toNat, by omega⟩
    have hkn : (e + 1074).toNat = k := by omega
    have hk' : k ≤ 2045 := by omega
    have hlt : k * 2 ^ 52 + m < infBits := by unfold infBits; omega
    have h63 : k * 2 ^ 52 + m < 2 ^ 63 := by unfold infBits at hlt; omega
    rw [hkn, fpack, if_pos hlt, unpack, fexpBits_fsigned neg h63, ffracBits_fsigned neg h63, fsignBit_fsigned neg h63]
    rw [if_neg (by omega), if_neg (by omega)]
    congr 1 <;> omega
  · have h63 : 0 * 2 ^ 52 + m < 2 ^ 63 := by omega
    have hlt : 0 * 2 ^ 52 + m < infBits := by unfold infBits; omega
    rw [show ((-1074 : Int) + 1074).toNat = 0 by rfl, fpack, if_pos hlt, unpack, fexpBits_fsigned neg h63,
      ffracBits_fsigned neg h63, fsignBit_fsigned neg h63]
    rw [if_neg (by omega), if_pos (by omega)]
    congr 1
    omega

/-- A finite pattern is the pattern of what it unpacks to. -/
theorem fpack_unpack {x : F64} {s : Bool} {m : Nat} {e : Int} (h : unpack x = .fin s m e) :
    fpack s (e + 1074).toNat m = x := by
  have hfin := fisFinite_of_unpack h
  have hl := fexpBits_lt x
  have hf := ffracBits_lt x
  obtain ⟨rfl, -⟩ := unpack_fin h
  rw [fisFinite_iff] at hfin
  unfold unpack at h
  rw [if_neg hfin] at h
  have key : (e + 1074).toNat * 2 ^ 52 + m = x.toNat % 2 ^ 63 := by
    rw [magnitude_eq]
    by_cases h0 : fexpBits x = 0
    · rw [if_pos h0] at h
      injection h with _ b c
      subst b c
      simp [h0]
    · rw [if_neg h0] at h
      injection h with _ b c
      subst b c
      have : ((fexpBits x : Int) - 1075 + 1074).toNat = fexpBits x - 1 := by omega
      rw [this]
      omega
  rw [fpack, key, if_pos, fsigned_self]
  rw [magnitude_eq]
  unfold infBits
  omega

/-! ### Values -/

theorem fval_of_unpack {x : F64} {s : Bool} {m : Nat} {e : Int} (h : unpack x = .fin s m e) :
    fval x = (if s then -1 else 1) * (m : ℚ) * (2 : ℚ) ^ e := by
  simp [fval, h]

/-- The value of a packed number, the carry into the next binade included. -/
theorem fval_fpack {q : Nat} {e : Int} (neg : Bool) (he : -1074 ≤ e)
    (hq : (2 ^ 52 ≤ q ∧ q ≤ 2 ^ 53) ∨ (e = -1074 ∧ q ≤ 2 ^ 53))
    (hfin : fisFinite (fpack neg (e + 1074).toNat q) = true) :
    fval (fpack neg (e + 1074).toNat q) = (if neg then -1 else 1) * (q : ℚ) * (2 : ℚ) ^ e := by
  obtain ⟨k, hk⟩ : ∃ k : Nat, e = (k : Int) - 1074 := ⟨(e + 1074).toNat, by omega⟩
  have hkn : (e + 1074).toNat = k := by omega
  have hlt : k * 2 ^ 52 + q < infBits := by
    by_contra hge
    rw [hkn, fpack, if_neg hge] at hfin
    revert hfin
    cases neg <;> decide
  by_cases hc : q = 2 ^ 53
  · have hk5 : k ≤ 2044 := by unfold infBits at hlt; omega
    have hcan : Canonical (2 ^ 52) (e + 1) := .inl ⟨le_refl _, by norm_num, by omega, by omega⟩
    have hsame : fpack neg (e + 1074).toNat q = fpack neg (e + 1 + 1074).toNat (2 ^ 52) := by
      have : (e + 1 + 1074).toNat = k + 1 := by omega
      rw [hkn, this, fpack, fpack, hc]
      have : k * 2 ^ 52 + 2 ^ 53 = (k + 1) * 2 ^ 52 + 2 ^ 52 := by ring
      rw [this]
    rw [hsame, fval_of_unpack (unpack_fpack neg hcan), hc, zpow_add₀ (by norm_num : (2 : ℚ) ≠ 0)]
    push_cast
    ring
  · have hcan : Canonical q e := by
      rcases hq with ⟨h1, h2⟩ | ⟨h1, h2⟩
      · exact .inl ⟨h1, by omega, he, by unfold infBits at hlt; omega⟩
      · by_cases hs : q < 2 ^ 52
        · exact .inr ⟨hs, h1⟩
        · exact .inl ⟨by omega, by omega, he, by omega⟩
    rw [fval_of_unpack (unpack_fpack neg hcan)]

/-- A finite value is an integer multiple of the grid of any lower exponent. -/
theorem fval_grid (y : F64) (hy : fisFinite y = true) :
    ∃ (j : Int) (e : Int), -1074 ≤ e ∧ |j| < 2 ^ 53 ∧ fval y = (j : ℚ) * (2 : ℚ) ^ e := by
  obtain ⟨m, e, h1, h2⟩ := unpack_finite hy
  refine ⟨if fsignBit y then -(m : Int) else m, e, ?_, ?_, ?_⟩
  · rcases h2 with h | h <;> omega
  · have hm : m < 2 ^ 53 := by rcases h2 with h | h <;> omega
    have : |(if fsignBit y then -(m : Int) else m)| = (m : Int) := by cases fsignBit y <;> simp
    rw [this]
    exact_mod_cast hm
  · rw [fval_of_unpack h1]
    cases fsignBit y <;> simp

/-! ### Quotients -/

/-- n/d scaled by a power of two, as the two naturals the rounding works on. -/
theorem scaled_quotient (n d : Nat) (hd : 0 < d) (e : Int) :
    ((n * 2 ^ (-e).toNat : Nat) : ℚ) / ((d * 2 ^ e.toNat : Nat) : ℚ) = (n : ℚ) / d * (2 : ℚ) ^ (-e) := by
  have hd' : (d : ℚ) ≠ 0 := by exact_mod_cast hd.ne'
  rcases le_total 0 e with h | h
  · obtain ⟨k, rfl⟩ := Int.eq_ofNat_of_zero_le h
    simp [zpow_neg]
    field_simp
  · obtain ⟨k, hk⟩ := Int.eq_ofNat_of_zero_le (show 0 ≤ -e by omega)
    have : e = -(k : Int) := by omega
    subst this
    simp
    field_simp

/-- The binade of a quotient. -/
theorem ratLog2_spec {n d : Nat} (hn : 0 < n) (hd : 0 < d) :
    (2 : ℚ) ^ ratLog2 n d ≤ (n : ℚ) / d ∧ (n : ℚ) / d < (2 : ℚ) ^ (ratLog2 n d + 1) := by
  have h2 : (2 : ℚ) ≠ 0 := by norm_num
  have hdq : (0 : ℚ) < d := by exact_mod_cast hd
  have hnq : (0 : ℚ) < n := by exact_mod_cast hn
  have n1 : (2 : ℚ) ^ ((Nat.log2 n : Nat) : Int) ≤ n := by
    rw [zpow_natCast]; exact_mod_cast Nat.log2_self_le hn.ne'
  have n2 : (n : ℚ) < (2 : ℚ) ^ ((Nat.log2 n : Int) + 1) := by
    have : n < 2 ^ (Nat.log2 n + 1) := Nat.lt_log2_self
    have h' : (n : ℚ) < (2 : ℚ) ^ (Nat.log2 n + 1 : Nat) := by exact_mod_cast this
    rwa [← zpow_natCast] at h'
  have d1 : (2 : ℚ) ^ ((Nat.log2 d : Nat) : Int) ≤ d := by
    rw [zpow_natCast]; exact_mod_cast Nat.log2_self_le hd.ne'
  have d2 : (d : ℚ) < (2 : ℚ) ^ ((Nat.log2 d : Int) + 1) := by
    have : d < 2 ^ (Nat.log2 d + 1) := Nat.lt_log2_self
    have h' : (d : ℚ) < (2 : ℚ) ^ (Nat.log2 d + 1 : Nat) := by exact_mod_cast this
    rwa [← zpow_natCast] at h'
  set l : Int := (Nat.log2 n : Int) - (Nat.log2 d : Int) with hl
  have up : (n : ℚ) / d < (2 : ℚ) ^ (l + 1) := by
    rw [div_lt_iff₀ hdq]
    calc (n : ℚ) < (2 : ℚ) ^ ((Nat.log2 n : Int) + 1) := n2
      _ = (2 : ℚ) ^ (l + 1) * (2 : ℚ) ^ ((Nat.log2 d : Nat) : Int) := by
          rw [← zpow_add₀ h2]; congr 1; omega
      _ ≤ (2 : ℚ) ^ (l + 1) * d := by gcongr
  have lo : (2 : ℚ) ^ (l - 1) < (n : ℚ) / d := by
    rw [lt_div_iff₀ hdq]
    calc (2 : ℚ) ^ (l - 1) * d < (2 : ℚ) ^ (l - 1) * (2 : ℚ) ^ ((Nat.log2 d : Int) + 1) := by gcongr
      _ = (2 : ℚ) ^ ((Nat.log2 n : Nat) : Int) := by rw [← zpow_add₀ h2]; congr 1; omega
      _ ≤ n := n1
  have test : d * 2 ^ l.toNat ≤ n * 2 ^ (-l).toNat ↔ (2 : ℚ) ^ l ≤ (n : ℚ) / d := by
    have hs := scaled_quotient n d hd l
    have hp : (0 : ℚ) < (2 : ℚ) ^ l := by positivity
    have hpos : (0 : ℚ) < ((d * 2 ^ l.toNat : Nat) : ℚ) := by exact_mod_cast Nat.mul_pos hd (by positivity)
    have e1 : d * 2 ^ l.toNat ≤ n * 2 ^ (-l).toNat ↔
        (1 : ℚ) ≤ ((n * 2 ^ (-l).toNat : Nat) : ℚ) / ((d * 2 ^ l.toNat : Nat) : ℚ) := by
      rw [le_div_iff₀ hpos, one_mul]
      exact (Nat.cast_le (α := ℚ)).symm
    rw [e1, hs, zpow_neg, ← div_eq_mul_inv, le_div_iff₀ hp, one_mul]
  unfold ratLog2
  simp only [← hl]
  split
  · rename_i h
    exact ⟨test.mp h, up⟩
  · rename_i h
    rw [test, not_le] at h
    refine ⟨lo.le, ?_⟩
    rw [sub_add_cancel]
    exact h

/-- The binade is the only one. -/
theorem ratLog2_unique {n d : Nat} (hn : 0 < n) (hd : 0 < d) {l : Int} (h1 : (2 : ℚ) ^ l ≤ (n : ℚ) / d)
    (h2 : (n : ℚ) / d < (2 : ℚ) ^ (l + 1)) : ratLog2 n d = l := by
  obtain ⟨a, b⟩ := ratLog2_spec hn hd
  have c1 : (2 : ℚ) ^ l < (2 : ℚ) ^ (ratLog2 n d + 1) := lt_of_le_of_lt h1 b
  have c2 : (2 : ℚ) ^ ratLog2 n d < (2 : ℚ) ^ (l + 1) := lt_of_le_of_lt a h2
  rw [zpow_lt_zpow_iff_right₀ (by norm_num)] at c1 c2
  omega

/-- The rounded quotient is within half a unit, and on a tie it is even. -/
theorem divNearestEven_spec (n d : Nat) (hd : 0 < d) :
    |(divNearestEven n d : ℚ) - (n : ℚ) / d| ≤ 1 / 2 ∧
    (|(divNearestEven n d : ℚ) - (n : ℚ) / d| = 1 / 2 → divNearestEven n d % 2 = 0) := by
  have hdq : (0 : ℚ) < d := by exact_mod_cast hd
  have hdm : d * (n / d) + n % d = n := Nat.div_add_mod n d
  have hlt : n % d < d := Nat.mod_lt n hd
  set q := n / d
  set r := n % d
  have hv : (n : ℚ) / d = q + (r : ℚ) / d := by
    rw [← hdm]; push_cast; field_simp
  have hr0 : (0 : ℚ) ≤ (r : ℚ) / d := by positivity
  have half_lt : (r : ℚ) / d < 1 / 2 ↔ 2 * r < d := by
    rw [div_lt_iff₀ hdq]
    constructor
    · intro h; have : (2 * r : ℚ) < d := by linarith
      exact_mod_cast this
    · intro h; have : (2 * r : ℚ) < d := by exact_mod_cast h
      linarith
  have half_eq : (r : ℚ) / d = 1 / 2 ↔ 2 * r = d := by
    rw [div_eq_iff hdq.ne']
    constructor
    · intro h; have : (2 * r : ℚ) = d := by linarith
      exact_mod_cast this
    · intro h; have : (2 * r : ℚ) = d := by exact_mod_cast h
      linarith
  have hr1 : (r : ℚ) / d < 1 := by rw [div_lt_one hdq]; exact_mod_cast hlt
  unfold divNearestEven
  simp only [show n / d = q from rfl, show n % d = r from rfl]
  split
  · rename_i h
    have hge : (1 : ℚ) / 2 ≤ (r : ℚ) / d := by
      rw [← not_lt, half_lt]; omega
    have habs : |((q + 1 : Nat) : ℚ) - (n : ℚ) / d| = 1 - (r : ℚ) / d := by
      rw [hv]; push_cast; rw [abs_of_nonneg] <;> linarith
    rw [habs]
    refine ⟨by linarith, fun ht => ?_⟩
    have : 2 * r = d := half_eq.mp (by linarith)
    omega
  · rename_i h
    have hle : (r : ℚ) / d ≤ 1 / 2 := by
      rcases lt_or_eq_of_le (show 2 * r ≤ d by omega) with h' | h'
      · exact (half_lt.mpr h').le
      · exact (half_eq.mpr h').le
    have habs : |(q : ℚ) - (n : ℚ) / d| = (r : ℚ) / d := by
      rw [hv, abs_sub_comm, abs_of_nonneg] <;> linarith
    rw [habs]
    refine ⟨hle, fun ht => ?_⟩
    have : 2 * r = d := half_eq.mp ht
    omega

/-- No integer is nearer than the rounded quotient. -/
theorem divNearestEven_nearest (n d : Nat) (hd : 0 < d) (j : Int) :
    |(divNearestEven n d : ℚ) - (n : ℚ) / d| ≤ |(j : ℚ) - (n : ℚ) / d| := by
  have h := (divNearestEven_spec n d hd).1
  by_cases hj : j = (divNearestEven n d : Int)
  · rw [hj]; push_cast; exact le_refl _
  · have h1 : (1 : ℚ) ≤ |(j : ℚ) - (divNearestEven n d : ℚ)| := by
      have : (1 : Int) ≤ |j - (divNearestEven n d : Int)| := Int.one_le_abs (sub_ne_zero.mpr hj)
      exact_mod_cast this
    have h2 : |(j : ℚ) - (divNearestEven n d : ℚ)| ≤ |(j : ℚ) - (n : ℚ) / d| + |(divNearestEven n d : ℚ) - (n : ℚ) / d| := by
      have := abs_sub_le (j : ℚ) ((n : ℚ) / d) (divNearestEven n d : ℚ)
      rwa [abs_sub_comm ((n : ℚ) / d)] at this
    linarith

end Sys2Proof.Machine
end

