-- ==== Sys2Proof/Machine/Power.lean ====
section
/-! DEFINITION. The open parameter `pow64` (R7, R171, D34) with the accuracy D34 requires of it. The accuracy stands
in the type of the opaque constant, so nothing else about its values can be proved. Lean takes an opaque constant only
of a type with a member: `floorPow` is one, and that is its whole use. -/

namespace Sys2Proof.Machine

/-- COEFF is exactly 0x185A6452101251 / 2^55 (R170). -/
def coeffNum : Nat := 0x185A6452101251
def coeffDen : Nat := 2 ^ 55

/-- `y` is a positive normal number within 1 ulp of the exact `x^(a/b)` (D34). -/
def PowerBound (a b : Nat) (x y : F64) : Prop :=
  fsignBit y = false ∧ fisFinite y = true ∧ fexpBits y ≠ 0 ∧
    |((fval y : ℚ) : ℝ) - ((fval x : ℚ) : ℝ) ^ ((a : ℝ) / (b : ℝ))| ≤ ((fulp y : ℚ) : ℝ)

/-- A power function of the accuracy D34 requires, for finite x > 0. -/
structure PowerFunction where
  f : F64 → F64
  bound : ∀ x : F64, fisFinite x = true → 0 < fval x → PowerBound coeffNum coeffDen x (f x)

/-- The largest binary64 number y with y^b ≤ x^a. -/
def floorPow (a b : Nat) (x : F64) : F64 :=
  fsigned false (Nat.findGreatest (fun n => fval (fsigned false n) ^ b ≤ fval x ^ a) (infBits - 1))

theorem unpack_magnitude {n : Nat} (h : n < infBits) :
    unpack (fsigned false n) =
      if n / 2 ^ 52 = 0 then .fin false (n % 2 ^ 52) (-1074)
      else .fin false (2 ^ 52 + n % 2 ^ 52) (((n / 2 ^ 52 : Nat) : Int) - 1075) := by
  have h63 : n < 2 ^ 63 := by unfold infBits at h; omega
  have hne : n / 2 ^ 52 ≠ 2047 := by unfold infBits at h; omega
  rw [unpack, fexpBits_fsigned _ h63, ffracBits_fsigned _ h63, fsignBit_fsigned _ h63, if_neg hne]

/-- The next pattern is one ulp further. -/
theorem fval_next {n : Nat} (h : n + 1 < infBits) :
    fval (fsigned false (n + 1)) = fval (fsigned false n) + fulp (fsigned false n) := by
  unfold fval fulp
  rw [unpack_magnitude h, unpack_magnitude (by omega)]
  by_cases h0 : n / 2 ^ 52 = 0
  · by_cases h1 : (n + 1) / 2 ^ 52 = 0
    · have : (n + 1) % 2 ^ 52 = n % 2 ^ 52 + 1 := by omega
      rw [if_pos h0, if_pos h1, this]
      simp only [Bool.false_eq_true, if_false]
      generalize (2 : ℚ) ^ (-1074 : Int) = u
      push_cast; ring
    · have e1 : (n + 1) / 2 ^ 52 = 1 := by omega
      have e2 : (n + 1) % 2 ^ 52 = 0 := by omega
      have e3 : n % 2 ^ 52 = 2 ^ 52 - 1 := by omega
      rw [if_pos h0, if_neg h1, e1, e2, e3, show (((1 : Nat) : Int) - 1075) = -1074 by rfl]
      simp only [Bool.false_eq_true, if_false]
      generalize (2 : ℚ) ^ (-1074 : Int) = u
      push_cast; ring
  · by_cases hc : (n + 1) % 2 ^ 52 = 0
    · obtain ⟨k, hk⟩ : ∃ k, n / 2 ^ 52 = k := ⟨_, rfl⟩
      have e1 : (n + 1) / 2 ^ 52 = k + 1 := by omega
      have e3 : n % 2 ^ 52 = 2 ^ 52 - 1 := by omega
      rw [if_neg h0, if_neg (by omega), hk, e1, hc, e3]
      have : (((k + 1 : Nat) : Int) - 1075) = ((k : Int) - 1075) + 1 := by push_cast; ring
      simp only [Bool.false_eq_true, if_false]
      rw [this, zpow_add₀ (by norm_num)]
      norm_num
      ring
    · have e1 : (n + 1) / 2 ^ 52 = n / 2 ^ 52 := by omega
      have e2 : (n + 1) % 2 ^ 52 = n % 2 ^ 52 + 1 := by omega
      rw [if_neg h0, e1, if_neg h0, e2]
      simp only [Bool.false_eq_true, if_false]
      push_cast; ring

theorem fval_magnitude_nonneg (n : Nat) (h : n < infBits) : 0 ≤ fval (fsigned false n) := by
  unfold fval
  rw [unpack_magnitude h]
  by_cases h0 : n / 2 ^ 52 = 0
  · rw [if_pos h0]
    simp only [Bool.false_eq_true, if_false]
    positivity
  · rw [if_neg h0]
    simp only [Bool.false_eq_true, if_false]
    positivity

/-- The smallest normal number and the value past the largest one. -/
theorem fval_minNormal : fval (fsigned false (2 ^ 52)) = (2 : ℚ) ^ (-1022 : Int) := by
  unfold fval
  rw [unpack_magnitude (by unfold infBits; omega), if_neg (by decide),
    show (((2 ^ 52 / 2 ^ 52 : Nat) : Int) - 1075) = -1022 + -52 by rfl]
  simp only [Bool.false_eq_true, if_false]
  rw [zpow_add₀ (by norm_num)]
  generalize (2 : ℚ) ^ (-1022 : Int) = u
  norm_num [zpow_neg]
  ring

theorem fval_past_max : fval (fsigned false (infBits - 1)) + fulp (fsigned false (infBits - 1)) = (2 : ℚ) ^ (1024 : Int) := by
  unfold fval fulp
  rw [unpack_magnitude (by unfold infBits; omega), if_neg (by decide),
    show (((infBits - 1) / 2 ^ 52 : Nat) : Int) - 1075 = 971 by rfl,
    show (infBits - 1) % 2 ^ 52 = 2 ^ 52 - 1 by rfl, show (1024 : Int) = 53 + 971 by rfl]
  simp only [Bool.false_eq_true, if_false]
  rw [zpow_add₀ (by norm_num)]
  generalize (2 : ℚ) ^ (971 : Int) = u
  push_cast
  norm_num
  ring

/-- A positive finite number lies from 2^-1074 on and below 2^1024. -/
theorem fval_range {x : F64} (hf : fisFinite x = true) (hx : 0 < fval x) :
    (2 : ℚ) ^ (-1074 : Int) ≤ fval x ∧ fval x ≤ (2 : ℚ) ^ (1024 : Int) := by
  obtain ⟨m, e, hu, hc⟩ := unpack_finite hf
  rw [fval_of_unpack hu] at hx ⊢
  cases hs : fsignBit x
  · rw [hs] at hx
    simp only [Bool.false_eq_true, if_false, one_mul] at hx ⊢
    have hm : 1 ≤ m := by
      rcases Nat.eq_zero_or_pos m with h | h
      · simp [h] at hx
      · exact h
    have he : -1074 ≤ e ∧ e ≤ 971 ∧ m ≤ 2 ^ 53 := by rcases hc with h | h <;> omega
    have hmq : (1 : ℚ) ≤ m := by exact_mod_cast hm
    have hmq' : (m : ℚ) ≤ (2 : ℚ) ^ (53 : Int) := by exact_mod_cast he.2.2
    constructor
    · calc (2 : ℚ) ^ (-1074 : Int) ≤ (2 : ℚ) ^ e := zpow_le_zpow_right₀ (by norm_num) he.1
        _ ≤ m * (2 : ℚ) ^ e := le_mul_of_one_le_left (by positivity) hmq
    · calc (m : ℚ) * (2 : ℚ) ^ e ≤ (2 : ℚ) ^ (53 : Int) * (2 : ℚ) ^ (971 : Int) :=
            mul_le_mul hmq' (zpow_le_zpow_right₀ (by norm_num) he.2.1) (by positivity) (by positivity)
        _ = (2 : ℚ) ^ (1024 : Int) := by rw [← zpow_add₀ (by norm_num)]; rfl
  · rw [hs] at hx
    simp only [if_true] at hx
    have : (0 : ℚ) ≤ m * (2 : ℚ) ^ e := by positivity
    linarith

/-- Between two numbers whose b-th powers enclose x^a lies x^(a/b). -/
theorem root_between {a b : Nat} (hb : 0 < b) {x y w : ℚ} (hx : 0 < x) (hy : 0 ≤ y) (hw : 0 ≤ w) (h1 : y ^ b ≤ x ^ a)
    (h2 : x ^ a ≤ w ^ b) : (y : ℝ) ≤ (x : ℝ) ^ ((a : ℝ) / b) ∧ (x : ℝ) ^ ((a : ℝ) / b) ≤ (w : ℝ) := by
  have hx' : (0 : ℝ) < x := by exact_mod_cast hx
  have hv : ((x : ℝ) ^ ((a : ℝ) / b)) ^ b = (x : ℝ) ^ a := by
    rw [← Real.rpow_natCast, ← Real.rpow_mul hx'.le, div_mul_cancel₀ _ (by exact_mod_cast hb.ne'), Real.rpow_natCast]
  have hv0 : 0 ≤ (x : ℝ) ^ ((a : ℝ) / b) := Real.rpow_nonneg hx'.le _
  constructor
  · rw [← pow_le_pow_iff_left₀ (by exact_mod_cast hy) hv0 hb.ne', hv]
    exact_mod_cast h1
  · rw [← pow_le_pow_iff_left₀ hv0 (by exact_mod_cast hw) hb.ne', hv]
    exact_mod_cast h2

/-- `floorPow` is accurate to 1 ulp for an exponent up to 1/2. -/
theorem floorPow_bound {a b : Nat} (ha : 0 < a) (hab : 2 * a ≤ b) {x : F64} (hf : fisFinite x = true) (hx : 0 < fval x) :
    PowerBound a b x (floorPow a b x) := by
  obtain ⟨lo, hi⟩ := fval_range hf hx
  unfold floorPow
  have hp : fval (fsigned false (2 ^ 52)) ^ b ≤ fval x ^ a := by
    rw [fval_minNormal]
    calc ((2 : ℚ) ^ (-1022 : Int)) ^ b ≤ ((2 : ℚ) ^ (-1022 : Int)) ^ (2 * a) :=
          pow_le_pow_of_le_one (by positivity) (zpow_le_one_of_nonpos₀ (by norm_num) (by norm_num)) hab
      _ = ((2 : ℚ) ^ (-2044 : Int)) ^ a := by
          rw [pow_mul, ← zpow_natCast ((2 : ℚ) ^ (-1022 : Int)), ← zpow_mul]; rfl
      _ ≤ ((2 : ℚ) ^ (-1074 : Int)) ^ a := by
          exact pow_le_pow_left₀ (by positivity) (zpow_le_zpow_right₀ (by norm_num) (by norm_num)) a
      _ ≤ fval x ^ a := pow_le_pow_left₀ (by positivity) lo a
  have hN : 2 ^ 52 ≤ infBits - 1 := by unfold infBits; omega
  obtain ⟨m, hm⟩ : ∃ m, Nat.findGreatest (fun n => fval (fsigned false n) ^ b ≤ fval x ^ a) (infBits - 1) = m := ⟨_, rfl⟩
  have hle : m ≤ infBits - 1 := hm ▸ Nat.findGreatest_le _
  have hge : 2 ^ 52 ≤ m := hm ▸ Nat.le_findGreatest hN hp
  have hy : fval (fsigned false m) ^ b ≤ fval x ^ a := by
    have := Nat.findGreatest_spec (P := fun n => fval (fsigned false n) ^ b ≤ fval x ^ a) hN hp
    rwa [hm] at this
  rw [hm]
  have hlt : m < infBits := by unfold infBits at hle ⊢; omega
  have h63 : m < 2 ^ 63 := by unfold infBits at hlt; omega
  have hy0 := fval_magnitude_nonneg m hlt
  have hu : 0 ≤ fulp (fsigned false m) := by
    unfold fulp
    rw [unpack_magnitude hlt, if_neg (by omega)]
    positivity
  have hw : fval x ^ a ≤ (fval (fsigned false m) + fulp (fsigned false m)) ^ b := by
    by_cases hmax : m = infBits - 1
    · rw [hmax, fval_past_max]
      calc fval x ^ a ≤ ((2 : ℚ) ^ (1024 : Int)) ^ a := pow_le_pow_left₀ hx.le hi a
        _ ≤ ((2 : ℚ) ^ (1024 : Int)) ^ b :=
            pow_le_pow_right₀ (one_le_zpow₀ (by norm_num) (by norm_num)) (by omega)
    · have hn := Nat.findGreatest_is_greatest (P := fun n => fval (fsigned false n) ^ b ≤ fval x ^ a)
        (n := infBits - 1) (k := m + 1) (by omega) (by omega)
      rw [not_le, fval_next (by unfold infBits at hle hmax ⊢; omega)] at hn
      exact hn.le
  obtain ⟨b1, b2⟩ := root_between (by omega) hx hy0 (add_nonneg hy0 hu) hy hw
  refine ⟨fsignBit_fsigned _ h63, ?_, ?_, ?_⟩
  · rw [fisFinite_iff, fexpBits_fsigned _ h63]
    unfold infBits at hlt
    omega
  · rw [fexpBits_fsigned _ h63]
    omega
  · push_cast at b2
    rw [abs_le]
    constructor <;> linarith

/-- `floorPow` at COEFF as a power function. -/
def floorPower : PowerFunction :=
  { f := floorPow coeffNum coeffDen
    bound := fun _ hf hx => floorPow_bound (by decide) (by decide) hf hx }

/-- The open parameter `pow64` of R7: some function of the accuracy D34 requires, nothing says which (log 7). -/
opaque Config.power [Inhabited PowerFunction] : PowerFunction

/-- The free part of `pow64`. -/
def powFree (x : F64) : F64 := (@Config.power ⟨floorPower⟩).f x

/-- `pow64` (R171, D34): its fixed values, and for the other finite x > 0 a free value within 1 ulp of x^COEFF; for a
NaN, a finite x < 0 and -inf some NaN (R181 (4), log 8). -/
def pow64 (x : F64) : F64 :=
  match unpack x with
  | .nan => toNaN (powFree x)
  | .inf true => toNaN (powFree x)
  | .inf false => finf false
  | .fin neg m _ =>
    if m = 0 then fzero false
    else if neg then toNaN (powFree x)
    else if x = Config.one then Config.one
    else powFree x

end Sys2Proof.Machine
end

