-- ==== Sys2Proof/Machine/Stages.lean ====
section
/-! DEFINITION. The seven stages (R200), each as the moves its pseudocode makes, and the sequencer that runs a
command's stage list one move at a time (R203). One move is one bus transaction with its answer, one delay, one
evaluation, or one commit (log 2). -/

namespace Sys2Proof.Machine

/-! ### Stage CFG (R110) -/

def moveCfgFirst (s : State) : Move :=
  transact (.write s.devAddr Config.regMeasurementCtrl [Config.measurementCtrlByte]) (fun _ => .cfgSecond) s

def moveCfgSecond (s : State) : Move :=
  transact (.write s.devAddr Config.regConfig [Config.configByte]) (fun _ => .cfgCommit) s

def commitCfg (s : State) : State := { s with status := { s.status with cfgDone := true } }

/-! ### Stage CAL (R112) -/

def moveCalRead (s : State) : Move :=
  transact (.read s.devAddr Config.regCalibration Config.calibrationBytes) .calCommit s

/-- The whole coefficient set is replaced at once (R112, R114). -/
def commitCal (b : List Byte) (s : State) : State :=
  { s with dig := calDecode b, status := { s.status with calValid := true } }

/-! ### Stage RAW (R115) -/

def moveRawRead (s : State) : Move :=
  transact (.read s.devAddr Config.regRaw Config.rawBytes) .rawCommit s

def commitRaw (b : List Byte) (s : State) : State :=
  { s with rawP := rawPressure b, rawT := rawTemperature b, status := noteRaw s.status }

/-! ### Stage COMP (R150) -/

/-- The evaluation: OVF is set at once when a step wrapped (R24, R150). -/
def moveCompEval (s : State) : Move :=
  let r := comp s.rawT s.rawP s.dig
  .goto (.compCommit r) { s with status := noteOvf r.ovf s.status }

def commitComp (r : CompResult) (s : State) : State :=
  { s with res := r.res, status := { s.status with pinv := r.pinv, resValid := true } }

/-! ### Stage BASE (R173, R175) -/

/-- The settling delay is loaded and the sums start at +0.0 (R173). -/
def moveBaseEnter (s : State) : Move := .goto (.baseWait s.settleMs 1 (fzero false) (fzero false)) s

/-- A delay ends. It lasts at least its milliseconds, and no value depends on how long (D49, R174). -/
def moveBaseWait (i : Nat) (sumP sumT : F64) (s : State) : Move := .goto (.baseRead i sumP sumT) s

def moveBaseRead (i : Nat) (sumP sumT : F64) (s : State) : Move :=
  transact (.read s.devAddr Config.regRaw Config.rawBytes) (fun b => .baseEval b i sumP sumT) s

def moveBaseEval (b : List Byte) (i : Nat) (sumP sumT : F64) (s : State) : Move :=
  let r := comp (rawTemperature b) (rawPressure b) s.dig
  .goto (.baseAdd r i sumP sumT) { s with status := noteOvf r.ovf s.status }

/-- P0 of R175: `sum_p /. f64(N)`. -/
def baselinePressure (nan : Nat → F64) (n : BitVec 8) (sumP : F64) : F64 := fdiv (nan 2) sumP (fofInt (zext n))

/-- T0 of R175: `(sum_t /. f64(N)) +. 273.15`. -/
def baselineKelvin (nan : Nat → F64) (n : BitVec 8) (sumT : F64) : F64 :=
  fadd (nan 4) (fdiv (nan 3) sumT (fofInt (zext n))) Config.kelvinZero

/-- The commit of R175, from the two sums over the N samples. -/
def commitBase (sumP sumT : F64) (s : State) : State :=
  { s with
    p0 := baselinePressure s.nan s.baseN sumP
    t0 := baselineKelvin s.nan s.baseN sumT
    altOffset := fzero false
    status := { s.status with baseValid := true } }

/-- A sample is added, unless it is the sentinel; after the N-th the stage commits (R173). -/
def moveBaseAdd (r : CompResult) (i : Nat) (sumP sumT : F64) (s : State) : Move :=
  if r.pinv then .raise .einvcomp s
  else
    let sumP' := fadd (s.nan 0) sumP r.res.pressHpa
    let sumT' := fadd (s.nan 1) sumT r.res.tempC
    if i < s.baseN.toNat then .goto (.baseWait s.intervalMs (i + 1) sumP' sumT') (usedNaNs 5 s)
    else .commit (usedNaNs 5 (commitBase sumP' sumT' s))

/-! ### Stage ALT (R180) -/

/-- The altitude of R180, `alt_offset +. ((t0 /. 0.0065) *. (1.0 -. pow64(press /. p0)))`, every step rounded in the
order of D43. `nan k` is the pattern the k-th operation answers if it makes a NaN. -/
def altitudeFormula (nan : Nat → F64) (press p0 t0 altOffset : F64) : F64 :=
  let r := fdiv (nan 0) press p0
  let e := pow64 r
  let d := fsub (nan 1) Config.one e
  let q := fdiv (nan 2) t0 Config.lapseRate
  fadd (nan 4) altOffset (fmul (nan 3) q d)

/-- The commit of R180. -/
def commitAlt (s : State) : State :=
  { s with altOut := altitudeFormula s.nan s.res.pressHpa s.p0 s.t0 s.altOffset }

def moveAlt (s : State) : Move :=
  if s.status.pinv then .raise .einvcomp s
  else .commit (usedNaNs 5 (commitAlt s))

/-! ### Stage REBASE (R186) -/

def commitRebase (s : State) : State :=
  { s with
    p0 := s.res.pressHpa
    t0 := fadd (s.nan 0) s.res.tempC Config.kelvinZero
    altOffset := s.recalAlt
    status := { s.status with baseValid := true } }

def moveRebase (s : State) : Move :=
  if s.status.pinv then .raise .einvcomp s else .commit (usedNaNs 1 (commitRebase s))

/-! ### Running stages (R203) -/

/-- The move the sequencer makes at a point. -/
def move (p : Point) (s : State) : Move :=
  match p with
  | .cfgFirst => moveCfgFirst s
  | .cfgSecond => moveCfgSecond s
  | .cfgCommit => .commit (commitCfg s)
  | .calRead => moveCalRead s
  | .calCommit b => .commit (commitCal b s)
  | .rawRead => moveRawRead s
  | .rawCommit b => .commit (commitRaw b s)
  | .compEval => moveCompEval s
  | .compCommit r => .commit (commitComp r s)
  | .baseEnter => moveBaseEnter s
  | .baseWait _ i sumP sumT => moveBaseWait i sumP sumT s
  | .baseRead i sumP sumT => moveBaseRead i sumP sumT s
  | .baseEval b i sumP sumT => moveBaseEval b i sumP sumT s
  | .baseAdd r i sumP sumT => moveBaseAdd r i sumP sumT s
  | .altEval => moveAlt s
  | .rebase => moveRebase s

/-- After a stage's commit: the next stage of the list, or completion with OK in the same step (R203). -/
def nextStage (stages : List Stage) (q : Running) (s : State) : State :=
  match stages[q.stage + 1]? with
  | some st => { s with phase := .running ⟨q.cmd, q.stage + 1, entryOf st⟩ }
  | none => complete .ok s

/-- One move of the running command (R203). A stage that raises does not commit and ends the command (R221). -/
def advance (stages : List Stage) (q : Running) (s : State) : Out :=
  match move q.point s with
  | .goto p s' => .next { s' with phase := .running ⟨q.cmd, q.stage, p⟩ }
  | .commit s' => .next (nextStage stages q s')
  | .raise e s' => .next (complete e s')
  | .stay s' => .next s'
  | .refuse r => .refused r

/-- A command with its acceptance checks and its stage list (R200): while idle it is accepted (R201), while running
it makes its next move (R203). -/
def runCommand (i : Instr) (checks : List (Option ErrCode)) (stages : List Stage) (s : State) : Out :=
  match s.phase with
  | .idle => .next (accept i checks stages s)
  | .running q => advance stages q s

end Sys2Proof.Machine
end

