-- ==== Sys2Proof/Machine/Altitude.lean ====
section
/-! DEFINITION. The barometric formula evaluator's commands: BASELINE, ALT_EVAL, ALTITUDE, RECALIBRATE
(42_altitude.md). -/

namespace Sys2Proof.Machine

/-- BASELINE (R173): EARG if BASE_N = 0, EUNINIT if CAL_VALID = 0; stage BASE. -/
def execBaseline (s : State) : Out :=
  runCommand .baseline [check (s.baseN == 0) .earg, check (!s.status.calValid) .euninit] [.base] s

/-- ALT_EVAL (R180): EUNINIT if RES_VALID = 0 or BASE_VALID = 0; stage ALT. -/
def execAltEval (s : State) : Out :=
  runCommand .altEval [check (!s.status.resValid || !s.status.baseValid) .euninit] [.alt] s

/-- ALTITUDE (R182): EUNINIT if CAL_VALID = 0 or BASE_VALID = 0; stages RAW, COMP, ALT. -/
def execAltitude (s : State) : Out :=
  runCommand .altitude [check (!s.status.calValid || !s.status.baseValid) .euninit] [.raw, .comp, .alt] s

/-- RECALIBRATE (R185): EUNINIT if CAL_VALID = 0; stages RAW, COMP, REBASE. -/
def execRecalibrate (s : State) : Out :=
  runCommand .recalibrate [check (!s.status.calValid) .euninit] [.raw, .comp, .rebase] s

end Sys2Proof.Machine
end

