-- ==== Sys2Proof/Machine/Pipeline.lean ====
section
/-! DEFINITION. The compensation pipeline's commands: COMPENSATE and SAMPLE (41_compensation.md). -/

namespace Sys2Proof.Machine

/-- COMPENSATE (R151): EUNINIT if CAL_VALID = 0 or RAW_VALID = 0; stage COMP. -/
def execCompensate (s : State) : Out :=
  runCommand .compensate [check (!s.status.calValid || !s.status.rawValid) .euninit] [.comp] s

/-- SAMPLE (R152): EUNINIT if CAL_VALID = 0; stages RAW, COMP. -/
def execSample (s : State) : Out :=
  runCommand .sample [check (!s.status.calValid) .euninit] [.raw, .comp] s

end Sys2Proof.Machine
end

