-- ==== Sys2Proof/Machine/RegisterReader.lean ====
section
/-! DEFINITION. The register reader's commands: CONFIGURE, LOAD_CAL, READ_RAW (40_register_reader.md). -/

namespace Sys2Proof.Machine

/-- CONFIGURE (R110): ESEQ if CFG_DONE = 1; stage CFG. -/
def execConfigure (s : State) : Out :=
  runCommand .configure [check s.status.cfgDone .eseq] [.cfg] s

/-- LOAD_CAL (R112): EUNINIT if CFG_DONE = 0; stage CAL. -/
def execLoadCal (s : State) : Out :=
  runCommand .loadCal [check (!s.status.cfgDone) .euninit] [.cal] s

/-- READ_RAW (R115): EUNINIT if CAL_VALID = 0; stage RAW. -/
def execReadRaw (s : State) : Out :=
  runCommand .readRaw [check (!s.status.calValid) .euninit] [.raw] s

end Sys2Proof.Machine
end

