-- ==== Sys2Proof/Machine/Sequencing.lean ====
section
/-! DEFINITION. The commands that belong to no unit: NOP and INIT (43_sequencing.md). -/

namespace Sys2Proof.Machine

/-- NOP (R204): no check, no stage; it completes at acceptance. -/
def execNop (s : State) : Out := runCommand .nop [] [] s

/-- INIT (R205): ESEQ if CFG_DONE = 1, EARG if BASE_N = 0; stages CFG, CAL, BASE. -/
def execInit (s : State) : Out :=
  runCommand .init [check s.status.cfgDone .eseq, check (s.baseN == 0) .earg] [.cfg, .cal, .base] s

end Sys2Proof.Machine
end

