-- ==== Sys2Proof/Machine/Dispatch.lean ====
section
/-! DEFINITION. The meaning of each command, one arm each. -/

namespace Sys2Proof.Machine

def exec (i : Instr) (s : State) : Host.Outcome State Fault Refusal :=
  match i with
  | .nop => Sys2Proof.Machine.execNop s
  | .configure => Sys2Proof.Machine.execConfigure s
  | .loadCal => Sys2Proof.Machine.execLoadCal s
  | .readRaw => Sys2Proof.Machine.execReadRaw s
  | .compensate => Sys2Proof.Machine.execCompensate s
  | .sample => Sys2Proof.Machine.execSample s
  | .baseline => Sys2Proof.Machine.execBaseline s
  | .altEval => Sys2Proof.Machine.execAltEval s
  | .altitude => Sys2Proof.Machine.execAltitude s
  | .recalibrate => Sys2Proof.Machine.execRecalibrate s
  | .init => Sys2Proof.Machine.execInit s

end Sys2Proof.Machine
end

