-- ==== Sys2Proof/Machine/HostPort.lean ====
section
/-! DEFINITION. What a turn of the machine is: the host's next action at the pins, or a move of the sequencer (R229).
Here command words are fetched: a CMD write is decoded and run (R201). -/

namespace Sys2Proof.Machine

/-- A host write of a command word (R22): while BUSY = 1 it is ignored and sets WR_OVR, while idle it is accepted,
decoded and run (R201). -/
def writeCommand (w : Word) (s : State) : Out :=
  if s.busy then .next (noteOverrun s)
  else
    match decode w with
    | .command i => exec i s
    | .reservedBits | .unknownOpcode => refuseIllegal w s

/-- `MemWrite(off, 4, v)` at an aligned offset (R60). A reserved offset ignores it (D5). -/
def hostWrite (off : BitVec 8) (v : Word) (s : State) : Out :=
  match regAt off with
  | some .cmd => writeCommand v s
  | some r => .next (writeReg r v s)
  | none => .next s

/-- A host read: it changes no register (R61); the word returned is recorded. -/
def observe (off : BitVec 8) (s : State) : State := { s with observed := s.observed ++ [hostRead off s] }

/-- One turn of WAIT: its RD STATUS, a host read like any other, "until bit 0 (BUSY) reads 0" (R91, R93). A 1 asks for
another, and the sequencer makes a move before it (log 19). -/
def pollBusy (s : State) : State :=
  { observe RegName.status.offset s with
    hostQueue :=
      if (hostRead RegName.status.offset s).getLsbD 0 then .pause :: .wait :: s.hostQueue else s.hostQueue }

/-- Whether every register word named reads as given (R91). No register word lies at a misaligned offset. -/
def expectHolds (want : List (BitVec 8 × Word)) (s : State) : Bool :=
  want.all (fun p => aligned p.1 && hostRead p.1 s == p.2)

/-- EXPECT: "a check on the state, which is not a host access" (R91); its outcome is recorded. -/
def recordCheck (want : List (BitVec 8 × Word)) (s : State) : State :=
  { s with checks := s.checks ++ [expectHolds want s] }

/-- A turn of the sequencer: a move of the running command, or nothing while idle (R203, R240). -/
def sequencerTurn (s : State) : Out :=
  match s.phase with
  | .idle => .next s
  | .running q => exec q.cmd s

/-- The reset input (R250, R251): every piece of the block's state takes its reset value, a running command is
abandoned, and what lies outside the block (the host's actions to come, the sensor, the records) goes on. -/
def applyReset (s : State) : State :=
  { State.reset with
    hostQueue := s.hostQueue
    observed := s.observed
    checks := s.checks
    sensorQueue := s.sensorQueue
    busTrace := s.busTrace
    draws := s.draws }

/-- A host action that has come to its turn, taken off the queue. A wait for `irq` that is over changes nothing more. -/
def hostTurn (a : HostAction) (s : State) : Out :=
  match a with
  | .read off => if aligned off then .next (observe off s) else .refused (.misalignedHostAccess off)
  | .write off v => if aligned off then hostWrite off v s else .refused (.misalignedHostAccess off)
  | .reset => .next (applyReset s)
  | .pause => sequencerTurn s
  | .wait => .next (pollBusy s)
  | .waitIrq => .next s
  | .expect want => .next (recordCheck want s)

/-- Whether a pending action lets the sequencer move and stays pending: the wait for `irq` while it is 0 (R230). -/
def stillWaiting (a : HostAction) (s : State) : Bool :=
  match a with
  | .waitIrq => !s.irq
  | .read _ | .write _ _ | .wait | .expect _ | .pause | .reset => false

/-- The state with its first pending host action taken off. -/
def popHost (s : State) : State := { s with hostQueue := s.hostQueue.tail }

/-- One turn: the host's next action if it has one and is not waiting, else the sequencer's move (R229, log 3). -/
def takeTurn (s : State) : Out :=
  match s.hostQueue with
  | [] => sequencerTurn s
  | a :: _ => if stillWaiting a s then sequencerTurn s else hostTurn a (popHost s)

/-- A host program made pending after what is pending already (R93). -/
def loadProgram (p : List HostLine) (s : State) : State := { s with hostQueue := s.hostQueue ++ assemble p }

/-- A CMD write of `w` made the host's next action, with the block idle so that it is accepted (log 1). -/
def offerCommand (w : Word) (s : State) : State :=
  { s with phase := .idle, hostQueue := commandAction w :: s.hostQueue }

/-- `k` turns of the sequencer with the host doing nothing, or fewer when the command completes before. -/
def runSequencer : Nat → State → Out
  | 0, s => .next s
  | k + 1, s =>
    match s.phase with
    | .idle => .next s
    | .running _ =>
      match sequencerTurn s with
      | .next t => runSequencer k t
      | .fault r => .fault r
      | .refused r => .refused r

/-- A command from its acceptance on, undisturbed by the host, for at most `k` moves. -/
def perform (k : Nat) (i : Instr) (s : State) : Out :=
  match exec i s with
  | .next t => runSequencer k t
  | .fault r => .fault r
  | .refused r => .refused r

end Sys2Proof.Machine
end

