-- ==== Sys2Proof/Safety.lean ====
section
/-! DEFINITION. The terms claims are written in: the tables of R200, the invariants of the block, the samples a
baseline takes, the source's formula without wraps, and correct rounding. -/

namespace Sys2Proof.Machine

/-! ### The tables of R200 -/

/-- The stage list of a command (R200). -/
def stagesOf : Instr → List Stage
  | .nop => []
  | .configure => [.cfg]
  | .loadCal => [.cal]
  | .readRaw => [.raw]
  | .compensate => [.comp]
  | .sample => [.raw, .comp]
  | .baseline => [.base]
  | .altEval => [.alt]
  | .altitude => [.raw, .comp, .alt]
  | .recalibrate => [.raw, .comp, .rebase]
  | .init => [.cfg, .cal, .base]

/-- The error a command is refused with at acceptance, if any, the checks in the order of R200. -/
def verdict (i : Instr) (s : State) : Option ErrCode :=
  match i with
  | .nop => none
  | .configure => if s.status.cfgDone then some .eseq else none
  | .loadCal => if s.status.cfgDone then none else some .euninit
  | .readRaw => if s.status.calValid then none else some .euninit
  | .compensate => if s.status.calValid ∧ s.status.rawValid then none else some .euninit
  | .sample => if s.status.calValid then none else some .euninit
  | .baseline => if s.baseN = 0 then some .earg else if s.status.calValid then none else some .euninit
  | .altEval => if s.status.resValid ∧ s.status.baseValid then none else some .euninit
  | .altitude => if s.status.calValid ∧ s.status.baseValid then none else some .euninit
  | .recalibrate => if s.status.calValid then none else some .euninit
  | .init => if s.status.cfgDone then some .eseq else if s.baseN = 0 then some .earg else none

/-- The stage a point lies in. -/
def stageOf : Point → Stage
  | .cfgFirst | .cfgSecond | .cfgCommit => .cfg
  | .calRead | .calCommit _ => .cal
  | .rawRead | .rawCommit _ => .raw
  | .compEval | .compCommit _ => .comp
  | .baseEnter | .baseWait _ _ _ _ | .baseRead _ _ _ | .baseEval _ _ _ _ | .baseAdd _ _ _ _ => .base
  | .altEval => .alt
  | .rebase => .rebase

/-! ### The sequencer's invariant -/

/-- What a running command was accepted on and keeps for its whole run (R200, R201). -/
def commandReady (i : Instr) (s : State) : Prop :=
  match i with
  | .nop | .configure => True
  | .loadCal => s.status.cfgDone = true
  | .readRaw | .sample | .recalibrate => s.status.calValid = true
  | .compensate => s.status.calValid = true ∧ s.status.rawValid = true
  | .baseline => s.baseN ≠ 0 ∧ s.status.calValid = true
  | .altEval => s.status.resValid = true ∧ s.status.baseValid = true
  | .altitude => s.status.calValid = true ∧ s.status.baseValid = true
  | .init => s.baseN ≠ 0

/-- What holds whenever a stage runs: its precondition, checked at acceptance or committed by a stage before it
(R205). -/
def stageReady (st : Stage) (s : State) : Prop :=
  match st with
  | .cfg => s.status.cfgDone = false
  | .cal => s.status.cfgDone = true
  | .raw => s.status.calValid = true
  | .comp => s.status.calValid = true ∧ s.status.rawValid = true
  | .base => s.status.calValid = true ∧ s.baseN ≠ 0
  | .alt => s.status.resValid = true ∧ s.status.baseValid = true
  | .rebase => s.status.calValid = true ∧ s.status.resValid = true

/-- The hidden values at a point are what the moves before it left: a buffer has the length that was asked for, a
sample index lies in 1..N (R50, R173). -/
def pointOk (p : Point) (s : State) : Prop :=
  match p with
  | .calCommit b => b.length = 24
  | .rawCommit b => b.length = 6
  | .baseWait _ i _ _ => 1 ≤ i ∧ i ≤ s.baseN.toNat
  | .baseRead i _ _ => 1 ≤ i ∧ i ≤ s.baseN.toNat
  | .baseEval b i _ _ => b.length = 6 ∧ 1 ≤ i ∧ i ≤ s.baseN.toNat
  | .baseAdd _ i _ _ => 1 ≤ i ∧ i ≤ s.baseN.toNat
  | .cfgFirst | .cfgSecond | .cfgCommit | .calRead | .rawRead | .compEval | .compCommit _ | .baseEnter
  | .altEval | .rebase => True

/-- A running command stands in its own stage list, CMD still holds its word, and DONE and ERR are still as its
acceptance left them (R50, R201, R202). -/
def RunningOk (q : Running) (s : State) : Prop :=
  s.cmd = encode q.cmd ∧ s.status.done = false ∧ s.status.err = .ok ∧
    (stagesOf q.cmd)[q.stage]? = some (stageOf q.point) ∧
    commandReady q.cmd s ∧ stageReady (stageOf q.point) s ∧ pointOk q.point s

/-- The sequencer is idle or runs a command consistently. -/
def SequencerOk (s : State) : Prop :=
  match s.phase with
  | .idle => True
  | .running q => RunningOk q s

/-- The validity bits record the order setup, calibration load, sampling (R28): calibration only after
configuration, a result only from a sample and a calibration, a baseline only after calibration. -/
def ValidityOrdered (st : Status) : Prop :=
  (st.calValid = true → st.cfgDone = true) ∧
  (st.resValid = true → st.calValid = true ∧ st.rawValid = true) ∧
  (st.baseValid = true → st.calValid = true)

/-! ### The result registers -/

/-- What every set of results satisfies: the ranges of R135 and R137, T_CENTI computed from T_FINE (R38), the floats
those of the integers (R40, R41), and a zero pressure for the sentinel (R146). -/
def ResultsOk (r : Results) (pinv : Bool) : Prop :=
  -1179648 ≤ sext r.tFine ∧ sext r.tFine ≤ 1179646 ∧
  sext r.tCenti = asr (sext r.tFine * 5 + 128) 8 ∧
  r.tempC = floatTemp (sext r.tCenti) ∧
  r.pressHpa = floatPress (sext r.pQ248) ∧
  (pinv = true → r.pQ248 = 0 ∧ r.pressHpa = 0)

/-- The results waiting at a point are consistent with one another. -/
def pendingOk : Point → Prop
  | .compCommit r => ResultsOk r.res r.pinv
  | .baseAdd r _ _ _ => ResultsOk r.res r.pinv
  | .cfgFirst | .cfgSecond | .cfgCommit | .calRead | .calCommit _ | .rawRead | .rawCommit _ | .compEval | .baseEnter
  | .baseWait _ _ _ _ | .baseRead _ _ _ | .baseEval _ _ _ _ | .altEval | .rebase => True

/-- The result registers are consistent with one another, and so is what waits to be committed. -/
def ReadingOk (s : State) : Prop :=
  ResultsOk s.res s.status.pinv ∧ ∀ q, s.phase = .running q → pendingOk q.point

/-- A running command stands where the sentinel ends it (R224): at a baseline sample that is the sentinel, or in stage
ALT or REBASE with PINV = 1. -/
def hitsSentinel (q : Running) (s : State) : Prop :=
  (∃ r i sumP sumT, q.point = .baseAdd r i sumP sumT ∧ r.pinv = true) ∨
  (q.point = .altEval ∧ s.status.pinv = true) ∨ (q.point = .rebase ∧ s.status.pinv = true)

/-! ### The bus -/

/-- The transactions of R68, at a device address: "the block uses these registers, and no others". -/
def usedTx (dev : BitVec 7) : List BusTx :=
  [.write dev 0xF4 [0x57], .write dev 0xF5 [0x10], .read dev 0x88 24, .read dev 0xF7 6]

/-- The burst read of the raw sample registers (R115). -/
def rawBurst (s : State) : BusTx := .read s.devAddr 0xF7 6

/-- The next `n` raw bursts all answer with 6 bytes: those answers, oldest first, and the state once the
transactions are done. -/
def takeSamples : Nat → State → Option (List (List Byte) × State)
  | 0, s => some ([], s)
  | n + 1, s =>
    match nextAnswer (rawBurst s) s with
    | .data b =>
      if b.length = 6 then
        (takeSamples n (recordTx (rawBurst s) (.data b) s)).map (fun r => (b :: r.1, r.2))
      else none
    | .error | .silent => none

/-- The reading a raw burst stands for (R148, R173). -/
def readingOf (c : Calibration) (b : List Byte) : CompResult := comp (rawTemperature b) (rawPressure b) c

/-- The two sums of R173 over samples in order, from the sums so far; `nan` gives the pattern an addition answers if it
makes a NaN, by a running count. -/
def sumSamples (nan : Nat → F64) (c : Calibration) : Nat → List (List Byte) → F64 × F64 → F64 × F64
  | _, [], acc => acc
  | k, b :: rest, acc =>
    sumSamples nan c (k + 5) rest
      (fadd (nan k) acc.1 (readingOf c b).res.pressHpa, fadd (nan (k + 1)) acc.2 (readingOf c b).res.tempC)

/-! ### The source's formula -/

/-- `t_fine` of R133 over the integers, with no wrap; a right shift is a floor. -/
def exactTFine (rt t1 t2 t3 : Int) : Int :=
  (rt / 2 ^ 3 - t1 * 2) * t2 / 2 ^ 11 + (rt / 2 ^ 4 - t1) ^ 2 / 2 ^ 12 * t3 / 2 ^ 14

/-- `v2` before the division, R138 over the integers, with no wrap. -/
def exactV2 (tFine p4 p5 p6 : Int) : Int :=
  (tFine - 128000) ^ 2 * p6 + (tFine - 128000) * p5 * 2 ^ 17 + p4 * 2 ^ 35

/-- The divisor `v1`, R138 over the integers, with no wrap, in reading C1 (R139). -/
def exactDivisor (tFine p1 p2 p3 : Int) : Int :=
  (2 ^ 47 + ((tFine - 128000) ^ 2 * p3 / 2 ^ 8 + (tFine - 128000) * p2 * 2 ^ 12)) * p1 / 2 ^ 33

/-- The pressure from the quotient on, R138 over the integers, with no wrap. -/
def exactFinish (q p7 p8 p9 : Int) : Int :=
  (q + p9 * (q / 2 ^ 13) * (q / 2 ^ 13) / 2 ^ 25 + p8 * q / 2 ^ 19) / 2 ^ 8 + p7 * 2 ^ 4

/-- The pressure of R138 over the integers, with no wrap; the division truncates (R132). -/
def exactPressure (rp v2 divisor p7 p8 p9 : Int) : Int :=
  exactFinish (Int.tdiv (((1048576 - rp) * 2 ^ 31 - v2) * 3125) divisor) p7 p8 p9

/-! ### Correct rounding -/

/-- `z` is a binary64 number nearest to the exact value `v`: no finite pattern is nearer. -/
def Nearest (z : F64) (v : ℚ) : Prop :=
  fisFinite z = true ∧ ∀ y : F64, fisFinite y = true → |fval z - v| ≤ |fval y - v|

/-- Ties to even: another pattern as near as `z` means that `z` has the even fraction. -/
def TiesEven (z : F64) (v : ℚ) : Prop :=
  ∀ y : F64, fisFinite y = true → fval y ≠ fval z → |fval y - v| = |fval z - v| → z.getLsbD 0 = false

/-- The least magnitude that rounds to an infinity: half a unit past the largest finite number. -/
def overflowBound : ℚ := 2 ^ 1024 - 2 ^ 970

/-- `z` is the exact value `v` rounded to binary64 (R9, D32): a nearest number, the even one on a tie, and from
`overflowBound` on the infinity of its sign. -/
def Rounds (z : F64) (v : ℚ) : Prop :=
  (|v| < overflowBound → Nearest z v ∧ TiesEven z v) ∧
  (overflowBound ≤ v → z = finf false) ∧ (v ≤ -overflowBound → z = finf true)

/-- The number a decimal is (R91). -/
def decimalValue (d : Decimal) : ℚ := (if d.neg then -1 else 1) * (d.digits : ℚ) * (10 : ℚ) ^ d.exponent

/-- `x` > 0 and `x` < 0, the infinities included. -/
def fPositive (x : F64) : Bool := !fisNaN x && !fisZero x && !fsignBit x
def fNegative (x : F64) : Bool := !fisNaN x && !fisZero x && fsignBit x

/-! ### Delays -/

/-- A state with its delays forgotten: the two delay registers and a running delay counter. -/
def forgetDelays (s : State) : State :=
  { s with
    settleMs := 0
    intervalMs := 0
    phase :=
      match s.phase with
      | .running ⟨c, k, .baseWait _ i sumP sumT⟩ => .running ⟨c, k, .baseWait 0 i sumP sumT⟩
      | p => p }

end Sys2Proof.Machine
end

