-- ==== Sys2Proof/Certificates/Slice0/Obligations.lean ====
section
/-! DEFINITION. The statements for the provers, in the order of the spec: encoding, host port, sequencing, invariants,
the pipeline, the float unit, then one statement per command with what it completes with. -/

section

open Sys2Proof Sys2Proof.Machine

/-! ### Encoding -/

/-- R81: the words of the opcode map, and four illegal ones. -/
def Obligations.WordsOfTheOpcodeMapDecode : Prop :=
  decode 0x00000000 = .command .nop ∧ decode 0x00000001 = .command .configure ∧
  decode 0x00000002 = .command .loadCal ∧ decode 0x00000003 = .command .readRaw ∧
  decode 0x00000004 = .command .compensate ∧ decode 0x00000005 = .command .sample ∧
  decode 0x00000006 = .command .baseline ∧ decode 0x00000007 = .command .altEval ∧
  decode 0x00000008 = .command .altitude ∧ decode 0x00000009 = .command .recalibrate ∧
  decode 0x0000000A = .command .init ∧
  decode 0x0000000B = .unknownOpcode ∧ decode 0x000000FF = .unknownOpcode ∧
  decode 0x00000100 = .reservedBits ∧ decode 0x80000005 = .reservedBits

/-- R84, with R81's opcodes: which words decode to which command, and why every other word is illegal. -/
def Obligations.DecodeAndEncodeAgree : Prop :=
  ∀ w : Word,
    (∀ i : Instr, decode w = .command i ↔ w = encode i) ∧
    (∀ i : Instr, w = encode i ↔ w.extractLsb' 8 24 = 0 ∧ w.extractLsb' 0 8 = i.opcode) ∧
    (decode w = .reservedBits ↔ w.extractLsb' 8 24 ≠ 0) ∧
    (decode w = .unknownOpcode ↔ w.extractLsb' 8 24 = 0 ∧ ∀ i : Instr, w.extractLsb' 0 8 ≠ i.opcode) ∧
    (∀ i : Instr, decodeTableWord 32 w.toNat = some i ↔ decode w = .command i)

/-- R90 to R93: the host actions of program lines. `.wait` is the loop of STATUS reads, `.expect` the check that is no
access; what a turn of each does is in HostReadsChangeNothing. A binary64 literal stands for its decimal rounded. That each of the
two is an action of its own, and what a decimal past the range is, are log 19. -/
def Obligations.ProgramLinesAreHostAccesses : Prop :=
  (∀ (i : Instr) (rest : List HostLine), assemble (.run i :: rest) = .write 0x00 (encode i) :: .wait :: assemble rest) ∧
  (∀ (i : Instr) (rest : List HostLine), assemble (.command i :: rest) = .write 0x00 (encode i) :: assemble rest) ∧
  (∀ rest : List HostLine, assemble (.clear :: rest) = .write 0x04 0x00000302 :: assemble rest) ∧
  (∀ (v : Value64) (rest : List HostLine), assemble (.wr64 .recalAlt v :: rest) =
    .write 0x60 (v.pattern.extractLsb' 0 32) :: .write 0x64 (v.pattern.extractLsb' 32 32) :: assemble rest) ∧
  (∀ (r : PairName) (v : Value64) (rest : List HostLine), assemble (.wr64 r v :: rest) =
    assemble (.wr r.lo (v.pattern.extractLsb' 0 32) :: .wr r.hi (v.pattern.extractLsb' 32 32) :: rest)) ∧
  (∀ v : BitVec 64, (Value64.bits v).pattern = v) ∧
  (∀ d : Decimal, Rounds (Value64.f64 d).pattern (decimalValue d)) ∧
  (∀ (r : RegName) (v : Word) (rest : List HostLine), assemble (.wr r v :: rest) = .write r.offset v :: assemble rest) ∧
  (∀ (r : RegName) (rest : List HostLine), assemble (.rd r :: rest) = .read r.offset :: assemble rest) ∧
  (∀ (w : Word) (rest : List HostLine), assemble (.commandWord w :: rest) = .write 0x00 w :: assemble rest) ∧
  (∀ rest : List HostLine, assemble (.wait :: rest) = .wait :: assemble rest) ∧
  (∀ (r : RegName) (v : Word) (rest : List HostLine),
    assemble (.expect r v :: rest) = .expect [(r.offset, v)] :: assemble rest) ∧
  (∀ (r : PairName) (v : Value64) (rest : List HostLine), assemble (.expect64 r v :: rest) =
    .expect [(r.lo.offset, v.pattern.extractLsb' 0 32), (r.hi.offset, v.pattern.extractLsb' 32 32)] :: assemble rest)

/-! ### A step -/

/-- R201, R75: a CMD write that meets an idle block runs the command its word decodes to; `withFetchWord` places such a
write. -/
def Obligations.StepRunsTheWrittenCommand : Prop :=
  (∀ (s : State) (w : Word) (i : Instr) (rest : List HostAction), s.phase = .idle → decode w = .command i →
    s.hostQueue = .write 0x00 w :: rest → step s = exec i { s with hostQueue := rest }) ∧
  (∀ (s : State) (w : Word) (i : Instr), decode w = .command i →
    step (s.withFetchWord 32 w.toNat) = exec i { s with phase := .idle })

/-- R203, R229, R91, R240: when the host does nothing, pauses or waits for irq, the running command makes its move, and
so it does after a poll of WAIT that read BUSY = 1; an idle block with nothing to do stays as it is. The turn order is
the model's (logs 3, 19). -/
def Obligations.StepMovesTheRunningCommand : Prop :=
  (∀ (s : State) (q : Running), s.phase = .running q →
    (s.hostQueue = [] → step s = exec q.cmd s) ∧
    (∀ rest, s.hostQueue = .pause :: rest → step s = exec q.cmd { s with hostQueue := rest }) ∧
    (∀ rest, s.hostQueue = .wait :: rest → ∃ u, step s = .next u ∧
      step u = exec q.cmd { s with hostQueue := .wait :: rest, observed := s.observed ++ [hostRead 0x04 s] }) ∧
    (∀ rest, s.hostQueue = .waitIrq :: rest → s.irq = false → step s = exec q.cmd s)) ∧
  (∀ s : State, s.phase = .idle →
    (s.hostQueue = [] → step s = .next s) ∧
    (∀ rest, s.hostQueue = .pause :: rest → step s = .next { s with hostQueue := rest }))

/-- R60, K18: the only states without a step of the model are those where the host's next action is a misaligned access
(log 16); no step faults (R231). A command whose sensor is silent has a step here, one in which the block stays as it is:
that is the model's reading of K7's "stuck" (log 5). -/
def Obligations.OnlyMisalignedAccessesHaveNoStep : Prop :=
  ∀ s : State,
    (∀ r, step s ≠ .fault r) ∧
    (∀ r, step s = .refused r ↔
      ∃ off rest, r = .misalignedHostAccess off ∧ off.extractLsb' 0 2 ≠ 0 ∧
        (s.hostQueue = .read off :: rest ∨ ∃ v, s.hostQueue = .write off v :: rest))

/-- Every command answers in every state, while idle and at every move of a running one (R203, R231). Two of its cases are
the model's: with a silent sensor, which K7 calls stuck, the answer is the state as it is (log 5), and in a state that runs
another command exec is that one's move, read against the stage list of `i` (log 11); no step asks for it. -/
def Obligations.EveryCommandAnswers : Prop :=
  ∀ (i : Instr) (s : State), ∃ t, exec i s = .next t

/-! ### Reset -/

/-- R250, R251: what the reset input leaves, every host-visible word of it. That the bus history and the sensor's script
stay is the model's reading of an abandoned transaction (K22, log 15). -/
def Obligations.ResetInputRestoresTheBlock : Prop :=
  ∀ (s : State) (rest : List HostAction), s.hostQueue = .reset :: rest →
    ∃ t, step s = .next t ∧ t.phase = .idle ∧ t.irq = false ∧
      (∀ off : BitVec 8, hostRead off t =
        if off = 0x0C then 0x76 else if off = 0x10 then 10 else if off = 0x14 then 0x3E8
        else if off = 0x18 then 0x64 else 0) ∧
      t.hostQueue = rest ∧ t.checks = s.checks ∧ t.busTrace = s.busTrace ∧ t.sensorQueue = s.sensorQueue ∧
      { t with hostQueue := [], observed := [], checks := [], sensorQueue := [], busTrace := [], draws := 0 } = State.reset

/-- The invariants below hold at reset. -/
def Obligations.ResetMeetsTheInvariants : Prop :=
  SequencerOk State.reset ∧ ValidityOrdered State.reset.status ∧ ReadingOk State.reset

/-! ### The host port -/

/-- R60, R61, R91, R93: a host read changes no register; the word it returns is recorded, 0 at a reserved offset. A turn of
WAIT is such a read of STATUS, and it goes on, after a turn of the sequencer (log 19), while BUSY reads 1. EXPECT's check
changes nothing but the record of checks, to which its outcome goes (log 14). -/
def Obligations.HostReadsChangeNothing : Prop :=
  (∀ (s : State) (off : BitVec 8) (rest : List HostAction), off.extractLsb' 0 2 = 0 → s.hostQueue = .read off :: rest →
    step s = .next { s with hostQueue := rest, observed := s.observed ++ [hostRead off s] } ∧
    (off = 0x1C ∨ (0x70 ≤ off.toNat ∧ off.toNat ≤ 0x7C) ∨ 0xB0 ≤ off.toNat → hostRead off s = 0)) ∧
  (∀ (s : State) (rest : List HostAction), s.hostQueue = .wait :: rest →
    (hostRead 0x04 s).getLsbD 0 = s.busy ∧
    step s = .next { s with
      observed := s.observed ++ [hostRead 0x04 s]
      hostQueue := if s.busy then .pause :: .wait :: rest else rest }) ∧
  (∀ (s : State) (want : List (BitVec 8 × Word)) (rest : List HostAction), s.hostQueue = .expect want :: rest →
    ∃ holds : Bool, (holds = true ↔ ∀ p ∈ want, p.1.extractLsb' 0 2 = 0 ∧ hostRead p.1 s = p.2) ∧
      step s = .next { s with hostQueue := rest, checks := s.checks ++ [holds] })

/-- R21, D5: at every aligned offset but the eleven writable ones a write is ignored. -/
def Obligations.ReadOnlyAndReservedWritesAreIgnored : Prop :=
  ∀ (s : State) (off : BitVec 8) (v : Word) (rest : List HostAction), off.extractLsb' 0 2 = 0 →
    off ∉ [0x00#8, 0x04, 0x08, 0x0C, 0x10, 0x14, 0x18, 0x20, 0x24, 0x60, 0x64] →
    s.hostQueue = .write off v :: rest → step s = .next { s with hostQueue := rest }

/-- R26. -/
def Obligations.BusyWritesOnlySetWrOvr : Prop :=
  (∀ (s : State) (off : BitVec 8) (v : Word) (rest : List HostAction), s.busy = true →
    off ∈ [0x00#8, 0x0C, 0x10, 0x14, 0x18, 0x20, 0x24, 0x60, 0x64] → s.hostQueue = .write off v :: rest →
    step s = .next { s with hostQueue := rest, status := { s.status with wrOvr := true } }) ∧
  (∀ (s t : State) (off : BitVec 8) (v : Word) (rest : List HostAction), off = 0x04 ∨ off = 0x08 →
    s.hostQueue = .write off v :: rest → step s = .next t → t.status.wrOvr = true → s.status.wrOvr = true)

/-- R23: a host write to STATUS, busy or idle. -/
def Obligations.StatusWriteClearsThreeBits : Prop :=
  ∀ (s : State) (v : Word) (rest : List HostAction), s.hostQueue = .write 0x04 v :: rest →
    step s = .next { s with
      hostQueue := rest
      status := { s.status with
        done := if v.getLsbD 1 then false else s.status.done
        ovf := if v.getLsbD 8 then false else s.status.ovf
        wrOvr := if v.getLsbD 9 then false else s.status.wrOvr } }

/-- R23: where each field of STATUS reads. -/
def Obligations.StatusWordLayout : Prop :=
  ∀ s : State, let w := hostRead 0x04 s
    w.getLsbD 0 = s.busy ∧ w.getLsbD 1 = s.status.done ∧ w.getLsbD 2 = s.status.cfgDone ∧
    w.getLsbD 3 = s.status.calValid ∧ w.getLsbD 4 = s.status.rawValid ∧ w.getLsbD 5 = s.status.resValid ∧
    w.getLsbD 6 = s.status.baseValid ∧ w.getLsbD 7 = s.status.pinv ∧ w.getLsbD 8 = s.status.ovf ∧
    w.getLsbD 9 = s.status.wrOvr ∧ w.extractLsb' 10 2 = 0 ∧ w.extractLsb' 16 16 = 0 ∧
    w.extractLsb' 12 4 = (match s.status.err with
      | .ok => 0 | .ebus => 1 | .euninit => 2 | .einvcomp => 3 | .eillegal => 4 | .earg => 5 | .eseq => 6)

/-- R30. -/
def Obligations.CtrlIsOneBit : Prop :=
  State.reset.ie = false ∧
  (∀ s : State, hostRead 0x08 s = if s.ie then 1 else 0) ∧
  (∀ (s : State) (v : Word) (rest : List HostAction), s.hostQueue = .write 0x08 v :: rest →
    step s = .next { s with hostQueue := rest, ie := v.getLsbD 0 })

/-- R31 to R34: the four configuration registers while idle, and what a read of them shows. -/
def Obligations.ConfigurationRegisters : Prop :=
  ∀ (s : State) (v : Word) (rest : List HostAction), s.phase = .idle →
    (s.hostQueue = .write 0x0C v :: rest → ∃ t, step s = .next t ∧ hostRead 0x0C t = v &&& 0x7F ∧
      t = { s with hostQueue := rest, devAddr := v.extractLsb' 0 7 }) ∧
    (s.hostQueue = .write 0x10 v :: rest → ∃ t, step s = .next t ∧ hostRead 0x10 t = v &&& 0xFF ∧
      t = { s with hostQueue := rest, baseN := v.extractLsb' 0 8 }) ∧
    (s.hostQueue = .write 0x14 v :: rest → ∃ t, step s = .next t ∧ hostRead 0x14 t = v &&& 0xFFFF ∧
      t = { s with hostQueue := rest, settleMs := v.extractLsb' 0 16 }) ∧
    (s.hostQueue = .write 0x18 v :: rest → ∃ t, step s = .next t ∧ hostRead 0x18 t = v &&& 0xFFFF ∧
      t = { s with hostQueue := rest, intervalMs := v.extractLsb' 0 16 })

/-- R35, R36: a host write of a raw sample while idle. -/
def Obligations.RawRegistersSetRawValid : Prop :=
  ∀ (s : State) (v : Word) (rest : List HostAction), s.phase = .idle →
    (s.hostQueue = .write 0x20 v :: rest → ∃ t, step s = .next t ∧ hostRead 0x20 t = v &&& 0xFFFFF ∧
      t = { s with hostQueue := rest, rawP := v.extractLsb' 0 20, status := { s.status with rawValid := true } }) ∧
    (s.hostQueue = .write 0x24 v :: rest → ∃ t, step s = .next t ∧ hostRead 0x24 t = v &&& 0xFFFFF ∧
      t = { s with hostQueue := rest, rawT := v.extractLsb' 0 20, status := { s.status with rawValid := true } })

/-- R45: RECAL_ALT takes its two halves from the host, any pattern, and nothing else writes it. -/
def Obligations.RecalAltIsTheHosts : Prop :=
  State.reset.recalAlt = 0 ∧
  (∀ (s : State) (v : Word) (rest : List HostAction), s.phase = .idle →
    (s.hostQueue = .write 0x60 v :: rest →
      step s = .next { s with hostQueue := rest, recalAlt := s.recalAlt.extractLsb' 32 32 ++ v }) ∧
    (s.hostQueue = .write 0x64 v :: rest →
      step s = .next { s with hostQueue := rest, recalAlt := v ++ s.recalAlt.extractLsb' 0 32 })) ∧
  (∀ s t : State, step s = .next t → t.recalAlt ≠ s.recalAlt →
    ∃ rest, s.hostQueue = .reset :: rest ∨
      (s.busy = false ∧ ∃ v, s.hostQueue = .write 0x60 v :: rest ∨ s.hostQueue = .write 0x64 v :: rest))

/-- R62, R47, R85: the two words of each 64-bit register, and how the coefficients are extended. -/
def Obligations.WideRegistersAndCoefficientsRead : Prop :=
  ∀ s : State,
    hostRead 0x34 s ++ hostRead 0x30 s = s.res.pQ248 ∧ hostRead 0x3C s ++ hostRead 0x38 s = s.res.tempC ∧
    hostRead 0x44 s ++ hostRead 0x40 s = s.res.pressHpa ∧ hostRead 0x4C s ++ hostRead 0x48 s = s.p0 ∧
    hostRead 0x54 s ++ hostRead 0x50 s = s.t0 ∧ hostRead 0x5C s ++ hostRead 0x58 s = s.altOffset ∧
    hostRead 0x64 s ++ hostRead 0x60 s = s.recalAlt ∧ hostRead 0x6C s ++ hostRead 0x68 s = s.altOut ∧
    hostRead 0x00 s = s.cmd ∧ hostRead 0x28 s = s.res.tFine ∧ hostRead 0x2C s = s.res.tCenti ∧
    (hostRead 0x80 s).toNat = s.dig.t1.toNat ∧ (hostRead 0x84 s).toInt = s.dig.t2.toInt ∧
    (hostRead 0x88 s).toInt = s.dig.t3.toInt ∧ (hostRead 0x8C s).toNat = s.dig.p1.toNat ∧
    (hostRead 0x90 s).toInt = s.dig.p2.toInt ∧ (hostRead 0x94 s).toInt = s.dig.p3.toInt ∧
    (hostRead 0x98 s).toInt = s.dig.p4.toInt ∧ (hostRead 0x9C s).toInt = s.dig.p5.toInt ∧
    (hostRead 0xA0 s).toInt = s.dig.p6.toInt ∧ (hostRead 0xA4 s).toInt = s.dig.p7.toInt ∧
    (hostRead 0xA8 s).toInt = s.dig.p8.toInt ∧ (hostRead 0xAC s).toInt = s.dig.p9.toInt

/-! ### Acceptance and completion -/

/-- R201, with the table of R200 as `verdict` and `stagesOf`, and R83: everything a CMD write does. -/
def Obligations.CommandWritesAreAccepted : Prop :=
  ∀ (s : State) (w : Word) (rest : List HostAction), s.hostQueue = .write 0x00 w :: rest →
    (s.busy = true → step s = .next { s with hostQueue := rest, status := { s.status with wrOvr := true } }) ∧
    (s.phase = .idle →
      ((∀ i : Instr, w ≠ encode i) → step s = .next { s with
        hostQueue := rest, cmd := w, status := { s.status with done := true, err := .eillegal } }) ∧
      (∀ i : Instr, w = encode i →
        (∀ e, verdict i s = some e → step s = .next { s with
          hostQueue := rest, cmd := w, status := { s.status with done := true, err := e } }) ∧
        (verdict i s = none →
          (stagesOf i = [] → step s = .next { s with
            hostQueue := rest, cmd := w, status := { s.status with done := true, err := .ok } }) ∧
          (∀ st more, stagesOf i = st :: more → step s = .next { s with
            hostQueue := rest, cmd := w, status := { s.status with done := false, err := .ok }
            phase := .running ⟨i, 0, entryOf st⟩ }))))

/-- R223, R225, R227, R228: when each command is refused at acceptance, with which code; a refused command changes
CMD, DONE and ERR only. -/
def Obligations.RefusalsAtAcceptance : Prop :=
  ∀ (s : State) (i : Instr) (e : ErrCode), s.phase = .idle →
    ((i = .configure ∨ i = .init) ∧ s.status.cfgDone = true ∧ e = .eseq) ∨
    (i = .init ∧ s.status.cfgDone = false ∧ s.baseN = 0 ∧ e = .earg) ∨
    (i = .baseline ∧ s.baseN = 0 ∧ e = .earg) ∨
    (i = .loadCal ∧ s.status.cfgDone = false ∧ e = .euninit) ∨
    ((i = .readRaw ∨ i = .sample ∨ i = .recalibrate) ∧ s.status.calValid = false ∧ e = .euninit) ∨
    (i = .compensate ∧ (s.status.calValid = false ∨ s.status.rawValid = false) ∧ e = .euninit) ∨
    (i = .baseline ∧ s.baseN ≠ 0 ∧ s.status.calValid = false ∧ e = .euninit) ∨
    (i = .altEval ∧ (s.status.resValid = false ∨ s.status.baseValid = false) ∧ e = .euninit) ∨
    (i = .altitude ∧ (s.status.calValid = false ∨ s.status.baseValid = false) ∧ e = .euninit) →
    exec i s = .next { s with cmd := encode i, status := { s.status with done := true, err := e } }

/-- R25: DONE rises with a completion and with every completion, and falls by acceptance, a host write of 1 or reset;
with CTRL.IE it drives `irq` (R230). -/
def Obligations.DoneMarksCompletion : Prop :=
  ∀ s t : State, step s = .next t →
    (t.irq = (t.ie && t.status.done)) ∧
    (s.status.done = false → t.status.done = true → t.phase = .idle ∧
      (s.busy = true ∨ ∃ w rest, s.hostQueue = .write 0x00 w :: rest)) ∧
    (s.busy = true → t.phase = .idle → t.status.done = true ∨ ∃ rest, s.hostQueue = .reset :: rest) ∧
    (s.phase = .idle → ∀ w rest, s.hostQueue = .write 0x00 w :: rest → t.status.done = !t.busy) ∧
    (s.status.done = true → t.status.done = false →
      (s.phase = .idle ∧ ∃ w rest, s.hostQueue = .write 0x00 w :: rest) ∨
      (∃ v rest, v.getLsbD 1 = true ∧ s.hostQueue = .write 0x04 v :: rest) ∨
      ∃ rest, s.hostQueue = .reset :: rest)

/-- R203: inside a stage nothing a host can read changes but OVF, and the bus history. What one move is is the model's
(log 2). -/
def Obligations.NothingVisibleChangesInsideAStage : Prop :=
  ∀ (s t : State) (q : Running) (p : Point), s.phase = .running q → exec q.cmd s = .next t →
    t.phase = .running ⟨q.cmd, q.stage, p⟩ →
    t = { s with
      phase := t.phase, status := { s.status with ovf := t.status.ovf }
      sensorQueue := t.sensorQueue, busTrace := t.busTrace, draws := t.draws } ∧
    (s.status.ovf = true → t.status.ovf = true)

/-- R222: a failed transaction ends the command with EBUS; the stage does not commit and nothing more is issued. -/
def Obligations.BusFailuresEndTheCommand : Prop :=
  ∀ (s : State) (q : Running) (tx : BusTx), s.phase = .running q →
    (q.point = .cfgFirst ∧ tx = .write s.devAddr 0xF4 [0x57]) ∨
    (q.point = .cfgSecond ∧ tx = .write s.devAddr 0xF5 [0x10]) ∨
    (q.point = .calRead ∧ tx = .read s.devAddr 0x88 24) ∨
    (q.point = .rawRead ∧ tx = .read s.devAddr 0xF7 6) ∨
    ((∃ i sp st, q.point = .baseRead i sp st) ∧ tx = .read s.devAddr 0xF7 6) →
    (∀ a : BusResponse, nextAnswer tx s = a →
      (a = .error ∨ ∃ d r n b, tx = .read d r n ∧ a = .data b ∧ b.length ≠ n) →
      exec q.cmd s = .next { s with
        phase := .idle, status := { s.status with done := true, err := .ebus }
        sensorQueue := s.sensorQueue.tail, busTrace := s.busTrace ++ [(tx, a)] })

/-- R224: EINVCOMP is raised where `hitsSentinel` says and nowhere else: by no other move, at no acceptance, by no step;
COMPENSATE and SAMPLE end a sentinel result with OK. -/
def Obligations.SentinelStopsOnlyThreeStages : Prop :=
  (∀ (s : State) (q : Running), s.phase = .running q → hitsSentinel q s →
    exec q.cmd s = .next { s with phase := .idle, status := { s.status with done := true, err := .einvcomp } }) ∧
  (∀ (s t : State) (q : Running), s.phase = .running q → exec q.cmd s = .next t → t.phase = .idle →
    t.status.err = .einvcomp → hitsSentinel q s) ∧
  (∀ (i : Instr) (s t : State), s.phase = .idle → exec i s = .next t → t.status.err ≠ .einvcomp) ∧
  (∀ s t : State, step s = .next t → t.status.err = .einvcomp →
    s.status.err = .einvcomp ∨ ∃ q, s.phase = .running q ∧ hitsSentinel q s) ∧
  (∀ (s : State) (i : Instr) (n : Nat) (r : CompResult), (i = .compensate ∧ n = 0) ∨ (i = .sample ∧ n = 1) →
    s.phase = .running ⟨i, n, .compCommit r⟩ → r.pinv = true →
    exec i s = .next { s with
      phase := .idle, res := r.res
      status := { s.status with done := true, err := .ok, pinv := true, resValid := true } })

/-- R202, R203: the last move of each command that has stages commits its last stage and completes with OK in one step
(one move is the model's, log 2). The whole runs up to it are in the statements of the commands below. -/
def Obligations.LastMoveCommitsAndCompletes : Prop :=
  ∀ s : State, let ok : Status := { s.status with done := true, err := .ok }
    (s.phase = .running ⟨.configure, 0, .cfgCommit⟩ →
      exec .configure s = .next { s with phase := .idle, status := { ok with cfgDone := true } }) ∧
    (∀ b, s.phase = .running ⟨.loadCal, 0, .calCommit b⟩ →
      exec .loadCal s = .next { s with phase := .idle, dig := calDecode b, status := { ok with calValid := true } }) ∧
    (∀ b, s.phase = .running ⟨.readRaw, 0, .rawCommit b⟩ →
      exec .readRaw s = .next { s with
        phase := .idle, rawP := rawPressure b, rawT := rawTemperature b, status := { ok with rawValid := true } }) ∧
    (∀ r i n, (i = .compensate ∧ n = 0) ∨ (i = .sample ∧ n = 1) → s.phase = .running ⟨i, n, .compCommit r⟩ →
      exec i s = .next { s with phase := .idle, res := r.res, status := { ok with pinv := r.pinv, resValid := true } }) ∧
    (∀ r i n k sp st, (i = .baseline ∧ n = 0) ∨ (i = .init ∧ n = 2) →
      s.phase = .running ⟨i, n, .baseAdd r k sp st⟩ → r.pinv = false → s.baseN.toNat ≤ k →
      ∃ (nan : Nat → F64) (d : Nat), (∀ j, fisNaN (nan j) = true) ∧ exec i s = .next { s with
        phase := .idle
        p0 := fdiv (nan 2) (fadd (nan 0) sp r.res.pressHpa) (fofInt (s.baseN.toNat : Int))
        t0 := fadd (nan 4) (fdiv (nan 3) (fadd (nan 1) st r.res.tempC) (fofInt (s.baseN.toNat : Int)))
          0x4071126666666666
        altOffset := 0x0000000000000000, status := { ok with baseValid := true }, draws := d }) ∧
    (∀ i n, (i = .altEval ∧ n = 0) ∨ (i = .altitude ∧ n = 2) → s.phase = .running ⟨i, n, .altEval⟩ →
      s.status.pinv = false → ∃ (nan : Nat → F64) (d : Nat), (∀ j, fisNaN (nan j) = true) ∧ exec i s = .next { s with
        phase := .idle, status := ok, draws := d
        altOut := fadd (nan 4) s.altOffset (fmul (nan 3) (fdiv (nan 2) s.t0 0x3F7A9FBE76C8B439)
          (fsub (nan 1) 0x3FF0000000000000 (pow64 (fdiv (nan 0) s.res.pressHpa s.p0)))) }) ∧
    (s.phase = .running ⟨.recalibrate, 2, .rebase⟩ → s.status.pinv = false →
      ∃ (nan : F64) (d : Nat), fisNaN nan = true ∧ exec .recalibrate s = .next { s with
        phase := .idle, status := { ok with baseValid := true }, draws := d
        p0 := s.res.pressHpa, t0 := fadd nan s.res.tempC 0x4071126666666666, altOffset := s.recalAlt })

/-- Every command accepted by an idle block whose sensor answers ends, in at most 1026 moves, with DONE.
The count of moves is the model's (log 2). -/
def Obligations.EveryCommandCompletes : Prop :=
  ∀ (i : Instr) (s : State), s.phase = .idle → .silent ∉ s.sensorQueue →
    ∃ t, perform 1026 i s = .next t ∧ t.phase = .idle ∧ t.status.done = true ∧ t.cmd = encode i

/-! ### Whole-machine rules -/

/-- R28: a validity bit, once set, stays 1 until reset. -/
def Obligations.ValidityBitsStayUntilReset : Prop :=
  ∀ s t : State, step s = .next t → (∀ rest, s.hostQueue ≠ .reset :: rest) →
    (s.status.cfgDone = true → t.status.cfgDone = true) ∧ (s.status.calValid = true → t.status.calValid = true) ∧
    (s.status.rawValid = true → t.status.rawValid = true) ∧ (s.status.resValid = true → t.status.resValid = true) ∧
    (s.status.baseValid = true → t.status.baseValid = true)

/-- R24: OVF becomes 1 at an evaluation that wraps, whatever becomes of the stage, and falls only by a host write of 1
to bit 8 or by reset. -/
def Obligations.OvfIsSticky : Prop :=
  (∀ (s : State) (q : Running), s.phase = .running q → q.point = .compEval →
    ∃ t, exec q.cmd s = .next t ∧ t.status.ovf = (s.status.ovf || (comp s.rawT s.rawP s.dig).ovf)) ∧
  (∀ (s : State) (q : Running) (b : List Byte) (i : Nat) (sp st : F64), s.phase = .running q →
    q.point = .baseEval b i sp st →
    ∃ t, exec q.cmd s = .next t ∧ t.status.ovf = (s.status.ovf || (readingOf s.dig b).ovf)) ∧
  (∀ s t : State, step s = .next t → s.status.ovf = true → t.status.ovf = false →
    (∃ rest, s.hostQueue = .reset :: rest) ∨ ∃ v rest, v.getLsbD 8 = true ∧ s.hostQueue = .write 0x04 v :: rest) ∧
  (∀ s t : State, step s = .next t → s.status.ovf = false → t.status.ovf = true →
    ∃ q, s.phase = .running q ∧ (q.point = .compEval ∨ ∃ b i sp st, q.point = .baseEval b i sp st))

/-- R67, R68, R71: every transaction is one of the four the block uses, made only while a command runs. That a step makes at
most one is the model's granularity (log 2): R203 lets a whole stage be one step. -/
def Obligations.OnlyTheFourTransactions : Prop :=
  ∀ s t : State, step s = .next t →
    t.busTrace = s.busTrace ∨
    (s.busy = true ∧ ∃ tx a, tx ∈ usedTx s.devAddr ∧ t.busTrace = s.busTrace ++ [(tx, a)])

/-- R50, R201, R205: a running command stands in its stage list with CMD, DONE, ERR as acceptance left them and the
precondition of its stage met; and the validity bits keep the order setup, calibration load, sampling (R28). -/
def Obligations.SequencerStaysConsistent : Prop :=
  ∀ s t : State, SequencerOk s → step s = .next t →
    SequencerOk t ∧ (ValidityOrdered s.status → ValidityOrdered t.status)

/-- R37, R38, R40, R41, R135, R146: the result registers stay consistent with one another: T_FINE in its range, T_CENTI, TEMP_C and
PRESS_HPA what T_FINE, T_CENTI and P_Q248 make them, both pressures 0 when PINV = 1. P_Q248 itself is not bounded. -/
def Obligations.ResultRegistersStayConsistent : Prop :=
  ∀ s t : State, ReadingOk s → step s = .next t → ReadingOk t

/-- R174, R208: two states that differ only in delays answer states that differ only in delays. That a delay is one step is
log 9, that it holds also for exec in a state that runs another command is log 11. -/
def Obligations.DelaysChangeNoValue : Prop :=
  ∀ (i : Instr) (s s' t t' : State), forgetDelays s = forgetDelays s' → exec i s = .next t → exec i s' = .next t' →
    forgetDelays t = forgetDelays t'

/-- R176 (1): a move of stage BASE leaves the sample and result registers, PINV, RES_VALID and RAW_VALID alone; only
its commit changes P0, T0, ALT_OFFSET and BASE_VALID. -/
def Obligations.BaselineLeavesTheReadingAlone : Prop :=
  ∀ (s t : State) (q : Running), s.phase = .running q → stageOf q.point = .base → exec q.cmd s = .next t →
    t.rawP = s.rawP ∧ t.rawT = s.rawT ∧ t.res = s.res ∧ t.altOut = s.altOut ∧ t.dig = s.dig ∧
    t.status.pinv = s.status.pinv ∧ t.status.resValid = s.status.resValid ∧ t.status.rawValid = s.status.rawValid ∧
    t.status.cfgDone = s.status.cfgDone ∧ t.status.calValid = s.status.calValid ∧
    ((t.p0 = s.p0 ∧ t.t0 = s.t0 ∧ t.altOffset = s.altOffset ∧ t.status.baseValid = s.status.baseValid) ∨
      ∃ r i sp st, q.point = .baseAdd r i sp st ∧ r.pinv = false ∧ s.baseN.toNat ≤ i)

/-! ### Decoding what the sensor sends -/

/-- R116: the 20-bit sample as a number; the three terms of R116 do not overlap. -/
def Obligations.RawSampleDecode : Prop :=
  (∀ b0 b1 b2 : Byte,
    (raw20 b0 b1 b2).toNat = b0.toNat * 4096 + b1.toNat * 16 + b2.toNat / 16 ∧ (raw20 b0 b1 b2).toNat ≤ 1048575) ∧
  (∀ b : List Byte, rawPressure b = raw20 (b.getD 0 0) (b.getD 1 0) (b.getD 2 0) ∧
    rawTemperature b = raw20 (b.getD 3 0) (b.getD 4 0) (b.getD 5 0))

/-- R113: the twelve coefficients as numbers, from a 24-byte block. -/
def Obligations.CalibrationDecode : Prop :=
  ∀ b : List Byte, let u := fun k => (b.getD (2 * k) 0).toNat + 256 * (b.getD (2 * k + 1) 0).toNat
    let c := calDecode b
    c.t1.toNat = u 0 ∧ c.t2.toInt = (BitVec.ofNat 16 (u 1)).toInt ∧ c.t3.toInt = (BitVec.ofNat 16 (u 2)).toInt ∧
    c.p1.toNat = u 3 ∧ c.p2.toInt = (BitVec.ofNat 16 (u 4)).toInt ∧ c.p3.toInt = (BitVec.ofNat 16 (u 5)).toInt ∧
    c.p4.toInt = (BitVec.ofNat 16 (u 6)).toInt ∧ c.p5.toInt = (BitVec.ofNat 16 (u 7)).toInt ∧
    c.p6.toInt = (BitVec.ofNat 16 (u 8)).toInt ∧ c.p7.toInt = (BitVec.ofNat 16 (u 9)).toInt ∧
    c.p8.toInt = (BitVec.ofNat 16 (u 10)).toInt ∧ c.p9.toInt = (BitVec.ofNat 16 (u 11)).toInt

/-! ### The compensation pipeline -/

/-- R9: the wraps, the shift and the division of the pipeline as integer functions. -/
def Obligations.WrapShiftAndDivision : Prop :=
  (∀ e v : Int, (-2 ^ 31 ≤ v ∧ v < 2 ^ 31 ∧ (2 ^ 32 : Int) ∣ e - v ↔ v = (w32 e).val) ∧
    ((w32 e).ovf = true ↔ (w32 e).val ≠ e)) ∧
  (∀ e v : Int, (-2 ^ 63 ≤ v ∧ v < 2 ^ 63 ∧ (2 ^ 64 : Int) ∣ e - v ↔ v = (w64 e).val) ∧
    ((w64 e).ovf = true ↔ (w64 e).val ≠ e)) ∧
  (∀ (v : Int) (k : Nat), asr v k = ⌊(v : ℚ) / 2 ^ k⌋) ∧
  (∀ a b : Int, b ≠ 0 →
    (0 ≤ (a : ℚ) / b → truncDiv a b = ⌊(a : ℚ) / b⌋) ∧ ((a : ℚ) / b ≤ 0 → truncDiv a b = ⌈(a : ℚ) / b⌉))

/-- R135, for every sample and coefficient set. -/
def Obligations.TemperaturePathRanges : Prop :=
  (∀ (c : Calibration) (rawT : BitVec 20), let t := tempPathOf c rawT
    (0 ≤ asr (zext rawT) 3 ∧ asr (zext rawT) 3 ≤ 131071 ∧ 0 ≤ zext c.t1 * 2 ∧ zext c.t1 * 2 ≤ 131070 ∧
      t.a1.ovf = false ∧ t.a1.val = asr (zext rawT) 3 - zext c.t1 * 2) ∧
    |t.a1.val * sext c.t2| ≤ 131071 * 32768 ∧
    (t.d.ovf = false ∧ -65535 ≤ t.d.val ∧ t.d.val ≤ 65535) ∧
    (t.s.ovf = true ↔ 46341 ≤ |t.d.val|) ∧
    |t.s.val * sext c.t3| ≤ 2 ^ 19 * 2 ^ 15 ∧
    (-2 ^ 20 ≤ t.var1.val ∧ t.var1.val ≤ 2 ^ 20 - 1) ∧ (-2 ^ 17 ≤ t.var2.val ∧ t.var2.val ≤ 2 ^ 17 - 1) ∧
    t.tFine.ovf = false ∧ -1179648 ≤ t.tFine.val ∧ t.tFine.val ≤ 1179646 ∧ t.tCenti.ovf = false) ∧
  (∃ (c : Calibration) (rawT : BitVec 20), (tempPathOf c rawT).var1.ovf = true) ∧
  (∃ (c : Calibration) (rawT : BitVec 20), (tempPathOf c rawT).s.ovf = true) ∧
  (∃ (c : Calibration) (rawT : BitVec 20), (tempPathOf c rawT).var2.ovf = true)

/-- R137: T_CENTI, its range, and that its shift rounds toward minus infinity. -/
def Obligations.TemperatureInHundredths : Prop :=
  (∀ (rawT rawP : BitVec 20) (c : Calibration), let r := (comp rawT rawP c).res
    sext r.tCenti = ⌊((sext r.tFine * 5 + 128 : Int) : ℚ) / 256⌋ ∧ -23040 ≤ sext r.tCenti ∧ sext r.tCenti ≤ 23040) ∧
  (stepT7 (-25)).val = 0 ∧ (stepT7 (-26)).val = -1 ∧ (stepT7 128422).val = 2508 ∧
  (∀ (s : State) (i : Instr) (n : Nat) (r : CompResult), s.phase = .running ⟨i, n, .compCommit r⟩ →
    ∃ t, exec i s = .next t ∧ hostRead 0x2C t = r.res.tCenti)

/-- R140, the points without an "about": what cannot wrap on the pressure path. -/
def Obligations.PressurePathRanges : Prop :=
  (∀ (c : Calibration) (rawT rawP : BitVec 20),
    let f := pressFrontOf c (tempPathOf c rawT).tFine.val
    let b := pressBackOf c rawP f
    f.v1.ovf = false ∧ -1307648 ≤ f.v1.val ∧ f.v1.val ≤ 1051646 ∧
    f.a2.ovf = false ∧ f.a3.ovf = false ∧ f.v2.ovf = false ∧ |f.v2.val| < 2 ^ 56 ∧ f.a5.ovf = false ∧
    b.p8.ovf = false ∧ 1 ≤ b.p8.val ∧ b.p8.val ≤ 1048576 ∧
    (f.divisor.val ≠ 0 → b.num.val ≠ -2 ^ 63 ∧ b.quot.ovf = false)) ∧
  (∃ (c : Calibration) (rawT : BitVec 20), (pressFrontOf c (tempPathOf c rawT).tFine.val).divisor.ovf = true) ∧
  (∃ (c : Calibration) (rawT rawP : BitVec 20),
    (pressBackOf c rawP (pressFrontOf c (tempPathOf c rawT).tFine.val)).num.ovf = true)

/-- R132: the one division truncates toward zero, its divisor is never 0, and its one wrap. -/
def Obligations.DivisionTruncates : Prop :=
  (∀ num v : Int, v ≠ 0 → ∃ q r : Int, num = q * v + r ∧ |r| < |v| ∧ (0 ≤ num → 0 ≤ r) ∧ (num ≤ 0 → r ≤ 0) ∧
    stepP10 num v = w64 q) ∧
  (∀ (rawT rawP : BitVec 20) (c : Calibration),
    let f := pressFrontOf c (tempPathOf c rawT).tFine.val
    comp rawT rawP c = (if f.divisor.val = 0 then sentinelResult (tempPathOf c rawT) f
      else pressureResult (tempPathOf c rawT) f (pressBackOf c rawP f)) ∧
    (pressBackOf c rawP f).quot = stepP10 (pressBackOf c rawP f).num.val f.divisor.val) ∧
  stepP10 (-2 ^ 63) (-1) = ⟨-2 ^ 63, true⟩ ∧
  (stepP10 7 2).val = 3 ∧ (stepP10 (-7) 2).val = -3 ∧ (stepP10 7 (-2)).val = -3 ∧ (stepP10 (-7) (-2)).val = 3

/-- R146: when the pressure result is the sentinel, and what it holds. -/
def Obligations.SentinelExactly : Prop :=
  ∀ (rawT rawP : BitVec 20) (c : Calibration),
    let t := tempPathOf c rawT
    let f := pressFrontOf c t.tFine.val
    let r := comp rawT rawP c
    let product := (w64 ((2 ^ 47 + f.a5.val) * zext c.p1)).val
    (r.pinv = true ↔ f.divisor.val = 0) ∧ (r.pinv = true ↔ 0 ≤ product ∧ product < 2 ^ 33) ∧
    (r.pinv = true → r.res.pQ248 = 0 ∧ r.res.pressHpa = 0) ∧
    sext r.res.tFine = t.tFine.val ∧ sext r.res.tCenti = t.tCenti.val ∧
    (c.p1 = 0 → r.pinv = true)

/-- R147: the float stage, correctly rounded, with +0.0 and never -0.0. -/
def Obligations.FloatStageIsCorrectlyRounded : Prop :=
  ∀ (rawT rawP : BitVec 20) (c : Calibration),
    let r := comp rawT rawP c
    let tc := sext r.res.tCenti
    let p := sext r.res.pQ248
    fval (fofInt tc) = (tc : ℚ) ∧ Nearest r.res.tempC ((tc : ℚ) / 100) ∧ TiesEven r.res.tempC ((tc : ℚ) / 100) ∧
    Nearest (fofInt p) (p : ℚ) ∧ TiesEven (fofInt p) (p : ℚ) ∧
    (r.pinv = true → r.res.pressHpa = 0) ∧
    (r.pinv = false → Nearest r.res.pressHpa (fval (fofInt p) / 25600) ∧
      TiesEven r.res.pressHpa (fval (fofInt p) / 25600)) ∧
    (r.res.pressHpa = 0 ↔ r.pinv = true ∨ p = 0) ∧
    r.res.tempC ≠ 0x8000000000000000 ∧ r.res.pressHpa ≠ 0x8000000000000000

/-- R133, R138 and R24: a run of the pipeline that wraps nowhere gives the source's formula over the integers. -/
def Obligations.NoOverflowMeansTheExactFormula : Prop :=
  ∀ (rawT rawP : BitVec 20) (c : Calibration),
    let r := comp rawT rawP c
    let tf := exactTFine (zext rawT) (zext c.t1) (sext c.t2) (sext c.t3)
    let v2 := exactV2 tf (sext c.p4) (sext c.p5) (sext c.p6)
    let v1 := exactDivisor tf (zext c.p1) (sext c.p2) (sext c.p3)
    r.ovf = false →
      sext r.res.tFine = tf ∧ (r.pinv = true ↔ v1 = 0) ∧
      (r.pinv = false → sext r.res.pQ248 = exactPressure (zext rawP) v2 v1 (sext c.p7) (sext c.p8) (sext c.p9))

/-! ### The float unit -/

/-- R9, D32, G6: the four binary64 operations on every kind of operand. Finite operands give the exact result rounded;
then the signs of zeros, zero divisors, infinities; a NaN operand gives a NaN, the same whatever pattern is drawn (R208).
The cases of zeros and infinities beyond G6 are log 13, a propagated NaN is log 21. -/
def Obligations.FloatOperationsFollowTheStandard : Prop :=
  ∀ nan a b : F64,
    (fisFinite a = true → fisFinite b = true →
      Rounds (fadd nan a b) (fval a + fval b) ∧ Rounds (fsub nan a b) (fval a - fval b) ∧
      Rounds (fmul nan a b) (fval a * fval b) ∧ (fval b ≠ 0 → Rounds (fdiv nan a b) (fval a / fval b)) ∧
      (fval a + fval b = 0 →
        fadd nan a b = if a = fzero true ∧ b = fzero true then fzero true else fzero false) ∧
      (fval a - fval b = 0 →
        fsub nan a b = if a = fzero true ∧ b = fzero false then fzero true else fzero false) ∧
      fsignBit (fmul nan a b) = (fsignBit a != fsignBit b) ∧
      (fval b ≠ 0 → fsignBit (fdiv nan a b) = (fsignBit a != fsignBit b)) ∧
      (fval b = 0 → fdiv nan a b = if fval a = 0 then nan else finf (fsignBit a != fsignBit b))) ∧
    (∀ s t : Bool, a = finf s → b = finf t →
      fadd nan a b = (if s = t then finf s else nan) ∧ fsub nan a b = (if s = t then nan else finf s) ∧
      fmul nan a b = finf (s != t) ∧ fdiv nan a b = nan) ∧
    (∀ s : Bool, a = finf s → fisFinite b = true →
      fadd nan a b = finf s ∧ fsub nan a b = finf s ∧
      fmul nan a b = (if fval b = 0 then nan else finf (s != fsignBit b)) ∧ fdiv nan a b = finf (s != fsignBit b)) ∧
    (∀ t : Bool, fisFinite a = true → b = finf t →
      fadd nan a b = finf t ∧ fsub nan a b = finf (!t) ∧
      fmul nan a b = (if fval a = 0 then nan else finf (fsignBit a != t)) ∧ fdiv nan a b = fzero (fsignBit a != t)) ∧
    (fisNaN a = true ∨ fisNaN b = true → ∀ op ∈ [fadd, fsub, fmul, fdiv],
      fisNaN (op nan a b) = true ∧ ∀ nan', op nan' a b = op nan a b)

/-- R170: the literals are the binary64 numbers nearest to the source's decimals, and COEFF is evaluated from them. -/
def Obligations.ConstantsAreTheLiterals : Prop :=
  Nearest Config.lapseRate (65 / 10000) ∧ Nearest Config.kelvinZero (27315 / 100) ∧ Nearest Config.one 1 ∧
  Nearest Config.hundred 100 ∧ Nearest Config.pressScale 25600 ∧ Nearest Config.gasConstant (8314 / 1000) ∧
  Nearest Config.gravity (980665 / 100000) ∧ Nearest Config.molarMass (28964 / 1000000) ∧
  Config.lapseRate = 0x3F7A9FBE76C8B439 ∧ Config.kelvinZero = 0x4071126666666666 ∧
  Config.one = 0x3FF0000000000000 ∧ Config.hundred = 0x4059000000000000 ∧ Config.pressScale = 0x40D9000000000000 ∧
  Config.gasConstant = 0x4020A0C49BA5E354 ∧ Config.gravity = 0x40239D013A92A305 ∧
  Config.molarMass = 0x3F9DA8BD230B9DC3 ∧ Config.coeff = 0x3FC85A6452101251 ∧
  (∀ nan : F64, fmul nan Config.gasConstant Config.lapseRate = 0x3FABAB430F49491F ∧
    fmul nan Config.gravity Config.molarMass = 0x3FD22DB550527F89 ∧
    fdiv nan (fmul nan Config.gasConstant Config.lapseRate) (fmul nan Config.gravity Config.molarMass) = Config.coeff)

/-- R171 and the properties of D34; the exponent is the exact value of COEFF. That the ulp is one of the result, which is
finite, is the model's reading of D34 (log 7); the NaN at -inf is R181 (4) (log 8). -/
def Obligations.PowerFunctionProperties : Prop :=
  pow64 Config.one = Config.one ∧ pow64 0x0000000000000000 = 0 ∧ pow64 0x8000000000000000 = 0 ∧
  pow64 0x7FF0000000000000 = 0x7FF0000000000000 ∧
  (∀ x : F64, fisNaN x = true → fisNaN (pow64 x) = true) ∧
  (∀ x : F64, fisFinite x = true → fval x < 0 → fisNaN (pow64 x) = true) ∧
  fisNaN (pow64 0xFFF0000000000000) = true ∧
  (∀ x : F64, fisFinite x = true → 0 < fval x → fisFinite (pow64 x) = true ∧
    |((fval (pow64 x) : ℚ) : ℝ) - ((fval x : ℚ) : ℝ) ^ ((fval Config.coeff : ℚ) : ℝ)| ≤ ((fulp (pow64 x) : ℚ) : ℝ))

/-! ### The commands

Each statement says what exec answers at acceptance, and what the command has done after enough undisturbed moves: the
whole state, so that everything it does not name is unchanged. Where an answer of the sensor is named, it is the one the
next transaction gets. `nan` and `d` are the NaN patterns and their count, which no statement fixes (log 6). In every
one of them the count of moves after which it holds is the model's (log 2): R203 lets a whole stage be one step. -/

/-- R204. -/
def Obligations.NopCompletesAtOnce : Prop :=
  encode .nop = 0x00000000 ∧ (∀ i, decode 0x00000100 ≠ .command i) ∧
  (∀ s : State, s.phase = .idle → exec .nop s = .next { s with
    cmd := 0x00000000, status := { s.status with done := true, err := .ok } })

/-- R110: CONFIGURE, its refusal, its success and its two failures; the counts of moves are the model's (log 2). -/
def Obligations.ConfigureWritesTheSensor : Prop :=
  ∀ s : State, s.phase = .idle →
    let w1 : BusTx := .write s.devAddr 0xF4 [0x57]
    let w2 : BusTx := .write s.devAddr 0xF5 [0x10]
    (s.status.cfgDone = true → exec .configure s = .next { s with
      cmd := 0x00000001, status := { s.status with done := true, err := .eseq } }) ∧
    (s.status.cfgDone = false →
      exec .configure s = .next { s with
        cmd := 0x00000001, status := { s.status with done := false, err := .ok }
        phase := .running ⟨.configure, 0, .cfgFirst⟩ } ∧
      (∀ x1 x2, nextAnswer w1 s = .data x1 → nextAnswer w2 (recordTx w1 (.data x1) s) = .data x2 →
        ∀ k, 3 ≤ k → perform k .configure s = .next { s with
          cmd := 0x00000001, status := { s.status with done := true, err := .ok, cfgDone := true }
          sensorQueue := s.sensorQueue.tail.tail
          busTrace := s.busTrace ++ [(w1, .data x1), (w2, .data x2)] }) ∧
      (nextAnswer w1 s = .error → ∀ k, 1 ≤ k → perform k .configure s = .next { s with
        cmd := 0x00000001, status := { s.status with done := true, err := .ebus }
        sensorQueue := s.sensorQueue.tail, busTrace := s.busTrace ++ [(w1, .error)] }) ∧
      (∀ x1, nextAnswer w1 s = .data x1 → nextAnswer w2 (recordTx w1 (.data x1) s) = .error →
        ∀ k, 2 ≤ k → perform k .configure s = .next { s with
          cmd := 0x00000001, status := { s.status with done := true, err := .ebus }
          sensorQueue := s.sensorQueue.tail.tail
          busTrace := s.busTrace ++ [(w1, .data x1), (w2, .error)] }))

/-- R112: LOAD_CAL; the counts of moves are the model's (log 2). -/
def Obligations.LoadCalReplacesTheCoefficients : Prop :=
  ∀ s : State, s.phase = .idle →
    let tx : BusTx := .read s.devAddr 0x88 24
    (s.status.cfgDone = false → exec .loadCal s = .next { s with
      cmd := 0x00000002, status := { s.status with done := true, err := .euninit } }) ∧
    (s.status.cfgDone = true →
      exec .loadCal s = .next { s with
        cmd := 0x00000002, status := { s.status with done := false, err := .ok }
        phase := .running ⟨.loadCal, 0, .calRead⟩ } ∧
      (∀ b, nextAnswer tx s = .data b → b.length = 24 → ∀ k, 2 ≤ k → perform k .loadCal s = .next { s with
        cmd := 0x00000002, status := { s.status with done := true, err := .ok, calValid := true }
        dig := calDecode b
        sensorQueue := s.sensorQueue.tail, busTrace := s.busTrace ++ [(tx, .data b)] }) ∧
      (∀ a, nextAnswer tx s = a → (a = .error ∨ ∃ b, a = .data b ∧ b.length ≠ 24) →
        ∀ k, 1 ≤ k → perform k .loadCal s = .next { s with
          cmd := 0x00000002, status := { s.status with done := true, err := .ebus }
          sensorQueue := s.sensorQueue.tail, busTrace := s.busTrace ++ [(tx, a)] }))

/-- R115: READ_RAW; the counts of moves are the model's (log 2). -/
def Obligations.ReadRawTakesOneBurst : Prop :=
  ∀ s : State, s.phase = .idle →
    (s.status.calValid = false → exec .readRaw s = .next { s with
      cmd := 0x00000003, status := { s.status with done := true, err := .euninit } }) ∧
    (s.status.calValid = true →
      exec .readRaw s = .next { s with
        cmd := 0x00000003, status := { s.status with done := false, err := .ok }
        phase := .running ⟨.readRaw, 0, .rawRead⟩ } ∧
      (∀ b, nextAnswer (rawBurst s) s = .data b → b.length = 6 → ∀ k, 2 ≤ k → perform k .readRaw s = .next { s with
        cmd := 0x00000003, status := { s.status with done := true, err := .ok, rawValid := true }
        rawP := raw20 (b.getD 0 0) (b.getD 1 0) (b.getD 2 0), rawT := raw20 (b.getD 3 0) (b.getD 4 0) (b.getD 5 0)
        sensorQueue := s.sensorQueue.tail, busTrace := s.busTrace ++ [(rawBurst s, .data b)] }) ∧
      (∀ a, nextAnswer (rawBurst s) s = a → (a = .error ∨ ∃ b, a = .data b ∧ b.length ≠ 6) →
        ∀ k, 1 ≤ k → perform k .readRaw s = .next { s with
          cmd := 0x00000003, status := { s.status with done := true, err := .ebus }
          sensorQueue := s.sensorQueue.tail, busTrace := s.busTrace ++ [(rawBurst s, a)] }))

/-- R151 with R150: COMPENSATE; the count of moves is the model's (log 2). -/
def Obligations.CompensateCommitsThePipeline : Prop :=
  ∀ s : State, s.phase = .idle →
    (s.status.calValid = false ∨ s.status.rawValid = false → exec .compensate s = .next { s with
      cmd := 0x00000004, status := { s.status with done := true, err := .euninit } }) ∧
    (s.status.calValid = true → s.status.rawValid = true →
      let r := comp s.rawT s.rawP s.dig
      exec .compensate s = .next { s with
        cmd := 0x00000004, status := { s.status with done := false, err := .ok }
        phase := .running ⟨.compensate, 0, .compEval⟩ } ∧
      (∀ k, 2 ≤ k → perform k .compensate s = .next { s with
        cmd := 0x00000004, res := r.res
        status := { s.status with
          done := true, err := .ok, resValid := true, pinv := r.pinv, ovf := s.status.ovf || r.ovf } }))

/-- R152: SAMPLE; the counts of moves are the model's (log 2). -/
def Obligations.SampleReadsAndCompensates : Prop :=
  ∀ s : State, s.phase = .idle →
    (s.status.calValid = false → exec .sample s = .next { s with
      cmd := 0x00000005, status := { s.status with done := true, err := .euninit } }) ∧
    (s.status.calValid = true →
      exec .sample s = .next { s with
        cmd := 0x00000005, status := { s.status with done := false, err := .ok }
        phase := .running ⟨.sample, 0, .rawRead⟩ } ∧
      (∀ b, nextAnswer (rawBurst s) s = .data b → b.length = 6 →
        let r := readingOf s.dig b
        ∀ k, 4 ≤ k → perform k .sample s = .next { s with
          cmd := 0x00000005, rawP := rawPressure b, rawT := rawTemperature b, res := r.res
          status := { s.status with
            done := true, err := .ok, rawValid := true, resValid := true, pinv := r.pinv
            ovf := s.status.ovf || r.ovf }
          sensorQueue := s.sensorQueue.tail, busTrace := s.busTrace ++ [(rawBurst s, .data b)] }) ∧
      (∀ a, nextAnswer (rawBurst s) s = a → (a = .error ∨ ∃ b, a = .data b ∧ b.length ≠ 6) →
        ∀ k, 1 ≤ k → perform k .sample s = .next { s with
          cmd := 0x00000005, status := { s.status with done := true, err := .ebus }
          sensorQueue := s.sensorQueue.tail, busTrace := s.busTrace ++ [(rawBurst s, a)] }))

/-- R173, R175: BASELINE over N samples that all answer and none of which is the sentinel; R176 (2): the same when, after
j samples of that kind, the next burst fails or is the sentinel. The counts of moves are the model's (log 2). -/
def Obligations.BaselineAveragesTheSamples : Prop :=
  ∀ s : State, s.phase = .idle →
    (s.baseN = 0 → exec .baseline s = .next { s with
      cmd := 0x00000006, status := { s.status with done := true, err := .earg } }) ∧
    (s.baseN ≠ 0 → s.status.calValid = false → exec .baseline s = .next { s with
      cmd := 0x00000006, status := { s.status with done := true, err := .euninit } }) ∧
    (s.baseN ≠ 0 → s.status.calValid = true →
      exec .baseline s = .next { s with
        cmd := 0x00000006, status := { s.status with done := false, err := .ok }
        phase := .running ⟨.baseline, 0, .baseEnter⟩ } ∧
      (∀ bs u, takeSamples s.baseN.toNat s = some (bs, u) → (∀ b ∈ bs, (readingOf s.dig b).pinv = false) →
        ∀ k, 1 + 4 * s.baseN.toNat ≤ k → ∃ (nan : Nat → F64) (j d : Nat),
          (∀ n, fisNaN (nan n) = true) ∧
          let sums := sumSamples nan s.dig 0 bs (0x0000000000000000, 0x0000000000000000)
          let n := fofInt (s.baseN.toNat : Int)
          perform k .baseline s = .next { s with
            cmd := 0x00000006
            p0 := fdiv (nan j) sums.1 n
            t0 := fadd (nan (j + 2)) (fdiv (nan (j + 1)) sums.2 n) 0x4071126666666666
            altOffset := 0x0000000000000000
            status := { s.status with
              done := true, err := .ok, baseValid := true
              ovf := s.status.ovf || bs.any (fun b => (readingOf s.dig b).ovf) }
            sensorQueue := u.sensorQueue, busTrace := u.busTrace, draws := d }) ∧
      (∀ j bs u, j < s.baseN.toNat → takeSamples j s = some (bs, u) → (∀ b ∈ bs, (readingOf s.dig b).pinv = false) →
        (∀ a, nextAnswer (rawBurst s) u = a → (a = .error ∨ ∃ b, a = .data b ∧ b.length ≠ 6) →
          ∀ k, 3 + 4 * j ≤ k → ∃ d : Nat, perform k .baseline s = .next { s with
            cmd := 0x00000006
            status := { s.status with
              done := true, err := .ebus, ovf := s.status.ovf || bs.any (fun b => (readingOf s.dig b).ovf) }
            sensorQueue := u.sensorQueue.tail, busTrace := u.busTrace ++ [(rawBurst s, a)], draws := d }) ∧
        (∀ b, nextAnswer (rawBurst s) u = .data b → b.length = 6 → (readingOf s.dig b).pinv = true →
          ∀ k, 5 + 4 * j ≤ k → ∃ d : Nat, perform k .baseline s = .next { s with
            cmd := 0x00000006
            status := { s.status with
              done := true, err := .einvcomp
              ovf := s.status.ovf || (bs ++ [b]).any (fun x => (readingOf s.dig x).ovf) }
            sensorQueue := u.sensorQueue.tail, busTrace := u.busTrace ++ [(rawBurst s, .data b)], draws := d })))

/-- R180: ALT_EVAL; that stage ALT is one move is the model's (log 2). -/
def Obligations.AltEvalEvaluatesTheFormula : Prop :=
  ∀ s : State, s.phase = .idle →
    (s.status.resValid = false ∨ s.status.baseValid = false → exec .altEval s = .next { s with
      cmd := 0x00000007, status := { s.status with done := true, err := .euninit } }) ∧
    (s.status.resValid = true → s.status.baseValid = true →
      exec .altEval s = .next { s with
        cmd := 0x00000007, status := { s.status with done := false, err := .ok }
        phase := .running ⟨.altEval, 0, .altEval⟩ } ∧
      (s.status.pinv = true → ∀ k, 1 ≤ k → perform k .altEval s = .next { s with
        cmd := 0x00000007, status := { s.status with done := true, err := .einvcomp } }) ∧
      (s.status.pinv = false → ∀ k, 1 ≤ k → ∃ (nan : Nat → F64) (d : Nat), (∀ n, fisNaN (nan n) = true) ∧
        let r := fdiv (nan 0) s.res.pressHpa s.p0
        let e := pow64 r
        let f := fsub (nan 1) 0x3FF0000000000000 e
        let q := fdiv (nan 2) s.t0 0x3F7A9FBE76C8B439
        perform k .altEval s = .next { s with
          cmd := 0x00000007, altOut := fadd (nan 4) s.altOffset (fmul (nan 3) q f)
          status := { s.status with done := true, err := .ok }, draws := d }))

/-- R182: ALTITUDE, on a fresh sample; the counts of moves are the model's (log 2). -/
def Obligations.AltitudeUsesAFreshSample : Prop :=
  ∀ s : State, s.phase = .idle →
    (s.status.calValid = false ∨ s.status.baseValid = false → exec .altitude s = .next { s with
      cmd := 0x00000008, status := { s.status with done := true, err := .euninit } }) ∧
    (s.status.calValid = true → s.status.baseValid = true →
      exec .altitude s = .next { s with
        cmd := 0x00000008, status := { s.status with done := false, err := .ok }
        phase := .running ⟨.altitude, 0, .rawRead⟩ } ∧
      (∀ a, nextAnswer (rawBurst s) s = a → (a = .error ∨ ∃ b, a = .data b ∧ b.length ≠ 6) →
        ∀ k, 1 ≤ k → perform k .altitude s = .next { s with
          cmd := 0x00000008, status := { s.status with done := true, err := .ebus }
          sensorQueue := s.sensorQueue.tail, busTrace := s.busTrace ++ [(rawBurst s, a)] }) ∧
      (∀ b, nextAnswer (rawBurst s) s = .data b → b.length = 6 →
        let r := readingOf s.dig b
        (r.pinv = true → ∀ k, 5 ≤ k → perform k .altitude s = .next { s with
          cmd := 0x00000008, rawP := rawPressure b, rawT := rawTemperature b, res := r.res
          status := { s.status with
            done := true, err := .einvcomp, rawValid := true, resValid := true, pinv := true
            ovf := s.status.ovf || r.ovf }
          sensorQueue := s.sensorQueue.tail, busTrace := s.busTrace ++ [(rawBurst s, .data b)] }) ∧
        (r.pinv = false → ∀ k, 5 ≤ k → ∃ (nan : Nat → F64) (d : Nat), (∀ n, fisNaN (nan n) = true) ∧
          perform k .altitude s = .next { s with
            cmd := 0x00000008, rawP := rawPressure b, rawT := rawTemperature b, res := r.res
            altOut := fadd (nan 4) s.altOffset (fmul (nan 3) (fdiv (nan 2) s.t0 0x3F7A9FBE76C8B439)
              (fsub (nan 1) 0x3FF0000000000000 (pow64 (fdiv (nan 0) r.res.pressHpa s.p0))))
            status := { s.status with
              done := true, err := .ok, rawValid := true, resValid := true, pinv := false
              ovf := s.status.ovf || r.ovf }
            sensorQueue := s.sensorQueue.tail, busTrace := s.busTrace ++ [(rawBurst s, .data b)], draws := d })))

/-- R185, R186: RECALIBRATE, from a fresh sample; the counts of moves are the model's (log 2). -/
def Obligations.RecalibrateRebasesOnAFreshSample : Prop :=
  ∀ s : State, s.phase = .idle →
    (s.status.calValid = false → exec .recalibrate s = .next { s with
      cmd := 0x00000009, status := { s.status with done := true, err := .euninit } }) ∧
    (s.status.calValid = true →
      exec .recalibrate s = .next { s with
        cmd := 0x00000009, status := { s.status with done := false, err := .ok }
        phase := .running ⟨.recalibrate, 0, .rawRead⟩ } ∧
      (∀ a, nextAnswer (rawBurst s) s = a → (a = .error ∨ ∃ b, a = .data b ∧ b.length ≠ 6) →
        ∀ k, 1 ≤ k → perform k .recalibrate s = .next { s with
          cmd := 0x00000009, status := { s.status with done := true, err := .ebus }
          sensorQueue := s.sensorQueue.tail, busTrace := s.busTrace ++ [(rawBurst s, a)] }) ∧
      (∀ b, nextAnswer (rawBurst s) s = .data b → b.length = 6 →
        let r := readingOf s.dig b
        (r.pinv = true → ∀ k, 5 ≤ k → perform k .recalibrate s = .next { s with
          cmd := 0x00000009, rawP := rawPressure b, rawT := rawTemperature b, res := r.res
          status := { s.status with
            done := true, err := .einvcomp, rawValid := true, resValid := true, pinv := true
            ovf := s.status.ovf || r.ovf }
          sensorQueue := s.sensorQueue.tail, busTrace := s.busTrace ++ [(rawBurst s, .data b)] }) ∧
        (r.pinv = false → ∀ k, 5 ≤ k → ∃ (nan : F64) (d : Nat), fisNaN nan = true ∧
          perform k .recalibrate s = .next { s with
            cmd := 0x00000009, rawP := rawPressure b, rawT := rawTemperature b, res := r.res
            p0 := r.res.pressHpa, t0 := fadd nan r.res.tempC 0x4071126666666666, altOffset := s.recalAlt
            status := { s.status with
              done := true, err := .ok, rawValid := true, resValid := true, pinv := false, baseValid := true
              ovf := s.status.ovf || r.ovf }
            sensorQueue := s.sensorQueue.tail, busTrace := s.busTrace ++ [(rawBurst s, .data b)], draws := d })))

/-- R205: INIT, when both writes, the calibration read and all N samples answer and none is the sentinel, and when the
calibration read fails; the counts of moves are the model's (log 2). -/
def Obligations.InitConfiguresLoadsAndAverages : Prop :=
  ∀ s : State, s.phase = .idle →
    let w1 : BusTx := .write s.devAddr 0xF4 [0x57]
    let w2 : BusTx := .write s.devAddr 0xF5 [0x10]
    let rd : BusTx := .read s.devAddr 0x88 24
    (s.status.cfgDone = true → exec .init s = .next { s with
      cmd := 0x0000000A, status := { s.status with done := true, err := .eseq } }) ∧
    (s.status.cfgDone = false → s.baseN = 0 → exec .init s = .next { s with
      cmd := 0x0000000A, status := { s.status with done := true, err := .earg } }) ∧
    (s.status.cfgDone = false → s.baseN ≠ 0 →
      exec .init s = .next { s with
        cmd := 0x0000000A, status := { s.status with done := false, err := .ok }
        phase := .running ⟨.init, 0, .cfgFirst⟩ } ∧
      (∀ x1 x2 cal bs u, nextAnswer w1 s = .data x1 → nextAnswer w2 (recordTx w1 (.data x1) s) = .data x2 →
        let s2 := recordTx w2 (.data x2) (recordTx w1 (.data x1) s)
        nextAnswer rd s2 = .data cal → cal.length = 24 →
        takeSamples s.baseN.toNat (recordTx rd (.data cal) s2) = some (bs, u) →
        (∀ b ∈ bs, (readingOf (calDecode cal) b).pinv = false) →
        ∀ k, 6 + 4 * s.baseN.toNat ≤ k → ∃ (nan : Nat → F64) (j d : Nat),
          (∀ n, fisNaN (nan n) = true) ∧
          let sums := sumSamples nan (calDecode cal) 0 bs (0x0000000000000000, 0x0000000000000000)
          let n := fofInt (s.baseN.toNat : Int)
          perform k .init s = .next { s with
            cmd := 0x0000000A
            dig := calDecode cal
            p0 := fdiv (nan j) sums.1 n
            t0 := fadd (nan (j + 2)) (fdiv (nan (j + 1)) sums.2 n) 0x4071126666666666
            altOffset := 0x0000000000000000
            status := { s.status with
              done := true, err := .ok, cfgDone := true, calValid := true, baseValid := true
              ovf := s.status.ovf || bs.any (fun b => (readingOf (calDecode cal) b).ovf) }
            sensorQueue := u.sensorQueue, busTrace := u.busTrace, draws := d }) ∧
      (∀ x1 x2 a, nextAnswer w1 s = .data x1 → nextAnswer w2 (recordTx w1 (.data x1) s) = .data x2 →
        let s2 := recordTx w2 (.data x2) (recordTx w1 (.data x1) s)
        nextAnswer rd s2 = a → (a = .error ∨ ∃ b, a = .data b ∧ b.length ≠ 24) →
        ∀ k, 4 ≤ k → perform k .init s = .next { s with
          cmd := 0x0000000A, status := { s.status with done := true, err := .ebus, cfgDone := true }
          sensorQueue := s.sensorQueue.tail.tail.tail
          busTrace := s.busTrace ++ [(w1, .data x1), (w2, .data x2), (rd, a)] }))

/-! ### Corner cases of the altitude -/

/-- R181 (1) to (5), `q` being T0 /. 0.0065: the reference pressure; P0 = +0.0; both pressures zero; a negative ratio, -inf
(a negative pressure over P0 = +0.0) included; a NaN ALT_OFFSET. In (4) no pattern is drawn (R208). The NaNs are logs 13
and 21, pow64 at -inf is log 8. -/
def Obligations.AltitudeCornerCases : Prop :=
  ∀ (nan : Nat → F64) (p p0 t0 off : F64), (∀ n, fisNaN (nan n) = true) →
    let q := fdiv (nan 2) t0 Config.lapseRate
    let r := fdiv (nan 0) p p0
    let alt := altitudeFormula nan p p0 t0 off
    (p0 = p → fisFinite p = true → fval p ≠ 0 → fisFinite q = true → fPositive q = true →
      alt = fadd (nan 4) off 0x0000000000000000 ∧
      (fisNaN off = false → alt = if off = 0x8000000000000000 then 0x0000000000000000 else off)) ∧
    (p0 = 0x0000000000000000 → fPositive p = true → fPositive q = true → fisNaN off = false →
      off ≠ 0x7FF0000000000000 → alt = 0xFFF0000000000000) ∧
    (fisZero p0 = true → fisZero p = true → fisNaN alt = true) ∧
    (fNegative r = true → fisNaN alt = true ∧ ∀ nan', altitudeFormula nan' p p0 t0 off = alt) ∧
    (p0 = 0x0000000000000000 → fNegative p = true → fNegative r = true) ∧
    (fisNaN off = true → fisNaN alt = true)

/-- R187: ALT_EVAL right after a successful RECALIBRATE gives RECAL_ALT, +0.0 for -0.0, and a NaN for a NaN (R181 (5)).
The counts of moves are the model's (log 2). -/
def Obligations.RecalibrationProperty : Prop :=
  ∀ (s : State) (b : List Byte), s.phase = .idle → s.status.calValid = true →
    nextAnswer (rawBurst s) s = .data b → b.length = 6 → (readingOf s.dig b).pinv = false →
    (readingOf s.dig b).res.pressHpa ≠ 0 →
    ∃ t u, perform 5 .recalibrate s = .next t ∧ perform 1 .altEval t = .next u ∧
      t.status.err = .ok ∧ u.status.err = .ok ∧
      (fisNaN s.recalAlt = true → fisNaN u.altOut = true) ∧
      (fisNaN s.recalAlt = false →
        u.altOut = if s.recalAlt = 0x8000000000000000 then 0x0000000000000000 else s.recalAlt)

end
end

