-- ==== Sys2Proof/Laws/Compensation.lean ====
section
/-! SUPPORT. The integer laws of the pipeline (R9, R131): what a wrap answers, what a shift answers, the ranges of
extended fields. -/

namespace Sys2Proof.Machine

theorem wrap32_eq (e : Int) : wrapInt 32 e = (e + 2147483648) % 4294967296 - 2147483648 := by
  unfold wrapInt
  rw [Int.bmod_def]
  norm_num
  split <;> omega

theorem wrap64_eq (e : Int) : wrapInt 64 e = (e + 9223372036854775808) % 18446744073709551616 - 9223372036854775808 := by
  unfold wrapInt
  rw [Int.bmod_def]
  norm_num
  split <;> omega

/-- A 32-bit wrap lands in range (R9). -/
theorem w32_range (e : Int) : -2147483648 ≤ (w32 e).val ∧ (w32 e).val < 2147483648 := by
  simp only [w32, wrap32_eq]; omega

/-- A 64-bit wrap lands in range (R9). -/
theorem w64_range (e : Int) : -9223372036854775808 ≤ (w64 e).val ∧ (w64 e).val < 9223372036854775808 := by
  simp only [w64, wrap64_eq]; omega

/-- A value that fits 32 bits is answered unchanged and sets no OVF. -/
theorem w32_fits {e : Int} (h1 : -2147483648 ≤ e) (h2 : e < 2147483648) : w32 e = ⟨e, false⟩ := by
  have : wrapInt 32 e = e := by rw [wrap32_eq]; omega
  simp [w32, this]

/-- A value that fits 64 bits is answered unchanged and sets no OVF. -/
theorem w64_fits {e : Int} (h1 : -9223372036854775808 ≤ e) (h2 : e < 9223372036854775808) : w64 e = ⟨e, false⟩ := by
  have : wrapInt 64 e = e := by rw [wrap64_eq]; omega
  simp [w64, this]

/-- OVF is set exactly when the exact value does not fit 32 bits. -/
theorem w32_ovf (e : Int) : (w32 e).ovf = true ↔ ¬ (-2147483648 ≤ e ∧ e < 2147483648) := by
  simp only [w32, wrap32_eq, bne_iff_ne]; omega

/-- OVF is set exactly when the exact value does not fit 64 bits. -/
theorem w64_ovf (e : Int) : (w64 e).ovf = true ↔ ¬ (-9223372036854775808 ≤ e ∧ e < 9223372036854775808) := by
  simp only [w64, wrap64_eq, bne_iff_ne]; omega

/-- No OVF means no change. -/
theorem w32_exact {e : Int} (h : (w32 e).ovf = false) : (w32 e).val = e := by
  simpa [w32] using h

theorem w64_exact {e : Int} (h : (w64 e).ovf = false) : (w64 e).val = e := by
  simpa [w64] using h

/-- `asr` is the floor of the quotient by a power of two (R9, D24). -/
theorem asr_eq_div (v : Int) (k : Nat) : asr v k = v / 2 ^ k := by
  simp [asr, Int.shiftRight_eq_div_pow]

theorem zext_range {n : Nat} (v : BitVec n) : 0 ≤ zext v ∧ zext v < 2 ^ n := by
  constructor
  · simp [zext]
  · have := v.isLt
    simp only [zext]
    exact_mod_cast this

theorem sext16_range (v : BitVec 16) : -32768 ≤ sext v ∧ sext v ≤ 32767 := by
  have h1 := BitVec.le_toInt v
  have h2 := BitVec.toInt_lt (x := v)
  simp only [sext]
  norm_num at h1 h2
  omega

theorem sext32_range (v : BitVec 32) : -2147483648 ≤ sext v ∧ sext v ≤ 2147483647 := by
  have h1 := BitVec.le_toInt v
  have h2 := BitVec.toInt_lt (x := v)
  simp only [sext]
  norm_num at h1 h2
  omega

theorem sext64_range (v : BitVec 64) : -9223372036854775808 ≤ sext v ∧ sext v ≤ 9223372036854775807 := by
  have h1 := BitVec.le_toInt v
  have h2 := BitVec.toInt_lt (x := v)
  simp only [sext]
  norm_num at h1 h2
  omega

/-- A register holds a value of its range unchanged. -/
theorem sext_ofInt32 {e : Int} (h1 : -2147483648 ≤ e) (h2 : e < 2147483648) : sext (BitVec.ofInt 32 e) = e := by
  simp only [sext, BitVec.toInt_ofInt]
  rw [show Int.bmod e (2 ^ 32) = wrapInt 32 e from rfl, wrap32_eq]
  omega

theorem sext_ofInt64 {e : Int} (h1 : -9223372036854775808 ≤ e) (h2 : e < 9223372036854775808) :
    sext (BitVec.ofInt 64 e) = e := by
  simp only [sext, BitVec.toInt_ofInt]
  rw [show Int.bmod e (2 ^ 64) = wrapInt 64 e from rfl, wrap64_eq]
  omega

/-- Everything the pipeline can answer: the sentinel when the divisor is 0, the computed pressure when not (R146). -/
theorem comp_cases (rawT rawP : BitVec 20) (c : Calibration) :
    ((pressFrontOf c (tempPathOf c rawT).tFine.val).divisor.val = 0 ∧
      comp rawT rawP c = sentinelResult (tempPathOf c rawT) (pressFrontOf c (tempPathOf c rawT).tFine.val)) ∨
    ((pressFrontOf c (tempPathOf c rawT).tFine.val).divisor.val ≠ 0 ∧
      comp rawT rawP c = pressureResult (tempPathOf c rawT) (pressFrontOf c (tempPathOf c rawT).tFine.val)
        (pressBackOf c rawP (pressFrontOf c (tempPathOf c rawT).tFine.val))) := by
  unfold comp finishComp
  split
  · exact .inl ⟨‹_›, rfl⟩
  · exact .inr ⟨‹_›, rfl⟩

/-! ### The temperature steps -/

theorem stepT1_eq {rt t1 : Int} (h0 : 0 ≤ rt) (h1 : rt < 1048576) (h2 : 0 ≤ t1) (h3 : t1 < 65536) :
    stepT1 rt t1 = ⟨rt / 8 - t1 * 2, false⟩ := by
  rw [stepT1, w32_fits (e := t1 * 2) (by omega) (by omega), asr_eq_div]
  simp only []
  rw [w32_fits (by omega) (by omega)]
  rfl

theorem stepT3_eq {rt t1 : Int} (h0 : 0 ≤ rt) (h1 : rt < 1048576) (h2 : 0 ≤ t1) (h3 : t1 < 65536) :
    stepT3 rt t1 = ⟨rt / 16 - t1, false⟩ := by
  rw [stepT3, asr_eq_div, w32_fits (by omega) (by omega)]
  rfl

theorem stepT2_range (a t : Int) : -1048576 ≤ (stepT2 a t).val ∧ (stepT2 a t).val ≤ 1048575 := by
  have h := w32_range (a * t)
  simp only [stepT2, asr_eq_div]
  generalize (w32 (a * t)).val = v at h ⊢
  omega

theorem stepT4_range (d : Int) : -524288 ≤ (stepT4 d).val ∧ (stepT4 d).val ≤ 524287 := by
  have h := w32_range (d * d)
  simp only [stepT4, asr_eq_div]
  generalize (w32 (d * d)).val = v at h ⊢
  omega

theorem stepT5_range (a t : Int) : -131072 ≤ (stepT5 a t).val ∧ (stepT5 a t).val ≤ 131071 := by
  have h := w32_range (a * t)
  simp only [stepT5, asr_eq_div]
  generalize (w32 (a * t)).val = v at h ⊢
  omega

theorem stepT6_eq {a b : Int} (h1 : -1048576 ≤ a) (h2 : a ≤ 1048575) (h3 : -131072 ≤ b) (h4 : b ≤ 131071) :
    stepT6 a b = ⟨a + b, false⟩ := by
  rw [stepT6, w32_fits (by omega) (by omega)]

theorem stepT7_eq {f : Int} (h1 : -1179648 ≤ f) (h2 : f ≤ 1179646) : stepT7 f = ⟨(f * 5 + 128) / 256, false⟩ := by
  rw [stepT7, w32_fits (e := f * 5) (by omega) (by omega)]
  simp only []
  rw [w32_fits (by omega) (by omega), asr_eq_div]
  rfl

/-- The last two temperature steps on the registers: T_FINE is in range, and T_CENTI is computed from it without a
wrap (R135, R137). -/
theorem tempPathOf_fine (c : Calibration) (rawT : BitVec 20) :
    ∃ f : Int, -1179648 ≤ f ∧ f ≤ 1179646 ∧ (tempPathOf c rawT).tFine = ⟨f, false⟩ ∧
      (tempPathOf c rawT).tCenti = ⟨(f * 5 + 128) / 256, false⟩ := by
  have e1 := stepT2_range (tempPathOf c rawT).a1.val (sext c.t2)
  have e2 := stepT5_range (tempPathOf c rawT).s.val (sext c.t3)
  have e3 := stepT6_eq e1.1 e1.2 e2.1 e2.2
  have hf : (tempPathOf c rawT).tFine = stepT6 (stepT2 (tempPathOf c rawT).a1.val (sext c.t2)).val
      (stepT5 (tempPathOf c rawT).s.val (sext c.t3)).val := rfl
  have hc : (tempPathOf c rawT).tCenti = stepT7 (tempPathOf c rawT).tFine.val := rfl
  rw [e3] at hf
  generalize (stepT2 (tempPathOf c rawT).a1.val (sext c.t2)).val = v1 at *
  generalize (stepT5 (tempPathOf c rawT).s.val (sext c.t3)).val = v2 at *
  refine ⟨v1 + v2, by omega, by omega, hf, ?_⟩
  rw [hc, hf]
  exact stepT7_eq (f := v1 + v2) (by omega) (by omega)

/-- The temperature registers hold the path's results (R146). -/
theorem comp_temperature (rawT rawP : BitVec 20) (c : Calibration) :
    (comp rawT rawP c).res.tFine = BitVec.ofInt 32 (tempPathOf c rawT).tFine.val ∧
    (comp rawT rawP c).res.tCenti = BitVec.ofInt 32 (tempPathOf c rawT).tCenti.val ∧
    (comp rawT rawP c).res.tempC = floatTemp (tempPathOf c rawT).tCenti.val := by
  obtain ⟨-, e⟩ | ⟨-, e⟩ := comp_cases rawT rawP c <;> rw [e] <;> exact ⟨rfl, rfl, rfl⟩

/-! ### The pressure steps -/

/-- A product with a 16-bit factor. -/
theorem mul_sext_bound {x y B : Int} (hx : |x| ≤ B) (h1 : -32768 ≤ y) (h2 : y ≤ 32767) :
    -(B * 32768) ≤ x * y ∧ x * y ≤ B * 32768 := by
  rw [← abs_le, abs_mul]
  exact mul_le_mul hx (by rw [abs_le]; constructor <;> omega) (abs_nonneg _) (le_trans (abs_nonneg _) hx)

theorem stepP1_eq {f : Int} (h1 : -1179648 ≤ f) (h2 : f ≤ 1179646) : stepP1 f = ⟨f - 128000, false⟩ := by
  rw [stepP1, w64_fits (by omega) (by omega)]

theorem square_bound {v : Int} (h : |v| ≤ 1307648) : |v * v| ≤ 1709943291904 := by
  rw [abs_mul]
  calc |v| * |v| ≤ 1307648 * 1307648 := mul_le_mul h h (abs_nonneg _) (by norm_num)
    _ = 1709943291904 := by norm_num

theorem stepP2_eq {v p6 : Int} (h : |v| ≤ 1307648) (h1 : -32768 ≤ p6) (h2 : p6 ≤ 32767) :
    stepP2 v p6 = ⟨v * v * p6, false⟩ ∧ |v * v * p6| ≤ 56031421789110272 := by
  have s := square_bound h
  have b := mul_sext_bound s h1 h2
  rw [stepP2]
  generalize v * v = q at *
  rw [abs_le] at s
  rw [w64_fits (e := q) (by omega) (by omega)]
  simp only []
  generalize q * p6 = r at *
  rw [w64_fits (by omega) (by omega), abs_le]
  exact ⟨rfl, by omega, by omega⟩

theorem stepP3_eq {a v p5 : Int} (ha : |a| ≤ 56031421789110272) (h : |v| ≤ 1307648) (h1 : -32768 ≤ p5)
    (h2 : p5 ≤ 32767) :
    stepP3 a v p5 = ⟨a + v * p5 * 2 ^ 17, false⟩ ∧ |a + v * p5 * 2 ^ 17| ≤ 61647763706249216 := by
  have b := mul_sext_bound h h1 h2
  rw [abs_le] at ha
  rw [stepP3]
  generalize v * p5 = r at *
  rw [w64_fits (e := r) (by omega) (by omega)]
  simp only []
  rw [w64_fits (e := r * 2 ^ 17) (by omega) (by omega)]
  simp only []
  rw [w64_fits (by omega) (by omega), abs_le]
  exact ⟨rfl, by omega, by omega⟩

theorem stepP4_eq {a p4 : Int} (ha : |a| ≤ 61647763706249216) (h1 : -32768 ≤ p4) (h2 : p4 ≤ 32767) :
    stepP4 a p4 = ⟨a + p4 * 2 ^ 35, false⟩ ∧ |a + p4 * 2 ^ 35| ≤ 62773663613091840 := by
  rw [abs_le] at ha
  rw [stepP4, w64_fits (e := p4 * 2 ^ 35) (by omega) (by omega)]
  simp only []
  rw [w64_fits (by omega) (by omega), abs_le]
  exact ⟨rfl, by omega, by omega⟩

theorem stepP5_eq {v p3 p2 : Int} (h : |v| ≤ 1307648) (h1 : -32768 ≤ p3) (h2 : p3 ≤ 32767) (h3 : -32768 ≤ p2)
    (h4 : p2 ≤ 32767) :
    stepP5 v p3 p2 = ⟨v * v * p3 / 2 ^ 8 + v * p2 * 2 ^ 12, false⟩ ∧
      |v * v * p3 / 2 ^ 8 + v * p2 * 2 ^ 12| ≤ 394388000000000 := by
  have s := square_bound h
  have b := mul_sext_bound s h1 h2
  have b2 := mul_sext_bound h h3 h4
  rw [stepP5]
  generalize v * p2 = w at *
  generalize v * v = q at *
  rw [abs_le] at s
  rw [w64_fits (e := q) (by omega) (by omega)]
  simp only []
  generalize q * p3 = r at *
  rw [w64_fits (e := r) (by omega) (by omega), w64_fits (e := w) (by omega) (by omega)]
  simp only []
  rw [w64_fits (e := w * 2 ^ 12) (by omega) (by omega), asr_eq_div]
  simp only []
  rw [w64_fits (by omega) (by omega), abs_le]
  exact ⟨rfl, by omega, by omega⟩

/-- Steps P1 to P5 on the registers never wrap (R140): their exact values, with bounds. -/
theorem pressFrontOf_front (c : Calibration) {f : Int} (h1 : -1179648 ≤ f) (h2 : f ≤ 1179646) :
    ∃ v2 a5 : Int,
      v2 = (f - 128000) * (f - 128000) * sext c.p6 + (f - 128000) * sext c.p5 * 2 ^ 17 + sext c.p4 * 2 ^ 35 ∧
      a5 = (f - 128000) * (f - 128000) * sext c.p3 / 2 ^ 8 + (f - 128000) * sext c.p2 * 2 ^ 12 ∧
      |v2| ≤ 62773663613091840 ∧ |a5| ≤ 394388000000000 ∧
      (pressFrontOf c f).v1 = ⟨f - 128000, false⟩ ∧ (pressFrontOf c f).a2.ovf = false ∧
      (pressFrontOf c f).a3.ovf = false ∧ (pressFrontOf c f).v2 = ⟨v2, false⟩ ∧ (pressFrontOf c f).a5 = ⟨a5, false⟩ ∧
      (pressFrontOf c f).divisor = stepP6 a5 (zext c.p1) := by
  have e1 := stepP1_eq h1 h2
  have hv : |f - 128000| ≤ 1307648 := by rw [abs_le]; omega
  have r2 := sext16_range c.p2
  have r3 := sext16_range c.p3
  have r4 := sext16_range c.p4
  have r5 := sext16_range c.p5
  have r6 := sext16_range c.p6
  obtain ⟨e2, b2⟩ := stepP2_eq hv r6.1 r6.2
  obtain ⟨e3, b3⟩ := stepP3_eq b2 hv r5.1 r5.2
  obtain ⟨e4, b4⟩ := stepP4_eq b3 r4.1 r4.2
  obtain ⟨e5, b5⟩ := stepP5_eq hv r3.1 r3.2 r2.1 r2.2
  have hv1 : (pressFrontOf c f).v1 = ⟨f - 128000, false⟩ := e1
  have ha2 : (pressFrontOf c f).a2 = stepP2 (stepP1 f).val (sext c.p6) := rfl
  rw [e1] at ha2
  replace ha2 := ha2.trans e2
  have ha3 : (pressFrontOf c f).a3 = stepP3 (pressFrontOf c f).a2.val (stepP1 f).val (sext c.p5) := rfl
  rw [e1, ha2] at ha3
  replace ha3 := ha3.trans e3
  have hv2 : (pressFrontOf c f).v2 = stepP4 (pressFrontOf c f).a3.val (sext c.p4) := rfl
  rw [ha3] at hv2
  replace hv2 := hv2.trans e4
  have ha5 : (pressFrontOf c f).a5 = stepP5 (stepP1 f).val (sext c.p3) (sext c.p2) := rfl
  rw [e1] at ha5
  replace ha5 := ha5.trans e5
  have hd : (pressFrontOf c f).divisor = stepP6 (pressFrontOf c f).a5.val (zext c.p1) := rfl
  rw [ha5] at hd
  exact ⟨_, _, rfl, rfl, b4, b5, hv1, by rw [ha2], by rw [ha3], hv2, ha5, hd⟩

/-- P6 shifts one 64-bit product (R138, R139). -/
theorem stepP6_eq {a p1 : Int} (h : |a| ≤ 394388000000000) :
    stepP6 a p1 = ⟨(w64 ((2 ^ 47 + a) * p1)).val / 2 ^ 33, (w64 ((2 ^ 47 + a) * p1)).ovf⟩ := by
  rw [abs_le] at h
  rw [stepP6, w64_fits (e := 2 ^ 47 + a) (by omega) (by omega), asr_eq_div]
  rfl

theorem stepP8_eq {rp : Int} (h0 : 0 ≤ rp) (h1 : rp < 1048576) : stepP8 rp = ⟨1048576 - rp, false⟩ := by
  rw [stepP8, w64_fits (by omega) (by omega)]

/-- P9 never gives the least 64-bit value: 3125 is odd and the difference it multiplies is small (R140). -/
theorem stepP9_range {p v2 : Int} (h0 : 1 ≤ p) (h1 : p ≤ 1048576) (h : |v2| ≤ 62773663613091840) :
    -9223372036854775807 ≤ (stepP9 p v2).val ∧ (stepP9 p v2).val ≤ 9223372036854775807 := by
  rw [abs_le] at h
  obtain ⟨x, hx⟩ : ∃ x : Int, x = p * 2147483648 - v2 := ⟨_, rfl⟩
  have e1 : w64 (p * 2 ^ 31) = ⟨p * 2147483648, false⟩ := by
    rw [show p * 2 ^ 31 = p * 2147483648 by norm_num]
    exact w64_fits (by omega) (by omega)
  have e2 : w64 (p * 2147483648 - v2) = ⟨x, false⟩ := by
    rw [← hx]
    exact w64_fits (by omega) (by omega)
  have e : (stepP9 p v2).val = (w64 (x * 3125)).val := by
    unfold stepP9
    rw [e1]
    simp only []
    rw [e2]
  rw [e]
  have hb : -62773663613091840 ≤ x ∧ x ≤ 65025463426777088 := by omega
  clear e e1 e2 hx h h0 h1
  simp only [w64, wrap64_eq]
  omega

/-- P10 does not wrap on the numerators P9 gives (R140). -/
theorem stepP10_eq {num v : Int} (h1 : -9223372036854775807 ≤ num) (h2 : num ≤ 9223372036854775807) :
    stepP10 num v = ⟨Int.tdiv num v, false⟩ := by
  have h3 : |Int.tdiv num v| ≤ |num| := by
    rw [Int.abs_eq_natAbs, Int.abs_eq_natAbs, Int.natAbs_tdiv]
    exact_mod_cast Nat.div_le_self _ _
  have h4 : |num| ≤ 9223372036854775807 := abs_le.mpr ⟨h1, h2⟩
  have h5 := abs_le.mp (h3.trans h4)
  rw [stepP10, truncDiv]
  generalize Int.tdiv num v = q at *
  exact w64_fits (by omega) (by omega)

/-! ### The registers a run commits -/

/-- PINV is 1 exactly when the divisor of P6 is 0 (R146). -/
theorem comp_pinv (rawT rawP : BitVec 20) (c : Calibration) :
    (comp rawT rawP c).pinv = true ↔ (pressFrontOf c (tempPathOf c rawT).tFine.val).divisor.val = 0 := by
  obtain ⟨h, e⟩ | ⟨h, e⟩ := comp_cases rawT rawP c <;> rw [e]
  · exact ⟨fun _ => h, fun _ => rfl⟩
  · exact ⟨fun x => (by cases x), fun x => absurd x h⟩

/-- T_FINE and T_CENTI as numbers (R136, R137). -/
theorem comp_fine (rawT rawP : BitVec 20) (c : Calibration) :
    ∃ f : Int, -1179648 ≤ f ∧ f ≤ 1179646 ∧ (tempPathOf c rawT).tFine = ⟨f, false⟩ ∧
      (tempPathOf c rawT).tCenti = ⟨(f * 5 + 128) / 256, false⟩ ∧ sext (comp rawT rawP c).res.tFine = f ∧
      sext (comp rawT rawP c).res.tCenti = (f * 5 + 128) / 256 := by
  obtain ⟨f, f1, f2, f3, f4⟩ := tempPathOf_fine c rawT
  obtain ⟨e1, e2, -⟩ := comp_temperature rawT rawP c
  rw [f3] at e1
  rw [f4] at e2
  simp only [] at e1 e2
  refine ⟨f, f1, f2, f3, f4, ?_, ?_⟩
  · rw [e1]
    exact sext_ofInt32 (e := f) (by omega) (by omega)
  · rw [e2]
    exact sext_ofInt32 (e := (f * 5 + 128) / 256) (by omega) (by omega)

/-- P_Q248 as a number (R39, R146). -/
theorem comp_pressure (rawT rawP : BitVec 20) (c : Calibration) :
    ((comp rawT rawP c).pinv = true ∧ (comp rawT rawP c).res.pQ248 = 0 ∧ (comp rawT rawP c).res.pressHpa = fzero false) ∨
    ((comp rawT rawP c).pinv = false ∧
      sext (comp rawT rawP c).res.pQ248 =
        (pressBackOf c rawP (pressFrontOf c (tempPathOf c rawT).tFine.val)).p.val ∧
      (comp rawT rawP c).res.pressHpa = floatPress (sext (comp rawT rawP c).res.pQ248)) := by
  obtain ⟨-, e⟩ | ⟨-, e⟩ := comp_cases rawT rawP c <;> rw [e]
  · exact .inl ⟨rfl, rfl, rfl⟩
  · have h : sext (BitVec.ofInt 64 (pressBackOf c rawP (pressFrontOf c (tempPathOf c rawT).tFine.val)).p.val) =
        (pressBackOf c rawP (pressFrontOf c (tempPathOf c rawT).tFine.val)).p.val := by
      have hr : -9223372036854775808 ≤ (pressBackOf c rawP (pressFrontOf c (tempPathOf c rawT).tFine.val)).p.val ∧
          (pressBackOf c rawP (pressFrontOf c (tempPathOf c rawT).tFine.val)).p.val < 9223372036854775808 :=
        w64_range _
      exact sext_ofInt64 hr.1 hr.2
    exact .inr ⟨rfl, h, congrArg floatPress h.symm⟩

end Sys2Proof.Machine
end

