-- ==== Sys2Proof/Laws/Rounding.lean ====
section
/-! SUPPORT. `fround` is correctly rounded: it answers a nearest binary64 number, the even one on a tie, and an exactly
representable number unchanged. -/

namespace Sys2Proof.Machine

/-- The exponent of the grid a quotient is rounded on. -/
def gridExp (n d : Nat) : Int := max (ratLog2 n d - 52) (-1074)

/-- The rounded multiple of the grid's unit. -/
def gridQuot (n d : Nat) : Nat := divNearestEven (n * 2 ^ (-gridExp n d).toNat) (d * 2 ^ (gridExp n d).toNat)

theorem fround_pos (neg : Bool) {n : Nat} (hn : n ≠ 0) (d : Nat) :
    fround neg n d = fpack neg (gridExp n d + 1074).toNat (gridQuot n d) := by
  simp only [fround, if_neg hn, gridExp, gridQuot]

theorem gridExp_ge (n d : Nat) : -1074 ≤ gridExp n d := le_max_right _ _

theorem unit_pos (e : Int) : (0 : ℚ) < (2 : ℚ) ^ e := by positivity

/-- What is rounded to the integer `gridQuot`. -/
theorem grid_scaled (n : Nat) {d : Nat} (hd : 0 < d) :
    ((n * 2 ^ (-gridExp n d).toNat : Nat) : ℚ) / ((d * 2 ^ (gridExp n d).toNat : Nat) : ℚ) =
      (n : ℚ) / d * (2 : ℚ) ^ (-gridExp n d) := scaled_quotient n d hd _

theorem grid_den_pos (n : Nat) {d : Nat} (hd : 0 < d) : 0 < d * 2 ^ (gridExp n d).toNat :=
  Nat.mul_pos hd (by positivity)

theorem pow_mul_zpow_neg (a e : Int) : (2 : ℚ) ^ a * (2 : ℚ) ^ (-e) = (2 : ℚ) ^ (a - e) := by
  rw [← zpow_add₀ (by norm_num : (2 : ℚ) ≠ 0), sub_eq_add_neg]

/-- The scaled quotient lies below 2^53, and above 2^52 off the subnormal grid. -/
theorem scaled_bounds {n d : Nat} (hn : 0 < n) (hd : 0 < d) :
    (n : ℚ) / d * (2 : ℚ) ^ (-gridExp n d) < 2 ^ 53 ∧
    (gridExp n d = ratLog2 n d - 52 ∧ (2 : ℚ) ^ 52 ≤ (n : ℚ) / d * (2 : ℚ) ^ (-gridExp n d) ∨
      gridExp n d = -1074 ∧ ratLog2 n d - 52 < -1074) := by
  obtain ⟨a, b⟩ := ratLog2_spec hn hd
  have hu := unit_pos (-gridExp n d)
  have hge : ratLog2 n d - 52 ≤ gridExp n d := le_max_left _ _
  constructor
  · calc (n : ℚ) / d * (2 : ℚ) ^ (-gridExp n d) < (2 : ℚ) ^ (ratLog2 n d + 1) * (2 : ℚ) ^ (-gridExp n d) := by gcongr
      _ = (2 : ℚ) ^ (ratLog2 n d + 1 - gridExp n d) := pow_mul_zpow_neg _ _
      _ ≤ (2 : ℚ) ^ (53 : Int) := zpow_le_zpow_right₀ (by norm_num) (by omega)
      _ = 2 ^ 53 := by norm_num
  · rcases max_choice (ratLog2 n d - 52) (-1074) with h | h
    · left
      have h' : gridExp n d = ratLog2 n d - 52 := h
      refine ⟨h', ?_⟩
      calc (2 : ℚ) ^ 52 = (2 : ℚ) ^ (52 : Int) := by norm_num
        _ = (2 : ℚ) ^ (ratLog2 n d - gridExp n d) := by congr 1; omega
        _ = (2 : ℚ) ^ ratLog2 n d * (2 : ℚ) ^ (-gridExp n d) := (pow_mul_zpow_neg _ _).symm
        _ ≤ _ := by gcongr
    · have h' : gridExp n d = -1074 := h
      by_cases hc : ratLog2 n d - 52 < -1074
      · exact .inr ⟨h', hc⟩
      · left
        have h2 : gridExp n d = ratLog2 n d - 52 := by omega
        refine ⟨h2, ?_⟩
        calc (2 : ℚ) ^ 52 = (2 : ℚ) ^ (52 : Int) := by norm_num
          _ = (2 : ℚ) ^ (ratLog2 n d - gridExp n d) := by congr 1; omega
          _ = (2 : ℚ) ^ ratLog2 n d * (2 : ℚ) ^ (-gridExp n d) := (pow_mul_zpow_neg _ _).symm
          _ ≤ _ := by gcongr

theorem gridQuot_nearest (n : Nat) {d : Nat} (hd : 0 < d) (j : Int) :
    |(gridQuot n d : ℚ) - (n : ℚ) / d * (2 : ℚ) ^ (-gridExp n d)| ≤
      |(j : ℚ) - (n : ℚ) / d * (2 : ℚ) ^ (-gridExp n d)| := by
  rw [← grid_scaled n hd]
  exact divNearestEven_nearest _ _ (grid_den_pos n hd) j

/-- The rounded multiple is within half a unit, and even on a tie. -/
theorem gridQuot_half (n : Nat) {d : Nat} (hd : 0 < d) :
    |(gridQuot n d : ℚ) - (n : ℚ) / d * (2 : ℚ) ^ (-gridExp n d)| ≤ 1 / 2 ∧
    (|(gridQuot n d : ℚ) - (n : ℚ) / d * (2 : ℚ) ^ (-gridExp n d)| = 1 / 2 → gridQuot n d % 2 = 0) := by
  rw [← grid_scaled n hd]
  exact divNearestEven_spec _ _ (grid_den_pos n hd)

/-- The rounded multiple has at most 53 bits, or is the carry 2^53. -/
theorem gridQuot_bounds {n d : Nat} (hn : 0 < n) (hd : 0 < d) :
    (2 ^ 52 ≤ gridQuot n d ∧ gridQuot n d ≤ 2 ^ 53) ∨ (gridExp n d = -1074 ∧ gridQuot n d ≤ 2 ^ 53) := by
  obtain ⟨hlt, hlo⟩ := scaled_bounds hn hd
  have hnear := (gridQuot_half n hd).1
  obtain ⟨h1, h2⟩ := abs_le.mp hnear
  have hup : gridQuot n d ≤ 2 ^ 53 := by
    have : (gridQuot n d : ℚ) < 2 ^ 53 + 1 := by linarith
    have : gridQuot n d < 2 ^ 53 + 1 := by exact_mod_cast this
    omega
  rcases hlo with ⟨-, h⟩ | ⟨h, -⟩
  · left
    refine ⟨?_, hup⟩
    have : (2 : ℚ) ^ 52 - 1 < gridQuot n d := by linarith
    have : 2 ^ 52 < gridQuot n d + 1 := by
      have h' : (2 : ℚ) ^ 52 < gridQuot n d + 1 := by linarith
      exact_mod_cast h'
    omega
  · exact .inr ⟨h, hup⟩

/-- The value of a rounded quotient. -/
theorem fval_fround (neg : Bool) {n d : Nat} (hn : 0 < n) (hd : 0 < d) (hfin : fisFinite (fround neg n d) = true) :
    fval (fround neg n d) = (if neg then -1 else 1) * (gridQuot n d : ℚ) * (2 : ℚ) ^ gridExp n d := by
  rw [fround_pos neg hn.ne' d] at hfin ⊢
  exact fval_fpack neg (gridExp_ge n d) (gridQuot_bounds hn hd) hfin

/-- Scaling distances to and from the grid. -/
theorem scale_dist (a v : ℚ) (e : Int) : |a * (2 : ℚ) ^ e - v| = |a - v * (2 : ℚ) ^ (-e)| * (2 : ℚ) ^ e := by
  have h : a * (2 : ℚ) ^ e - v = (a - v * (2 : ℚ) ^ (-e)) * (2 : ℚ) ^ e := by
    rw [sub_mul, mul_assoc v, ← zpow_add₀ (by norm_num : (2 : ℚ) ≠ 0)]
    simp
  rw [h, abs_mul, abs_of_pos (unit_pos e)]

/-- A multiple of the grid is not nearer to the positive quotient than the rounded one. -/
theorem grid_not_nearer (n : Nat) {d : Nat} (hd : 0 < d) (j : Int) :
    |(gridQuot n d : ℚ) * (2 : ℚ) ^ gridExp n d - (n : ℚ) / d| ≤ |(j : ℚ) * (2 : ℚ) ^ gridExp n d - (n : ℚ) / d| := by
  rw [scale_dist, scale_dist]
  exact mul_le_mul_of_nonneg_right (gridQuot_nearest n hd j) (unit_pos _).le

/-- A finite value on a finer grid than the quotient's is at most the quotient's binade, or on the grid. -/
theorem value_grid_or_low (y : F64) (hy : fisFinite y = true) {n d : Nat} (hn : 0 < n) (hd : 0 < d) :
    (∃ j : Int, fval y = (j : ℚ) * (2 : ℚ) ^ gridExp n d) ∨
    (gridExp n d = ratLog2 n d - 52 ∧ fval y < (2 : ℚ) ^ ratLog2 n d) := by
  obtain ⟨j, e, he, hj, hv⟩ := fval_grid y hy
  by_cases hle : gridExp n d ≤ e
  · left
    obtain ⟨k, hk⟩ := Int.eq_ofNat_of_zero_le (show 0 ≤ e - gridExp n d by omega)
    refine ⟨j * 2 ^ k, ?_⟩
    have : e = (k : Int) + gridExp n d := by omega
    rw [hv, this, zpow_add₀ (by norm_num : (2 : ℚ) ≠ 0)]
    push_cast
    rw [zpow_natCast]
    ring
  · right
    obtain ⟨-, hc⟩ := scaled_bounds hn hd
    have hg : gridExp n d = ratLog2 n d - 52 := by
      rcases hc with ⟨h, -⟩ | ⟨h, -⟩
      · exact h
      · omega
    refine ⟨hg, ?_⟩
    have hjq : (j : ℚ) < 2 ^ 53 := by
      have : j < 2 ^ 53 := lt_of_le_of_lt (le_abs_self j) hj
      exact_mod_cast this
    rw [hv]
    calc (j : ℚ) * (2 : ℚ) ^ e < (2 : ℚ) ^ 53 * (2 : ℚ) ^ e := by
          have := unit_pos e
          gcongr
      _ = (2 : ℚ) ^ (53 + e) := by rw [zpow_add₀ (by norm_num : (2 : ℚ) ≠ 0)]; norm_num
      _ ≤ (2 : ℚ) ^ ratLog2 n d := zpow_le_zpow_right₀ (by norm_num) (by omega)

/-- The start of the quotient's binade, as a multiple of its grid. -/
theorem binade_on_grid {n d : Nat} (hg : gridExp n d = ratLog2 n d - 52) :
    (2 : ℚ) ^ ratLog2 n d = ((2 ^ 52 : Int) : ℚ) * (2 : ℚ) ^ gridExp n d := by
  have : ratLog2 n d = 52 + gridExp n d := by omega
  rw [this, zpow_add₀ (by norm_num : (2 : ℚ) ≠ 0)]
  norm_num

/-- The rounded positive quotient is nearest among all finite patterns. -/
theorem fround_nearest_pos {n d : Nat} (hn : 0 < n) (hd : 0 < d) (y : F64) (hy : fisFinite y = true) :
    |(gridQuot n d : ℚ) * (2 : ℚ) ^ gridExp n d - (n : ℚ) / d| ≤ |fval y - (n : ℚ) / d| := by
  rcases value_grid_or_low y hy hn hd with ⟨j, hj⟩ | ⟨hg, hlow⟩
  · rw [hj]
    exact grid_not_nearer n hd j
  · have hv := (ratLog2_spec hn hd).1
    calc _ ≤ |((2 ^ 52 : Int) : ℚ) * (2 : ℚ) ^ gridExp n d - (n : ℚ) / d| := grid_not_nearer n hd _
      _ = |(2 : ℚ) ^ ratLog2 n d - (n : ℚ) / d| := by rw [← binade_on_grid hg]
      _ = (n : ℚ) / d - (2 : ℚ) ^ ratLog2 n d := by rw [abs_sub_comm, abs_of_nonneg (by linarith)]
      _ ≤ (n : ℚ) / d - fval y := by linarith
      _ ≤ _ := by rw [abs_sub_comm]; exact le_abs_self _

/-! ### Signs -/

theorem signMask_bit : ∀ k < 64, (1#64 <<< 63).getLsbD k = decide (k = 63) := by decide

theorem fnegate_bit {x : F64} {k : Nat} (h : k < 63) : (fnegate x).getLsbD k = x.getLsbD k := by
  rw [fnegate, BitVec.getLsbD_xor, signMask_bit k (by omega), decide_eq_false (by omega), Bool.xor_false]

theorem fexpBits_fnegate (x : F64) : fexpBits (fnegate x) = fexpBits x := by
  unfold fexpBits
  congr 1
  ext i hi
  simp only [BitVec.getElem_extractLsb']
  exact fnegate_bit (by omega)

theorem ffracBits_fnegate (x : F64) : ffracBits (fnegate x) = ffracBits x := by
  unfold ffracBits
  congr 1
  ext i hi
  simp only [BitVec.getElem_extractLsb']
  exact fnegate_bit (by omega)

theorem fsignBit_fnegate (x : F64) : fsignBit (fnegate x) = !fsignBit x := by
  unfold fsignBit fnegate
  simp [BitVec.msb_eq_getLsbD_last]

theorem fisFinite_fnegate (x : F64) : fisFinite (fnegate x) = fisFinite x := by
  simp [fisFinite, fexpBits_fnegate]

theorem unpack_fnegate (x : F64) : unpack (fnegate x) =
    match unpack x with
    | .nan => .nan
    | .inf s => .inf (!s)
    | .fin s m e => .fin (!s) m e := by
  unfold unpack
  rw [fexpBits_fnegate, ffracBits_fnegate, fsignBit_fnegate]
  by_cases h1 : fexpBits x = 2047 <;> by_cases h2 : ffracBits x = 0 <;> by_cases h3 : fexpBits x = 0 <;>
    simp [h1, h2, h3]

theorem fval_fnegate (x : F64) : fval (fnegate x) = -fval x := by
  unfold fval
  rw [unpack_fnegate]
  rcases unpack x with _ | s | ⟨s, m, e⟩
  · simp
  · simp
  · cases s <;> simp

/-! ### The theorems -/

/-- The exact value `fround` rounds. -/
def exactValue (neg : Bool) (n d : Nat) : ℚ := (if neg then -1 else 1) * ((n : ℚ) / d)

theorem unpack_fzero (neg : Bool) : unpack (fzero neg) = .fin neg 0 (-1074) := by cases neg <;> decide
theorem unpack_finf (neg : Bool) : unpack (finf neg) = .inf neg := by cases neg <;> decide

/-- `fround` answers a nearest number (R9: round to nearest). -/
theorem fround_nearest (neg : Bool) (n : Nat) {d : Nat} (hd : 0 < d) (hfin : fisFinite (fround neg n d) = true) :
    Nearest (fround neg n d) (exactValue neg n d) := by
  refine ⟨hfin, fun y hy => ?_⟩
  rcases Nat.eq_zero_or_pos n with rfl | hn
  · have : fval (fround neg 0 d) = 0 := by
      rw [fround, if_pos rfl, fval_of_unpack (unpack_fzero neg)]; simp
    rw [this]
    simp [exactValue]
  · rw [fval_fround neg hn hd hfin]
    cases neg
    · simpa [exactValue] using fround_nearest_pos hn hd y hy
    · have h := fround_nearest_pos hn hd (fnegate y) (by rw [fisFinite_fnegate]; exact hy)
      rw [fval_fnegate] at h
      have e1 : (if true = true then (-1 : ℚ) else 1) * (gridQuot n d : ℚ) * (2 : ℚ) ^ gridExp n d - exactValue true n d =
          -((gridQuot n d : ℚ) * (2 : ℚ) ^ gridExp n d - (n : ℚ) / d) := by simp [exactValue]; ring
      have e2 : fval y - exactValue true n d = -(-fval y - (n : ℚ) / d) := by simp [exactValue]; ring
      rw [e1, e2, abs_neg, abs_neg]
      exact h

/-- The fraction bit of an even multiple is 0, the carry included. -/
theorem fpack_even {q k : Nat} (neg : Bool) (hq : q % 2 = 0) (h : k * 2 ^ 52 + q < infBits) :
    (fpack neg k q).getLsbD 0 = false := by
  have h63 : k * 2 ^ 52 + q < 2 ^ 63 := by unfold infBits at h; omega
  rw [fpack, if_pos h, BitVec.getLsbD, fsigned_toNat neg h63]
  have : ((if neg then 2 ^ 63 else 0) + (k * 2 ^ 52 + q)) % 2 = 0 := by
    cases neg
    · simp only [Bool.false_eq_true, if_false]; omega
    · simp only [if_true]; omega
  rw [Nat.testBit_zero, this]
  rfl

/-- On a tie `fround` answers the even number (R9: ties to even). -/
theorem fround_ties (neg : Bool) (n : Nat) {d : Nat} (hd : 0 < d) (hfin : fisFinite (fround neg n d) = true) :
    TiesEven (fround neg n d) (exactValue neg n d) := by
  rcases Nat.eq_zero_or_pos n with rfl | hn
  · intro y _ hne heq
    have h0 : fval (fround neg 0 d) = 0 := by
      rw [fround, if_pos rfl, fval_of_unpack (unpack_fzero neg)]; simp
    rw [h0] at heq hne
    simp [exactValue] at heq
    exact absurd heq hne
  · -- the same claim for a positive value, about the grid
    have key : ∀ y : F64, fisFinite y = true →
        fval y ≠ (gridQuot n d : ℚ) * (2 : ℚ) ^ gridExp n d →
        |fval y - (n : ℚ) / d| = |(gridQuot n d : ℚ) * (2 : ℚ) ^ gridExp n d - (n : ℚ) / d| →
        gridQuot n d % 2 = 0 := by
      intro y hy hne heq
      have hu := unit_pos (gridExp n d)
      have grid : ∀ j : Int, (j : ℚ) * (2 : ℚ) ^ gridExp n d ≠ (gridQuot n d : ℚ) * (2 : ℚ) ^ gridExp n d →
          |(j : ℚ) * (2 : ℚ) ^ gridExp n d - (n : ℚ) / d| =
            |(gridQuot n d : ℚ) * (2 : ℚ) ^ gridExp n d - (n : ℚ) / d| → gridQuot n d % 2 = 0 := by
        intro j hj he
        rw [scale_dist, scale_dist] at he
        have he' := mul_right_cancel₀ hu.ne' he
        set v := (n : ℚ) / d * (2 : ℚ) ^ (-gridExp n d) with hv
        have hjq : j ≠ (gridQuot n d : Int) := by
          rintro rfl; exact hj (by push_cast; rfl)
        have hsp := gridQuot_half n hd
        rw [← hv] at hsp
        apply hsp.2
        apply le_antisymm hsp.1
        have h1 : (1 : ℚ) ≤ |(j : ℚ) - (gridQuot n d : ℚ)| := by
          have : (1 : Int) ≤ |j - (gridQuot n d : Int)| := Int.one_le_abs (sub_ne_zero.mpr hjq)
          exact_mod_cast this
        have h2 : |(j : ℚ) - (gridQuot n d : ℚ)| ≤ |(j : ℚ) - v| + |(gridQuot n d : ℚ) - v| := by
          have := abs_sub_le (j : ℚ) v (gridQuot n d : ℚ)
          rwa [abs_sub_comm v] at this
        linarith
      rcases value_grid_or_low y hy hn hd with ⟨j, hj⟩ | ⟨hg, hlow⟩
      · rw [hj] at hne heq
        exact grid j hne heq
      · exfalso
        have hv := (ratLog2_spec hn hd).1
        have h1 := grid_not_nearer n hd (2 ^ 52)
        rw [← heq, ← binade_on_grid hg, abs_sub_comm, abs_sub_comm ((2 : ℚ) ^ ratLog2 n d),
          abs_of_nonneg (by linarith), abs_of_nonneg (by linarith)] at h1
        linarith
    intro y hy hne heq
    have heven : gridQuot n d % 2 = 0 := by
      rw [fval_fround neg hn hd hfin] at hne heq
      cases neg
      · apply key y hy
        · simpa using hne
        · simpa [exactValue] using heq
      · apply key (fnegate y) (by rw [fisFinite_fnegate]; exact hy)
        · rw [fval_fnegate]
          intro h
          apply hne
          simp
          linarith
        · rw [fval_fnegate]
          have e1 : (if true = true then (-1 : ℚ) else 1) * (gridQuot n d : ℚ) * (2 : ℚ) ^ gridExp n d - exactValue true n d =
              -((gridQuot n d : ℚ) * (2 : ℚ) ^ gridExp n d - (n : ℚ) / d) := by simp [exactValue]; ring
          have e2 : fval y - exactValue true n d = -(-fval y - (n : ℚ) / d) := by simp [exactValue]; ring
          rw [e1, e2, abs_neg, abs_neg] at heq
          exact heq
    rw [fround_pos neg hn.ne' d] at hfin ⊢
    apply fpack_even neg heven
    by_contra hge
    rw [fpack, if_neg hge] at hfin
    revert hfin
    cases neg <;> decide

/-- A canonical number is answered unchanged. -/
theorem fround_exact (neg : Bool) {n d m : Nat} {e : Int} (hd : 0 < d) (hm : 0 < m) (hc : Canonical m e)
    (hv : (n : ℚ) / d = (m : ℚ) * (2 : ℚ) ^ e) : fround neg n d = fpack neg (e + 1074).toNat m := by
  have hdq : (0 : ℚ) < d := by exact_mod_cast hd
  have hmq : (0 : ℚ) < m := by exact_mod_cast hm
  have hn : 0 < n := by
    rcases Nat.eq_zero_or_pos n with rfl | h
    · have := unit_pos e
      have : (0 : ℚ) < (m : ℚ) * (2 : ℚ) ^ e := by positivity
      rw [← hv] at this
      simp at this
    · exact h
  have hlog : ratLog2 n d = (Nat.log2 m : Int) + e := by
    apply ratLog2_unique hn hd
    · rw [hv, zpow_add₀ (by norm_num : (2 : ℚ) ≠ 0), zpow_natCast]
      have := unit_pos e
      gcongr
      exact_mod_cast Nat.log2_self_le hm.ne'
    · rw [hv, add_assoc, add_comm e, ← add_assoc, zpow_add₀ (by norm_num : (2 : ℚ) ≠ 0)]
      have h1 : (m : ℚ) < (2 : ℚ) ^ ((Nat.log2 m : Int) + 1) := by
        have : m < 2 ^ (Nat.log2 m + 1) := Nat.lt_log2_self
        have h' : (m : ℚ) < (2 : ℚ) ^ (Nat.log2 m + 1 : Nat) := by exact_mod_cast this
        rwa [← zpow_natCast] at h'
      have := unit_pos e
      gcongr
  have hge : gridExp n d = e := by
    unfold gridExp
    rw [hlog]
    rcases hc with ⟨h1, h2, h3, -⟩ | ⟨h1, h2⟩
    · have : Nat.log2 m = 52 := by
        apply le_antisymm
        · have := (Nat.log2_lt hm.ne').mpr h2
          omega
        · exact (Nat.le_log2 hm.ne').mpr h1
      omega
    · have : Nat.log2 m < 52 := (Nat.log2_lt hm.ne').mpr h1
      omega
  have hq : gridQuot n d = m := by
    have h := gridQuot_nearest n hd (m : Int)
    have hs : (n : ℚ) / d * (2 : ℚ) ^ (-gridExp n d) = m := by
      rw [hge, hv, mul_assoc, ← zpow_add₀ (by norm_num : (2 : ℚ) ≠ 0)]
      simp
    rw [hs] at h
    simp at h
    have : (gridQuot n d : ℚ) = m := by linarith [sub_eq_zero.mp h]
    exact_mod_cast this
  rw [fround_pos neg hn.ne' d, hge, hq]

/-- A finite non-zero pattern is what its own value rounds to. -/
theorem fround_self {x : F64} {s : Bool} {m : Nat} {e : Int} (h : unpack x = .fin s m e) (hm : m ≠ 0) {n d : Nat}
    (hd : 0 < d) (hv : (n : ℚ) / d = (m : ℚ) * (2 : ℚ) ^ e) : fround s n d = x := by
  obtain ⟨-, hc⟩ := unpack_fin h
  rw [fround_exact s hd (Nat.pos_of_ne_zero hm) hc hv, fpack_unpack h]

/-- A dyadic number as the numerator and denominator the operations use. -/
theorem dyadic_value (m : Nat) (e : Int) : ((dyadicNum m e : Nat) : ℚ) / ((dyadicDen e : Nat) : ℚ) = (m : ℚ) * (2 : ℚ) ^ e := by
  have h := scaled_quotient m 1 (by norm_num) (-e)
  simp only [neg_neg, one_mul, Nat.cast_one, div_one] at h
  exact h

theorem dyadicDen_pos (e : Int) : 0 < dyadicDen e := by unfold dyadicDen; positivity

/-! ### Overflow -/

/-- The bound in units of the last binade. -/
theorem overflowBound_eq : overflowBound = (2 ^ 53 - 1 / 2) * (2 : ℚ) ^ (971 : Int) := by
  have h1 : (2 : ℚ) ^ 1024 = 2 ^ 54 * 2 ^ 970 := by rw [← pow_add]
  have h2 : (2 : ℚ) ^ (971 : Int) = 2 * 2 ^ 970 := by
    rw [show (971 : Int) = ((971 : Nat) : Int) by rfl, zpow_natCast, pow_succ']
  rw [overflowBound, h1, h2]
  generalize (2 : ℚ) ^ 970 = u
  ring

theorem overflowBound_lt : overflowBound < (2 : ℚ) ^ (1024 : Int) := by
  rw [overflowBound_eq, show (1024 : Int) = 53 + 971 by rfl, zpow_add₀ (by norm_num)]
  have := unit_pos 971
  gcongr
  norm_num

theorem lt_overflowBound : (2 : ℚ) ^ (1023 : Int) < overflowBound := by
  rw [overflowBound_eq, show (1023 : Int) = 52 + 971 by rfl, zpow_add₀ (by norm_num)]
  have := unit_pos 971
  gcongr
  norm_num

theorem overflowBound_pos : 0 < overflowBound := lt_trans (unit_pos 1023) lt_overflowBound

/-- The bound on the last binade's grid. -/
theorem overflowBound_scaled : overflowBound * (2 : ℚ) ^ (-(971 : Int)) = 2 ^ 53 - 1 / 2 := by
  rw [overflowBound_eq, mul_assoc, ← zpow_add₀ (by norm_num)]
  simp

/-- Below `overflowBound` a quotient rounds to a finite number. -/
theorem fround_finite (neg : Bool) {n d : Nat} (hd : 0 < d) (h : (n : ℚ) / d < overflowBound) :
    fisFinite (fround neg n d) = true := by
  rcases Nat.eq_zero_or_pos n with rfl | hn
  · rw [fround, if_pos rfl]; cases neg <;> decide
  · have hl : ratLog2 n d ≤ 1023 := by
      have h2 : (2 : ℚ) ^ ratLog2 n d < (2 : ℚ) ^ (1024 : Int) := by
        calc (2 : ℚ) ^ ratLog2 n d ≤ (n : ℚ) / d := (ratLog2_spec hn hd).1
          _ < overflowBound := h
          _ < (2 : ℚ) ^ (1024 : Int) := overflowBound_lt
      rw [zpow_lt_zpow_iff_right₀ (by norm_num)] at h2
      omega
    have hb := gridQuot_bounds hn hd
    have hge : gridExp n d ≤ 971 := by
      have : gridExp n d = max (ratLog2 n d - 52) (-1074) := rfl
      omega
    have hge' := gridExp_ge n d
    have hqle : gridQuot n d ≤ 2 ^ 53 := by rcases hb with h | h <;> exact h.2
    -- a carry out of the last binade would need the quotient itself to reach the bound
    have hlt : (gridExp n d + 1074).toNat * 2 ^ 52 + gridQuot n d < infBits := by
      by_cases hc : gridQuot n d = 2 ^ 53 ∧ gridExp n d = 971
      · exfalso
        obtain ⟨hq, he⟩ := hc
        have hs : (n : ℚ) / d * (2 : ℚ) ^ (-gridExp n d) < 2 ^ 53 - 1 / 2 := by
          rw [he]
          calc (n : ℚ) / d * (2 : ℚ) ^ (-(971 : Int)) < overflowBound * (2 : ℚ) ^ (-(971 : Int)) := by gcongr
            _ = 2 ^ 53 - 1 / 2 := overflowBound_scaled
        have hsp := (gridQuot_half n hd).1
        rw [hq] at hsp
        have := (abs_le.mp hsp).2
        push_cast at this
        linarith
      · unfold infBits
        rw [not_and_or] at hc
        rcases hc with h | h <;> omega
    rw [fround_pos neg hn.ne' d, fpack, if_pos hlt, fisFinite_iff]
    have h63 : (gridExp n d + 1074).toNat * 2 ^ 52 + gridQuot n d < 2 ^ 63 := by unfold infBits at hlt; omega
    rw [fexpBits_fsigned neg h63]
    unfold infBits at hlt
    omega

/-- From `overflowBound` on a quotient rounds to infinity: the tie there goes to the even 2^53. -/
theorem fround_overflow (neg : Bool) {n d : Nat} (hd : 0 < d) (h : overflowBound ≤ (n : ℚ) / d) :
    fround neg n d = finf neg := by
  have hn : 0 < n := by
    rcases Nat.eq_zero_or_pos n with rfl | hn
    · rw [Nat.cast_zero, zero_div] at h
      exact absurd h (not_le.mpr overflowBound_pos)
    · exact hn
  have hl : 1023 ≤ ratLog2 n d := by
    have h2 : (2 : ℚ) ^ (1023 : Int) < (2 : ℚ) ^ (ratLog2 n d + 1) := by
      calc (2 : ℚ) ^ (1023 : Int) < overflowBound := lt_overflowBound
        _ ≤ (n : ℚ) / d := h
        _ < _ := (ratLog2_spec hn hd).2
    rw [zpow_lt_zpow_iff_right₀ (by norm_num)] at h2
    omega
  have hg : gridExp n d = ratLog2 n d - 52 := max_eq_left (by omega)
  have hlo : 2 ^ 52 ≤ gridQuot n d := by
    rcases gridQuot_bounds hn hd with hb | hb <;> omega
  rw [fround_pos neg hn.ne' d, fpack, if_neg]
  unfold infBits
  rcases lt_or_eq_of_le hl with hl | hl
  · omega
  · have he : gridExp n d = 971 := by omega
    have hs : (2 : ℚ) ^ 53 - 1 / 2 ≤ (n : ℚ) / d * (2 : ℚ) ^ (-gridExp n d) := by
      rw [he]
      calc (2 : ℚ) ^ 53 - 1 / 2 = overflowBound * (2 : ℚ) ^ (-(971 : Int)) := overflowBound_scaled.symm
        _ ≤ _ := by gcongr
    obtain ⟨hnear, hties⟩ := gridQuot_half n hd
    have hq : 2 ^ 53 - 1 ≤ gridQuot n d := by
      have h1 := (abs_le.mp hnear).1
      have : (2 : ℚ) ^ 53 ≤ gridQuot n d + 1 := by linarith
      have : 2 ^ 53 ≤ gridQuot n d + 1 := by exact_mod_cast this
      omega
    have hne : gridQuot n d ≠ 2 ^ 53 - 1 := by
      intro hq
      have heven := hties (by
        apply le_antisymm hnear
        rw [abs_sub_comm, hq]
        refine le_trans ?_ (le_abs_self _)
        push_cast
        linarith)
      omega
    rw [he]
    omega

/-- What `fround` answers, in every case (R9, D32). -/
theorem fround_rounds (neg : Bool) (n : Nat) {d : Nat} (hd : 0 < d) : Rounds (fround neg n d) (exactValue neg n d) := by
  have hq : 0 ≤ (n : ℚ) / d := by positivity
  have hb := overflowBound_pos
  refine ⟨fun h => ?_, fun h => ?_, fun h => ?_⟩
  · have hf : fisFinite (fround neg n d) = true := by
      apply fround_finite neg hd
      cases neg <;> simpa [exactValue, abs_of_nonneg hq] using h
    exact ⟨fround_nearest neg n hd hf, fround_ties neg n hd hf⟩
  · cases neg
    · exact fround_overflow false hd (by simpa [exactValue] using h)
    · simp only [exactValue, if_true] at h
      linarith
  · cases neg
    · simp only [exactValue, Bool.false_eq_true, if_false, one_mul] at h
      linarith
    · exact fround_overflow true hd (by simp only [exactValue, if_true] at h; linarith)

/-- `fround` keeps the sign. -/
theorem fsignBit_fround (neg : Bool) (n d : Nat) : fsignBit (fround neg n d) = neg := by
  have hz : ∀ s, fsignBit (fzero s) = s := by decide
  have hi : ∀ s, fsignBit (finf s) = s := by decide
  unfold fround
  split
  · exact hz neg
  · simp only [fpack]
    split
    · rename_i h
      exact fsignBit_fsigned neg (by unfold infBits at h; omega)
    · exact hi neg

theorem fisNaN_fsigned {m : Nat} (neg : Bool) (h : m < infBits) : fisNaN (fsigned neg m) = false := by
  have he := fexpBits_fsigned neg (show m < 2 ^ 63 by unfold infBits at h; omega)
  rw [fisNaN, Bool.and_eq_false_iff, he]
  unfold infBits at h
  have : m / 2 ^ 52 ≠ 2047 := by omega
  exact .inl (by simpa using this)

/-- `fround` never answers a NaN. -/
theorem fround_not_nan (neg : Bool) (n d : Nat) : fisNaN (fround neg n d) = false := by
  have hz : ∀ s, fisNaN (fzero s) = false := by decide
  have hi : ∀ s, fisNaN (finf s) = false := by decide
  unfold fround
  split
  · exact hz neg
  · simp only [fpack]
    split
    · rename_i h
      exact fisNaN_fsigned neg h
    · exact hi neg

end Sys2Proof.Machine
end

