-- ==== Sys2Proof/Laws/FloatOps.lean ====
section
/-! SUPPORT. What the binary64 operations need to be reasoned about by cases: zeros, infinities, signs and exact values of
patterns, what a NaN operand does, and the fixed values of `pow64`. -/

namespace Sys2Proof.Machine

/-! ### Zeros, infinities, signs -/

theorem fnegate_fzero : ∀ neg, fnegate (fzero neg) = fzero (!neg) := by decide
theorem fnegate_finf : ∀ neg, fnegate (finf neg) = finf (!neg) := by decide

theorem fnegate_fnegate (x : F64) : fnegate (fnegate x) = x := by
  unfold fnegate
  rw [BitVec.xor_assoc, BitVec.xor_self, BitVec.xor_zero]

theorem fisNaN_finf : ∀ neg, fisNaN (finf neg) = false := by decide

theorem fisNaN_of_finite {x : F64} (h : fisFinite x = true) : fisNaN x = false := by
  rw [fisFinite_iff] at h
  simp [fisNaN, h]

/-- An infinity is one of the two patterns. -/
theorem eq_finf_of_unpack {x : F64} {neg : Bool} (h : unpack x = .inf neg) : x = finf neg := by
  have he : fexpBits x = 2047 := by
    by_contra hne
    unfold unpack at h
    rw [if_neg hne] at h
    split at h <;> cases h
  unfold unpack at h
  rw [if_pos he] at h
  split at h
  · rename_i hf
    injection h with hs
    refine F64_ext ?_ ?_ ?_
    · rw [hs]; cases neg <;> decide
    · rw [he]; cases neg <;> decide
    · rw [hf]; cases neg <;> decide
  · cases h

theorem fval_eq_zero_iff {x : F64} {s : Bool} {m : Nat} {e : Int} (h : unpack x = .fin s m e) : fval x = 0 ↔ m = 0 := by
  rw [fval_of_unpack h]
  have := (unit_pos e).ne'
  cases s <;> simp [this]

/-- A finite pattern of value 0 is one of the two zeros. -/
theorem eq_fzero_of_fval {x : F64} (hf : fisFinite x = true) (h : fval x = 0) : x = fzero (fsignBit x) := by
  obtain ⟨m, e, hu, hc⟩ := unpack_finite hf
  obtain rfl := (fval_eq_zero_iff hu).mp h
  obtain ⟨h, -⟩ | ⟨-, rfl⟩ := hc
  · norm_num at h
  · have hp := fpack_unpack hu
    rwa [fpack, if_pos (by decide), show (-1074 + 1074 : Int).toNat * 2 ^ 52 + 0 = 0 by rfl, eq_comm] at hp

theorem fval_nonneg {x : F64} (hf : fisFinite x = true) (hs : fsignBit x = false) : 0 ≤ fval x := by
  obtain ⟨m, e, hu, -⟩ := unpack_finite hf
  rw [fval_of_unpack hu, hs]
  have := unit_pos e
  simp only [Bool.false_eq_true, if_false, one_mul]
  positivity

theorem fval_nonpos {x : F64} (hf : fisFinite x = true) (hs : fsignBit x = true) : fval x ≤ 0 := by
  have h := fval_nonneg (x := fnegate x) (by rwa [fisFinite_fnegate]) (by rw [fsignBit_fnegate, hs]; rfl)
  rw [fval_fnegate] at h
  linarith

theorem unpack_of_fisZero {x : F64} (h : fisZero x = true) : unpack x = .fin (fsignBit x) 0 (-1074) := by
  simp only [fisZero, Bool.and_eq_true, beq_iff_eq] at h
  rw [unpack, if_neg (by omega), if_pos h.1, h.2]

/-- A negative number is -inf or a finite number with its sign set. -/
theorem fNegative_cases {x : F64} (h : fNegative x = true) :
    x = finf true ∨ ∃ m e, unpack x = .fin true m e ∧ m ≠ 0 := by
  simp only [fNegative, Bool.and_eq_true, Bool.not_eq_true'] at h
  obtain ⟨⟨hn, hz⟩, hs⟩ := h
  rcases hu : unpack x with _ | s | ⟨s, m, e⟩
  · rw [← fisNaN_iff, hn] at hu
    cases hu
  · left
    obtain rfl := eq_finf_of_unpack hu
    have : ∀ s, fsignBit (finf s) = s := by decide
    rw [← hs, this]
  · right
    obtain ⟨rfl, -⟩ := unpack_fin hu
    rw [hs] at hu
    refine ⟨m, e, by rw [hs], ?_⟩
    rintro rfl
    rw [eq_fzero_of_fval (fisFinite_of_unpack hu) ((fval_eq_zero_iff hu).mpr rfl), hs] at hz
    revert hz
    decide

theorem fNegative_fnegate (x : F64) : fNegative (fnegate x) = fPositive x := by
  simp only [fNegative, fPositive, fisNaN, fisZero, fexpBits_fnegate, ffracBits_fnegate, fsignBit_fnegate]

/-- A positive number is +inf or a finite number with its sign clear. -/
theorem fPositive_cases {x : F64} (h : fPositive x = true) :
    x = finf false ∨ ∃ m e, unpack x = .fin false m e ∧ m ≠ 0 := by
  rw [← fNegative_fnegate] at h
  obtain h | ⟨m, e, h, hm⟩ := fNegative_cases h
  · left
    rw [← fnegate_fnegate x, h]
    decide
  · right
    exact ⟨m, e, by rw [← fnegate_fnegate x, unpack_fnegate, h]; rfl, hm⟩

/-! ### Exact values -/

/-- What `fadd` adds, in units of the base. -/
theorem scaledInt_value (neg : Bool) (m : Nat) {e base : Int} (h : base ≤ e) :
    ((scaledInt neg m e base : Int) : ℚ) * (2 : ℚ) ^ base = (if neg then -1 else 1) * (m : ℚ) * (2 : ℚ) ^ e := by
  obtain ⟨k, hk⟩ := Int.eq_ofNat_of_zero_le (show 0 ≤ e - base by omega)
  obtain rfl : e = base + k := by omega
  rw [zpow_add₀ (by norm_num)]
  cases neg <;> simp [scaledInt] <;> ring

/-- What `fround` is given for a sum. -/
theorem exactValue_dyadic (z base : Int) :
    exactValue (decide (z < 0)) (dyadicNum z.natAbs base) (dyadicDen base) = (z : ℚ) * (2 : ℚ) ^ base := by
  unfold exactValue
  rw [dyadic_value]
  rcases lt_or_ge z 0 with h | h
  · have hz : ((z.natAbs : Nat) : ℚ) = -z := by
      have h' : ((z.natAbs : Nat) : Int) = -z := by omega
      simpa using congrArg (Int.cast : Int → ℚ) h'
    rw [decide_eq_true h, hz]
    simp
  · have hz : ((z.natAbs : Nat) : ℚ) = z := by
      have h' : ((z.natAbs : Nat) : Int) = z := by omega
      simpa using congrArg (Int.cast : Int → ℚ) h'
    rw [decide_eq_false (by omega), hz]
    simp

/-- What `fround` is given for a decimal. -/
theorem exactValue_decimal (d : Decimal) :
    exactValue d.neg (d.digits * 10 ^ d.exponent.toNat) (10 ^ (-d.exponent).toNat) = decimalValue d := by
  unfold exactValue decimalValue
  rw [mul_assoc]
  congr 1
  obtain h | h := le_total 0 d.exponent
  · obtain ⟨k, hk⟩ := Int.eq_ofNat_of_zero_le h
    simp [hk]
  · obtain ⟨k, hk⟩ := Int.eq_ofNat_of_zero_le (show 0 ≤ -d.exponent by omega)
    obtain he : d.exponent = -(k : Int) := by omega
    simp [he, div_eq_mul_inv]

/-! ### NaN operands -/

theorem fisNaN_toNaN (x : F64) : fisNaN (toNaN x) = true := by
  unfold toNaN
  split
  · assumption
  · decide

theorem fisNaN_nan64 (n : Nat) : fisNaN (nan64 n) = true := fisNaN_toNaN _

theorem fisNaN_propagateNaN (op : FloatOp) (a b : F64) : fisNaN (propagateNaN op a b) = true := fisNaN_toNaN _

/-- A NaN operand is propagated, whatever pattern is drawn (D33, R208). -/
theorem fadd_of_nan (nan : F64) {a b : F64} (h : fisNaN a = true ∨ fisNaN b = true) :
    fadd nan a b = propagateNaN .add a b := by
  simp only [fisNaN_iff] at h
  obtain h | h := h
  · rw [fadd, h]
  · rw [fadd, h]
    cases unpack a <;> rfl

theorem fmul_of_nan (nan : F64) {a b : F64} (h : fisNaN a = true ∨ fisNaN b = true) :
    fmul nan a b = propagateNaN .mul a b := by
  simp only [fisNaN_iff] at h
  obtain h | h := h
  · rw [fmul, h]
  · rw [fmul, h]
    cases unpack a <;> rfl

theorem fdiv_of_nan (nan : F64) {a b : F64} (h : fisNaN a = true ∨ fisNaN b = true) :
    fdiv nan a b = propagateNaN .div a b := by
  simp only [fisNaN_iff] at h
  obtain h | h := h
  · rw [fdiv, h]
  · rw [fdiv, h]
    cases unpack a <;> rfl

theorem fsub_of_nan (nan : F64) {a b : F64} (h : fisNaN a = true ∨ fisNaN b = true) :
    fsub nan a b = propagateNaN .sub a b := by
  rw [fsub, if_pos (by simpa using h)]

/-- A difference of operands that are no NaN is the sum with the second negated. -/
theorem fsub_eq (nan : F64) {a b : F64} (ha : fisNaN a = false) (hb : fisNaN b = false) :
    fsub nan a b = fadd nan a (fnegate b) := by
  rw [fsub, ha, hb]; rfl

/-- A quotient that is no NaN took no draw. -/
theorem fdiv_drawless {nan a b : F64} (nan' : F64) (h : fisNaN nan = true) (hq : fisNaN (fdiv nan a b) = false) :
    fdiv nan' a b = fdiv nan a b := by
  revert hq
  unfold fdiv
  rcases unpack a with _ | s | ⟨s, m, e⟩ <;> rcases unpack b with _ | t | ⟨t, n, f⟩ <;> simp [h]
  by_cases hn : n = 0 <;> by_cases hm : m = 0 <;> simp [hn, hm, h]

/-! ### `pow64` -/

theorem pow64_one : pow64 Config.one = Config.one := by
  rw [pow64, show unpack Config.one = .fin false (2 ^ 52) (-52) by decide]
  simp

theorem pow64_of_nan {x : F64} (h : fisNaN x = true) : fisNaN (pow64 x) = true := by
  rw [fisNaN_iff] at h
  rw [pow64, h]
  exact fisNaN_toNaN _

theorem pow64_of_negative {x : F64} (h : fNegative x = true) : fisNaN (pow64 x) = true := by
  obtain rfl | ⟨m, e, hu, hm⟩ := fNegative_cases h
  · rw [pow64, unpack_finf]
    exact fisNaN_toNaN _
  · rw [pow64, hu]
    simp only [if_neg hm, if_true]
    exact fisNaN_toNaN _

end Sys2Proof.Machine
end

