-- ==== Sys2Proof/Laws/State.lean ====
section
/-! SUPPORT. What each named update of the state does to each field: one lemma a field, each true by rfl, so that no
proof unfolds a record update. -/

namespace Sys2Proof.Machine

/-! ### complete -/

@[simp] theorem complete_cmd (e : ErrCode) (s : State) : (complete e s).cmd = s.cmd := rfl
@[simp] theorem complete_status (e : ErrCode) (s : State) : (complete e s).status = { s.status with done := true, err := e } := rfl
@[simp] theorem complete_ie (e : ErrCode) (s : State) : (complete e s).ie = s.ie := rfl
@[simp] theorem complete_devAddr (e : ErrCode) (s : State) : (complete e s).devAddr = s.devAddr := rfl
@[simp] theorem complete_baseN (e : ErrCode) (s : State) : (complete e s).baseN = s.baseN := rfl
@[simp] theorem complete_settleMs (e : ErrCode) (s : State) : (complete e s).settleMs = s.settleMs := rfl
@[simp] theorem complete_intervalMs (e : ErrCode) (s : State) : (complete e s).intervalMs = s.intervalMs := rfl
@[simp] theorem complete_rawP (e : ErrCode) (s : State) : (complete e s).rawP = s.rawP := rfl
@[simp] theorem complete_rawT (e : ErrCode) (s : State) : (complete e s).rawT = s.rawT := rfl
@[simp] theorem complete_res (e : ErrCode) (s : State) : (complete e s).res = s.res := rfl
@[simp] theorem complete_p0 (e : ErrCode) (s : State) : (complete e s).p0 = s.p0 := rfl
@[simp] theorem complete_t0 (e : ErrCode) (s : State) : (complete e s).t0 = s.t0 := rfl
@[simp] theorem complete_altOffset (e : ErrCode) (s : State) : (complete e s).altOffset = s.altOffset := rfl
@[simp] theorem complete_recalAlt (e : ErrCode) (s : State) : (complete e s).recalAlt = s.recalAlt := rfl
@[simp] theorem complete_altOut (e : ErrCode) (s : State) : (complete e s).altOut = s.altOut := rfl
@[simp] theorem complete_dig (e : ErrCode) (s : State) : (complete e s).dig = s.dig := rfl
@[simp] theorem complete_phase (e : ErrCode) (s : State) : (complete e s).phase = .idle := rfl
@[simp] theorem complete_hostQueue (e : ErrCode) (s : State) : (complete e s).hostQueue = s.hostQueue := rfl
@[simp] theorem complete_observed (e : ErrCode) (s : State) : (complete e s).observed = s.observed := rfl
@[simp] theorem complete_checks (e : ErrCode) (s : State) : (complete e s).checks = s.checks := rfl
@[simp] theorem complete_sensorQueue (e : ErrCode) (s : State) : (complete e s).sensorQueue = s.sensorQueue := rfl
@[simp] theorem complete_busTrace (e : ErrCode) (s : State) : (complete e s).busTrace = s.busTrace := rfl
@[simp] theorem complete_draws (e : ErrCode) (s : State) : (complete e s).draws = s.draws := rfl

/-! ### beginAccept -/

@[simp] theorem beginAccept_cmd (w : Word) (s : State) : (beginAccept w s).cmd = w := rfl
@[simp] theorem beginAccept_status (w : Word) (s : State) : (beginAccept w s).status = { s.status with done := false, err := .ok } := rfl
@[simp] theorem beginAccept_ie (w : Word) (s : State) : (beginAccept w s).ie = s.ie := rfl
@[simp] theorem beginAccept_devAddr (w : Word) (s : State) : (beginAccept w s).devAddr = s.devAddr := rfl
@[simp] theorem beginAccept_baseN (w : Word) (s : State) : (beginAccept w s).baseN = s.baseN := rfl
@[simp] theorem beginAccept_settleMs (w : Word) (s : State) : (beginAccept w s).settleMs = s.settleMs := rfl
@[simp] theorem beginAccept_intervalMs (w : Word) (s : State) : (beginAccept w s).intervalMs = s.intervalMs := rfl
@[simp] theorem beginAccept_rawP (w : Word) (s : State) : (beginAccept w s).rawP = s.rawP := rfl
@[simp] theorem beginAccept_rawT (w : Word) (s : State) : (beginAccept w s).rawT = s.rawT := rfl
@[simp] theorem beginAccept_res (w : Word) (s : State) : (beginAccept w s).res = s.res := rfl
@[simp] theorem beginAccept_p0 (w : Word) (s : State) : (beginAccept w s).p0 = s.p0 := rfl
@[simp] theorem beginAccept_t0 (w : Word) (s : State) : (beginAccept w s).t0 = s.t0 := rfl
@[simp] theorem beginAccept_altOffset (w : Word) (s : State) : (beginAccept w s).altOffset = s.altOffset := rfl
@[simp] theorem beginAccept_recalAlt (w : Word) (s : State) : (beginAccept w s).recalAlt = s.recalAlt := rfl
@[simp] theorem beginAccept_altOut (w : Word) (s : State) : (beginAccept w s).altOut = s.altOut := rfl
@[simp] theorem beginAccept_dig (w : Word) (s : State) : (beginAccept w s).dig = s.dig := rfl
@[simp] theorem beginAccept_phase (w : Word) (s : State) : (beginAccept w s).phase = s.phase := rfl
@[simp] theorem beginAccept_hostQueue (w : Word) (s : State) : (beginAccept w s).hostQueue = s.hostQueue := rfl
@[simp] theorem beginAccept_observed (w : Word) (s : State) : (beginAccept w s).observed = s.observed := rfl
@[simp] theorem beginAccept_checks (w : Word) (s : State) : (beginAccept w s).checks = s.checks := rfl
@[simp] theorem beginAccept_sensorQueue (w : Word) (s : State) : (beginAccept w s).sensorQueue = s.sensorQueue := rfl
@[simp] theorem beginAccept_busTrace (w : Word) (s : State) : (beginAccept w s).busTrace = s.busTrace := rfl
@[simp] theorem beginAccept_draws (w : Word) (s : State) : (beginAccept w s).draws = s.draws := rfl

/-! ### noteOverrun -/

@[simp] theorem noteOverrun_cmd (s : State) : (noteOverrun s).cmd = s.cmd := rfl
@[simp] theorem noteOverrun_status (s : State) : (noteOverrun s).status = { s.status with wrOvr := true } := rfl
@[simp] theorem noteOverrun_ie (s : State) : (noteOverrun s).ie = s.ie := rfl
@[simp] theorem noteOverrun_devAddr (s : State) : (noteOverrun s).devAddr = s.devAddr := rfl
@[simp] theorem noteOverrun_baseN (s : State) : (noteOverrun s).baseN = s.baseN := rfl
@[simp] theorem noteOverrun_settleMs (s : State) : (noteOverrun s).settleMs = s.settleMs := rfl
@[simp] theorem noteOverrun_intervalMs (s : State) : (noteOverrun s).intervalMs = s.intervalMs := rfl
@[simp] theorem noteOverrun_rawP (s : State) : (noteOverrun s).rawP = s.rawP := rfl
@[simp] theorem noteOverrun_rawT (s : State) : (noteOverrun s).rawT = s.rawT := rfl
@[simp] theorem noteOverrun_res (s : State) : (noteOverrun s).res = s.res := rfl
@[simp] theorem noteOverrun_p0 (s : State) : (noteOverrun s).p0 = s.p0 := rfl
@[simp] theorem noteOverrun_t0 (s : State) : (noteOverrun s).t0 = s.t0 := rfl
@[simp] theorem noteOverrun_altOffset (s : State) : (noteOverrun s).altOffset = s.altOffset := rfl
@[simp] theorem noteOverrun_recalAlt (s : State) : (noteOverrun s).recalAlt = s.recalAlt := rfl
@[simp] theorem noteOverrun_altOut (s : State) : (noteOverrun s).altOut = s.altOut := rfl
@[simp] theorem noteOverrun_dig (s : State) : (noteOverrun s).dig = s.dig := rfl
@[simp] theorem noteOverrun_phase (s : State) : (noteOverrun s).phase = s.phase := rfl
@[simp] theorem noteOverrun_hostQueue (s : State) : (noteOverrun s).hostQueue = s.hostQueue := rfl
@[simp] theorem noteOverrun_observed (s : State) : (noteOverrun s).observed = s.observed := rfl
@[simp] theorem noteOverrun_checks (s : State) : (noteOverrun s).checks = s.checks := rfl
@[simp] theorem noteOverrun_sensorQueue (s : State) : (noteOverrun s).sensorQueue = s.sensorQueue := rfl
@[simp] theorem noteOverrun_busTrace (s : State) : (noteOverrun s).busTrace = s.busTrace := rfl
@[simp] theorem noteOverrun_draws (s : State) : (noteOverrun s).draws = s.draws := rfl

/-! ### recordTx -/

@[simp] theorem recordTx_cmd (tx : BusTx) (a : BusResponse) (s : State) : (recordTx tx a s).cmd = s.cmd := rfl
@[simp] theorem recordTx_status (tx : BusTx) (a : BusResponse) (s : State) : (recordTx tx a s).status = s.status := rfl
@[simp] theorem recordTx_ie (tx : BusTx) (a : BusResponse) (s : State) : (recordTx tx a s).ie = s.ie := rfl
@[simp] theorem recordTx_devAddr (tx : BusTx) (a : BusResponse) (s : State) : (recordTx tx a s).devAddr = s.devAddr := rfl
@[simp] theorem recordTx_baseN (tx : BusTx) (a : BusResponse) (s : State) : (recordTx tx a s).baseN = s.baseN := rfl
@[simp] theorem recordTx_settleMs (tx : BusTx) (a : BusResponse) (s : State) : (recordTx tx a s).settleMs = s.settleMs := rfl
@[simp] theorem recordTx_intervalMs (tx : BusTx) (a : BusResponse) (s : State) : (recordTx tx a s).intervalMs = s.intervalMs := rfl
@[simp] theorem recordTx_rawP (tx : BusTx) (a : BusResponse) (s : State) : (recordTx tx a s).rawP = s.rawP := rfl
@[simp] theorem recordTx_rawT (tx : BusTx) (a : BusResponse) (s : State) : (recordTx tx a s).rawT = s.rawT := rfl
@[simp] theorem recordTx_res (tx : BusTx) (a : BusResponse) (s : State) : (recordTx tx a s).res = s.res := rfl
@[simp] theorem recordTx_p0 (tx : BusTx) (a : BusResponse) (s : State) : (recordTx tx a s).p0 = s.p0 := rfl
@[simp] theorem recordTx_t0 (tx : BusTx) (a : BusResponse) (s : State) : (recordTx tx a s).t0 = s.t0 := rfl
@[simp] theorem recordTx_altOffset (tx : BusTx) (a : BusResponse) (s : State) : (recordTx tx a s).altOffset = s.altOffset := rfl
@[simp] theorem recordTx_recalAlt (tx : BusTx) (a : BusResponse) (s : State) : (recordTx tx a s).recalAlt = s.recalAlt := rfl
@[simp] theorem recordTx_altOut (tx : BusTx) (a : BusResponse) (s : State) : (recordTx tx a s).altOut = s.altOut := rfl
@[simp] theorem recordTx_dig (tx : BusTx) (a : BusResponse) (s : State) : (recordTx tx a s).dig = s.dig := rfl
@[simp] theorem recordTx_phase (tx : BusTx) (a : BusResponse) (s : State) : (recordTx tx a s).phase = s.phase := rfl
@[simp] theorem recordTx_hostQueue (tx : BusTx) (a : BusResponse) (s : State) : (recordTx tx a s).hostQueue = s.hostQueue := rfl
@[simp] theorem recordTx_observed (tx : BusTx) (a : BusResponse) (s : State) : (recordTx tx a s).observed = s.observed := rfl
@[simp] theorem recordTx_checks (tx : BusTx) (a : BusResponse) (s : State) : (recordTx tx a s).checks = s.checks := rfl
@[simp] theorem recordTx_sensorQueue (tx : BusTx) (a : BusResponse) (s : State) : (recordTx tx a s).sensorQueue = s.sensorQueue.tail := rfl
@[simp] theorem recordTx_busTrace (tx : BusTx) (a : BusResponse) (s : State) : (recordTx tx a s).busTrace = s.busTrace ++ [(tx, a)] := rfl
@[simp] theorem recordTx_draws (tx : BusTx) (a : BusResponse) (s : State) : (recordTx tx a s).draws = s.draws := rfl

/-! ### usedNaNs -/

@[simp] theorem usedNaNs_cmd (k : Nat) (s : State) : (usedNaNs k s).cmd = s.cmd := rfl
@[simp] theorem usedNaNs_status (k : Nat) (s : State) : (usedNaNs k s).status = s.status := rfl
@[simp] theorem usedNaNs_ie (k : Nat) (s : State) : (usedNaNs k s).ie = s.ie := rfl
@[simp] theorem usedNaNs_devAddr (k : Nat) (s : State) : (usedNaNs k s).devAddr = s.devAddr := rfl
@[simp] theorem usedNaNs_baseN (k : Nat) (s : State) : (usedNaNs k s).baseN = s.baseN := rfl
@[simp] theorem usedNaNs_settleMs (k : Nat) (s : State) : (usedNaNs k s).settleMs = s.settleMs := rfl
@[simp] theorem usedNaNs_intervalMs (k : Nat) (s : State) : (usedNaNs k s).intervalMs = s.intervalMs := rfl
@[simp] theorem usedNaNs_rawP (k : Nat) (s : State) : (usedNaNs k s).rawP = s.rawP := rfl
@[simp] theorem usedNaNs_rawT (k : Nat) (s : State) : (usedNaNs k s).rawT = s.rawT := rfl
@[simp] theorem usedNaNs_res (k : Nat) (s : State) : (usedNaNs k s).res = s.res := rfl
@[simp] theorem usedNaNs_p0 (k : Nat) (s : State) : (usedNaNs k s).p0 = s.p0 := rfl
@[simp] theorem usedNaNs_t0 (k : Nat) (s : State) : (usedNaNs k s).t0 = s.t0 := rfl
@[simp] theorem usedNaNs_altOffset (k : Nat) (s : State) : (usedNaNs k s).altOffset = s.altOffset := rfl
@[simp] theorem usedNaNs_recalAlt (k : Nat) (s : State) : (usedNaNs k s).recalAlt = s.recalAlt := rfl
@[simp] theorem usedNaNs_altOut (k : Nat) (s : State) : (usedNaNs k s).altOut = s.altOut := rfl
@[simp] theorem usedNaNs_dig (k : Nat) (s : State) : (usedNaNs k s).dig = s.dig := rfl
@[simp] theorem usedNaNs_phase (k : Nat) (s : State) : (usedNaNs k s).phase = s.phase := rfl
@[simp] theorem usedNaNs_hostQueue (k : Nat) (s : State) : (usedNaNs k s).hostQueue = s.hostQueue := rfl
@[simp] theorem usedNaNs_observed (k : Nat) (s : State) : (usedNaNs k s).observed = s.observed := rfl
@[simp] theorem usedNaNs_checks (k : Nat) (s : State) : (usedNaNs k s).checks = s.checks := rfl
@[simp] theorem usedNaNs_sensorQueue (k : Nat) (s : State) : (usedNaNs k s).sensorQueue = s.sensorQueue := rfl
@[simp] theorem usedNaNs_busTrace (k : Nat) (s : State) : (usedNaNs k s).busTrace = s.busTrace := rfl
@[simp] theorem usedNaNs_draws (k : Nat) (s : State) : (usedNaNs k s).draws = s.draws + k := rfl

/-! ### popHost -/

@[simp] theorem popHost_cmd (s : State) : (popHost s).cmd = s.cmd := rfl
@[simp] theorem popHost_status (s : State) : (popHost s).status = s.status := rfl
@[simp] theorem popHost_ie (s : State) : (popHost s).ie = s.ie := rfl
@[simp] theorem popHost_devAddr (s : State) : (popHost s).devAddr = s.devAddr := rfl
@[simp] theorem popHost_baseN (s : State) : (popHost s).baseN = s.baseN := rfl
@[simp] theorem popHost_settleMs (s : State) : (popHost s).settleMs = s.settleMs := rfl
@[simp] theorem popHost_intervalMs (s : State) : (popHost s).intervalMs = s.intervalMs := rfl
@[simp] theorem popHost_rawP (s : State) : (popHost s).rawP = s.rawP := rfl
@[simp] theorem popHost_rawT (s : State) : (popHost s).rawT = s.rawT := rfl
@[simp] theorem popHost_res (s : State) : (popHost s).res = s.res := rfl
@[simp] theorem popHost_p0 (s : State) : (popHost s).p0 = s.p0 := rfl
@[simp] theorem popHost_t0 (s : State) : (popHost s).t0 = s.t0 := rfl
@[simp] theorem popHost_altOffset (s : State) : (popHost s).altOffset = s.altOffset := rfl
@[simp] theorem popHost_recalAlt (s : State) : (popHost s).recalAlt = s.recalAlt := rfl
@[simp] theorem popHost_altOut (s : State) : (popHost s).altOut = s.altOut := rfl
@[simp] theorem popHost_dig (s : State) : (popHost s).dig = s.dig := rfl
@[simp] theorem popHost_phase (s : State) : (popHost s).phase = s.phase := rfl
@[simp] theorem popHost_hostQueue (s : State) : (popHost s).hostQueue = s.hostQueue.tail := rfl
@[simp] theorem popHost_observed (s : State) : (popHost s).observed = s.observed := rfl
@[simp] theorem popHost_checks (s : State) : (popHost s).checks = s.checks := rfl
@[simp] theorem popHost_sensorQueue (s : State) : (popHost s).sensorQueue = s.sensorQueue := rfl
@[simp] theorem popHost_busTrace (s : State) : (popHost s).busTrace = s.busTrace := rfl
@[simp] theorem popHost_draws (s : State) : (popHost s).draws = s.draws := rfl

/-! ### observe -/

@[simp] theorem observe_cmd (off : BitVec 8) (s : State) : (observe off s).cmd = s.cmd := rfl
@[simp] theorem observe_status (off : BitVec 8) (s : State) : (observe off s).status = s.status := rfl
@[simp] theorem observe_ie (off : BitVec 8) (s : State) : (observe off s).ie = s.ie := rfl
@[simp] theorem observe_devAddr (off : BitVec 8) (s : State) : (observe off s).devAddr = s.devAddr := rfl
@[simp] theorem observe_baseN (off : BitVec 8) (s : State) : (observe off s).baseN = s.baseN := rfl
@[simp] theorem observe_settleMs (off : BitVec 8) (s : State) : (observe off s).settleMs = s.settleMs := rfl
@[simp] theorem observe_intervalMs (off : BitVec 8) (s : State) : (observe off s).intervalMs = s.intervalMs := rfl
@[simp] theorem observe_rawP (off : BitVec 8) (s : State) : (observe off s).rawP = s.rawP := rfl
@[simp] theorem observe_rawT (off : BitVec 8) (s : State) : (observe off s).rawT = s.rawT := rfl
@[simp] theorem observe_res (off : BitVec 8) (s : State) : (observe off s).res = s.res := rfl
@[simp] theorem observe_p0 (off : BitVec 8) (s : State) : (observe off s).p0 = s.p0 := rfl
@[simp] theorem observe_t0 (off : BitVec 8) (s : State) : (observe off s).t0 = s.t0 := rfl
@[simp] theorem observe_altOffset (off : BitVec 8) (s : State) : (observe off s).altOffset = s.altOffset := rfl
@[simp] theorem observe_recalAlt (off : BitVec 8) (s : State) : (observe off s).recalAlt = s.recalAlt := rfl
@[simp] theorem observe_altOut (off : BitVec 8) (s : State) : (observe off s).altOut = s.altOut := rfl
@[simp] theorem observe_dig (off : BitVec 8) (s : State) : (observe off s).dig = s.dig := rfl
@[simp] theorem observe_phase (off : BitVec 8) (s : State) : (observe off s).phase = s.phase := rfl
@[simp] theorem observe_hostQueue (off : BitVec 8) (s : State) : (observe off s).hostQueue = s.hostQueue := rfl
@[simp] theorem observe_observed (off : BitVec 8) (s : State) : (observe off s).observed = s.observed ++ [hostRead off s] := rfl
@[simp] theorem observe_checks (off : BitVec 8) (s : State) : (observe off s).checks = s.checks := rfl
@[simp] theorem observe_sensorQueue (off : BitVec 8) (s : State) : (observe off s).sensorQueue = s.sensorQueue := rfl
@[simp] theorem observe_busTrace (off : BitVec 8) (s : State) : (observe off s).busTrace = s.busTrace := rfl
@[simp] theorem observe_draws (off : BitVec 8) (s : State) : (observe off s).draws = s.draws := rfl

/-! ### pollBusy -/

@[simp] theorem pollBusy_cmd (s : State) : (pollBusy s).cmd = s.cmd := rfl
@[simp] theorem pollBusy_status (s : State) : (pollBusy s).status = s.status := rfl
@[simp] theorem pollBusy_ie (s : State) : (pollBusy s).ie = s.ie := rfl
@[simp] theorem pollBusy_devAddr (s : State) : (pollBusy s).devAddr = s.devAddr := rfl
@[simp] theorem pollBusy_baseN (s : State) : (pollBusy s).baseN = s.baseN := rfl
@[simp] theorem pollBusy_settleMs (s : State) : (pollBusy s).settleMs = s.settleMs := rfl
@[simp] theorem pollBusy_intervalMs (s : State) : (pollBusy s).intervalMs = s.intervalMs := rfl
@[simp] theorem pollBusy_rawP (s : State) : (pollBusy s).rawP = s.rawP := rfl
@[simp] theorem pollBusy_rawT (s : State) : (pollBusy s).rawT = s.rawT := rfl
@[simp] theorem pollBusy_res (s : State) : (pollBusy s).res = s.res := rfl
@[simp] theorem pollBusy_p0 (s : State) : (pollBusy s).p0 = s.p0 := rfl
@[simp] theorem pollBusy_t0 (s : State) : (pollBusy s).t0 = s.t0 := rfl
@[simp] theorem pollBusy_altOffset (s : State) : (pollBusy s).altOffset = s.altOffset := rfl
@[simp] theorem pollBusy_recalAlt (s : State) : (pollBusy s).recalAlt = s.recalAlt := rfl
@[simp] theorem pollBusy_altOut (s : State) : (pollBusy s).altOut = s.altOut := rfl
@[simp] theorem pollBusy_dig (s : State) : (pollBusy s).dig = s.dig := rfl
@[simp] theorem pollBusy_phase (s : State) : (pollBusy s).phase = s.phase := rfl
@[simp] theorem pollBusy_hostQueue (s : State) : (pollBusy s).hostQueue = (if (hostRead RegName.status.offset s).getLsbD 0 then .pause :: .wait :: s.hostQueue else s.hostQueue) := rfl
@[simp] theorem pollBusy_observed (s : State) : (pollBusy s).observed = s.observed ++ [hostRead RegName.status.offset s] := rfl
@[simp] theorem pollBusy_checks (s : State) : (pollBusy s).checks = s.checks := rfl
@[simp] theorem pollBusy_sensorQueue (s : State) : (pollBusy s).sensorQueue = s.sensorQueue := rfl
@[simp] theorem pollBusy_busTrace (s : State) : (pollBusy s).busTrace = s.busTrace := rfl
@[simp] theorem pollBusy_draws (s : State) : (pollBusy s).draws = s.draws := rfl

/-! ### recordCheck -/

@[simp] theorem recordCheck_cmd (want : List (BitVec 8 × Word)) (s : State) : (recordCheck want s).cmd = s.cmd := rfl
@[simp] theorem recordCheck_status (want : List (BitVec 8 × Word)) (s : State) : (recordCheck want s).status = s.status := rfl
@[simp] theorem recordCheck_ie (want : List (BitVec 8 × Word)) (s : State) : (recordCheck want s).ie = s.ie := rfl
@[simp] theorem recordCheck_devAddr (want : List (BitVec 8 × Word)) (s : State) : (recordCheck want s).devAddr = s.devAddr := rfl
@[simp] theorem recordCheck_baseN (want : List (BitVec 8 × Word)) (s : State) : (recordCheck want s).baseN = s.baseN := rfl
@[simp] theorem recordCheck_settleMs (want : List (BitVec 8 × Word)) (s : State) : (recordCheck want s).settleMs = s.settleMs := rfl
@[simp] theorem recordCheck_intervalMs (want : List (BitVec 8 × Word)) (s : State) : (recordCheck want s).intervalMs = s.intervalMs := rfl
@[simp] theorem recordCheck_rawP (want : List (BitVec 8 × Word)) (s : State) : (recordCheck want s).rawP = s.rawP := rfl
@[simp] theorem recordCheck_rawT (want : List (BitVec 8 × Word)) (s : State) : (recordCheck want s).rawT = s.rawT := rfl
@[simp] theorem recordCheck_res (want : List (BitVec 8 × Word)) (s : State) : (recordCheck want s).res = s.res := rfl
@[simp] theorem recordCheck_p0 (want : List (BitVec 8 × Word)) (s : State) : (recordCheck want s).p0 = s.p0 := rfl
@[simp] theorem recordCheck_t0 (want : List (BitVec 8 × Word)) (s : State) : (recordCheck want s).t0 = s.t0 := rfl
@[simp] theorem recordCheck_altOffset (want : List (BitVec 8 × Word)) (s : State) : (recordCheck want s).altOffset = s.altOffset := rfl
@[simp] theorem recordCheck_recalAlt (want : List (BitVec 8 × Word)) (s : State) : (recordCheck want s).recalAlt = s.recalAlt := rfl
@[simp] theorem recordCheck_altOut (want : List (BitVec 8 × Word)) (s : State) : (recordCheck want s).altOut = s.altOut := rfl
@[simp] theorem recordCheck_dig (want : List (BitVec 8 × Word)) (s : State) : (recordCheck want s).dig = s.dig := rfl
@[simp] theorem recordCheck_phase (want : List (BitVec 8 × Word)) (s : State) : (recordCheck want s).phase = s.phase := rfl
@[simp] theorem recordCheck_hostQueue (want : List (BitVec 8 × Word)) (s : State) : (recordCheck want s).hostQueue = s.hostQueue := rfl
@[simp] theorem recordCheck_observed (want : List (BitVec 8 × Word)) (s : State) : (recordCheck want s).observed = s.observed := rfl
@[simp] theorem recordCheck_checks (want : List (BitVec 8 × Word)) (s : State) : (recordCheck want s).checks = s.checks ++ [expectHolds want s] := rfl
@[simp] theorem recordCheck_sensorQueue (want : List (BitVec 8 × Word)) (s : State) : (recordCheck want s).sensorQueue = s.sensorQueue := rfl
@[simp] theorem recordCheck_busTrace (want : List (BitVec 8 × Word)) (s : State) : (recordCheck want s).busTrace = s.busTrace := rfl
@[simp] theorem recordCheck_draws (want : List (BitVec 8 × Word)) (s : State) : (recordCheck want s).draws = s.draws := rfl

/-! ### commitCfg -/

@[simp] theorem commitCfg_cmd (s : State) : (commitCfg s).cmd = s.cmd := rfl
@[simp] theorem commitCfg_status (s : State) : (commitCfg s).status = { s.status with cfgDone := true } := rfl
@[simp] theorem commitCfg_ie (s : State) : (commitCfg s).ie = s.ie := rfl
@[simp] theorem commitCfg_devAddr (s : State) : (commitCfg s).devAddr = s.devAddr := rfl
@[simp] theorem commitCfg_baseN (s : State) : (commitCfg s).baseN = s.baseN := rfl
@[simp] theorem commitCfg_settleMs (s : State) : (commitCfg s).settleMs = s.settleMs := rfl
@[simp] theorem commitCfg_intervalMs (s : State) : (commitCfg s).intervalMs = s.intervalMs := rfl
@[simp] theorem commitCfg_rawP (s : State) : (commitCfg s).rawP = s.rawP := rfl
@[simp] theorem commitCfg_rawT (s : State) : (commitCfg s).rawT = s.rawT := rfl
@[simp] theorem commitCfg_res (s : State) : (commitCfg s).res = s.res := rfl
@[simp] theorem commitCfg_p0 (s : State) : (commitCfg s).p0 = s.p0 := rfl
@[simp] theorem commitCfg_t0 (s : State) : (commitCfg s).t0 = s.t0 := rfl
@[simp] theorem commitCfg_altOffset (s : State) : (commitCfg s).altOffset = s.altOffset := rfl
@[simp] theorem commitCfg_recalAlt (s : State) : (commitCfg s).recalAlt = s.recalAlt := rfl
@[simp] theorem commitCfg_altOut (s : State) : (commitCfg s).altOut = s.altOut := rfl
@[simp] theorem commitCfg_dig (s : State) : (commitCfg s).dig = s.dig := rfl
@[simp] theorem commitCfg_phase (s : State) : (commitCfg s).phase = s.phase := rfl
@[simp] theorem commitCfg_hostQueue (s : State) : (commitCfg s).hostQueue = s.hostQueue := rfl
@[simp] theorem commitCfg_observed (s : State) : (commitCfg s).observed = s.observed := rfl
@[simp] theorem commitCfg_checks (s : State) : (commitCfg s).checks = s.checks := rfl
@[simp] theorem commitCfg_sensorQueue (s : State) : (commitCfg s).sensorQueue = s.sensorQueue := rfl
@[simp] theorem commitCfg_busTrace (s : State) : (commitCfg s).busTrace = s.busTrace := rfl
@[simp] theorem commitCfg_draws (s : State) : (commitCfg s).draws = s.draws := rfl

/-! ### commitCal -/

@[simp] theorem commitCal_cmd (b : List Byte) (s : State) : (commitCal b s).cmd = s.cmd := rfl
@[simp] theorem commitCal_status (b : List Byte) (s : State) : (commitCal b s).status = { s.status with calValid := true } := rfl
@[simp] theorem commitCal_ie (b : List Byte) (s : State) : (commitCal b s).ie = s.ie := rfl
@[simp] theorem commitCal_devAddr (b : List Byte) (s : State) : (commitCal b s).devAddr = s.devAddr := rfl
@[simp] theorem commitCal_baseN (b : List Byte) (s : State) : (commitCal b s).baseN = s.baseN := rfl
@[simp] theorem commitCal_settleMs (b : List Byte) (s : State) : (commitCal b s).settleMs = s.settleMs := rfl
@[simp] theorem commitCal_intervalMs (b : List Byte) (s : State) : (commitCal b s).intervalMs = s.intervalMs := rfl
@[simp] theorem commitCal_rawP (b : List Byte) (s : State) : (commitCal b s).rawP = s.rawP := rfl
@[simp] theorem commitCal_rawT (b : List Byte) (s : State) : (commitCal b s).rawT = s.rawT := rfl
@[simp] theorem commitCal_res (b : List Byte) (s : State) : (commitCal b s).res = s.res := rfl
@[simp] theorem commitCal_p0 (b : List Byte) (s : State) : (commitCal b s).p0 = s.p0 := rfl
@[simp] theorem commitCal_t0 (b : List Byte) (s : State) : (commitCal b s).t0 = s.t0 := rfl
@[simp] theorem commitCal_altOffset (b : List Byte) (s : State) : (commitCal b s).altOffset = s.altOffset := rfl
@[simp] theorem commitCal_recalAlt (b : List Byte) (s : State) : (commitCal b s).recalAlt = s.recalAlt := rfl
@[simp] theorem commitCal_altOut (b : List Byte) (s : State) : (commitCal b s).altOut = s.altOut := rfl
@[simp] theorem commitCal_dig (b : List Byte) (s : State) : (commitCal b s).dig = calDecode b := rfl
@[simp] theorem commitCal_phase (b : List Byte) (s : State) : (commitCal b s).phase = s.phase := rfl
@[simp] theorem commitCal_hostQueue (b : List Byte) (s : State) : (commitCal b s).hostQueue = s.hostQueue := rfl
@[simp] theorem commitCal_observed (b : List Byte) (s : State) : (commitCal b s).observed = s.observed := rfl
@[simp] theorem commitCal_checks (b : List Byte) (s : State) : (commitCal b s).checks = s.checks := rfl
@[simp] theorem commitCal_sensorQueue (b : List Byte) (s : State) : (commitCal b s).sensorQueue = s.sensorQueue := rfl
@[simp] theorem commitCal_busTrace (b : List Byte) (s : State) : (commitCal b s).busTrace = s.busTrace := rfl
@[simp] theorem commitCal_draws (b : List Byte) (s : State) : (commitCal b s).draws = s.draws := rfl

/-! ### commitRaw -/

@[simp] theorem commitRaw_cmd (b : List Byte) (s : State) : (commitRaw b s).cmd = s.cmd := rfl
@[simp] theorem commitRaw_status (b : List Byte) (s : State) : (commitRaw b s).status = noteRaw s.status := rfl
@[simp] theorem commitRaw_ie (b : List Byte) (s : State) : (commitRaw b s).ie = s.ie := rfl
@[simp] theorem commitRaw_devAddr (b : List Byte) (s : State) : (commitRaw b s).devAddr = s.devAddr := rfl
@[simp] theorem commitRaw_baseN (b : List Byte) (s : State) : (commitRaw b s).baseN = s.baseN := rfl
@[simp] theorem commitRaw_settleMs (b : List Byte) (s : State) : (commitRaw b s).settleMs = s.settleMs := rfl
@[simp] theorem commitRaw_intervalMs (b : List Byte) (s : State) : (commitRaw b s).intervalMs = s.intervalMs := rfl
@[simp] theorem commitRaw_rawP (b : List Byte) (s : State) : (commitRaw b s).rawP = rawPressure b := rfl
@[simp] theorem commitRaw_rawT (b : List Byte) (s : State) : (commitRaw b s).rawT = rawTemperature b := rfl
@[simp] theorem commitRaw_res (b : List Byte) (s : State) : (commitRaw b s).res = s.res := rfl
@[simp] theorem commitRaw_p0 (b : List Byte) (s : State) : (commitRaw b s).p0 = s.p0 := rfl
@[simp] theorem commitRaw_t0 (b : List Byte) (s : State) : (commitRaw b s).t0 = s.t0 := rfl
@[simp] theorem commitRaw_altOffset (b : List Byte) (s : State) : (commitRaw b s).altOffset = s.altOffset := rfl
@[simp] theorem commitRaw_recalAlt (b : List Byte) (s : State) : (commitRaw b s).recalAlt = s.recalAlt := rfl
@[simp] theorem commitRaw_altOut (b : List Byte) (s : State) : (commitRaw b s).altOut = s.altOut := rfl
@[simp] theorem commitRaw_dig (b : List Byte) (s : State) : (commitRaw b s).dig = s.dig := rfl
@[simp] theorem commitRaw_phase (b : List Byte) (s : State) : (commitRaw b s).phase = s.phase := rfl
@[simp] theorem commitRaw_hostQueue (b : List Byte) (s : State) : (commitRaw b s).hostQueue = s.hostQueue := rfl
@[simp] theorem commitRaw_observed (b : List Byte) (s : State) : (commitRaw b s).observed = s.observed := rfl
@[simp] theorem commitRaw_checks (b : List Byte) (s : State) : (commitRaw b s).checks = s.checks := rfl
@[simp] theorem commitRaw_sensorQueue (b : List Byte) (s : State) : (commitRaw b s).sensorQueue = s.sensorQueue := rfl
@[simp] theorem commitRaw_busTrace (b : List Byte) (s : State) : (commitRaw b s).busTrace = s.busTrace := rfl
@[simp] theorem commitRaw_draws (b : List Byte) (s : State) : (commitRaw b s).draws = s.draws := rfl

/-! ### commitComp -/

@[simp] theorem commitComp_cmd (r : CompResult) (s : State) : (commitComp r s).cmd = s.cmd := rfl
@[simp] theorem commitComp_status (r : CompResult) (s : State) : (commitComp r s).status = { s.status with pinv := r.pinv, resValid := true } := rfl
@[simp] theorem commitComp_ie (r : CompResult) (s : State) : (commitComp r s).ie = s.ie := rfl
@[simp] theorem commitComp_devAddr (r : CompResult) (s : State) : (commitComp r s).devAddr = s.devAddr := rfl
@[simp] theorem commitComp_baseN (r : CompResult) (s : State) : (commitComp r s).baseN = s.baseN := rfl
@[simp] theorem commitComp_settleMs (r : CompResult) (s : State) : (commitComp r s).settleMs = s.settleMs := rfl
@[simp] theorem commitComp_intervalMs (r : CompResult) (s : State) : (commitComp r s).intervalMs = s.intervalMs := rfl
@[simp] theorem commitComp_rawP (r : CompResult) (s : State) : (commitComp r s).rawP = s.rawP := rfl
@[simp] theorem commitComp_rawT (r : CompResult) (s : State) : (commitComp r s).rawT = s.rawT := rfl
@[simp] theorem commitComp_res (r : CompResult) (s : State) : (commitComp r s).res = r.res := rfl
@[simp] theorem commitComp_p0 (r : CompResult) (s : State) : (commitComp r s).p0 = s.p0 := rfl
@[simp] theorem commitComp_t0 (r : CompResult) (s : State) : (commitComp r s).t0 = s.t0 := rfl
@[simp] theorem commitComp_altOffset (r : CompResult) (s : State) : (commitComp r s).altOffset = s.altOffset := rfl
@[simp] theorem commitComp_recalAlt (r : CompResult) (s : State) : (commitComp r s).recalAlt = s.recalAlt := rfl
@[simp] theorem commitComp_altOut (r : CompResult) (s : State) : (commitComp r s).altOut = s.altOut := rfl
@[simp] theorem commitComp_dig (r : CompResult) (s : State) : (commitComp r s).dig = s.dig := rfl
@[simp] theorem commitComp_phase (r : CompResult) (s : State) : (commitComp r s).phase = s.phase := rfl
@[simp] theorem commitComp_hostQueue (r : CompResult) (s : State) : (commitComp r s).hostQueue = s.hostQueue := rfl
@[simp] theorem commitComp_observed (r : CompResult) (s : State) : (commitComp r s).observed = s.observed := rfl
@[simp] theorem commitComp_checks (r : CompResult) (s : State) : (commitComp r s).checks = s.checks := rfl
@[simp] theorem commitComp_sensorQueue (r : CompResult) (s : State) : (commitComp r s).sensorQueue = s.sensorQueue := rfl
@[simp] theorem commitComp_busTrace (r : CompResult) (s : State) : (commitComp r s).busTrace = s.busTrace := rfl
@[simp] theorem commitComp_draws (r : CompResult) (s : State) : (commitComp r s).draws = s.draws := rfl

/-! ### commitBase -/

@[simp] theorem commitBase_cmd (x y : F64) (s : State) : (commitBase x y s).cmd = s.cmd := rfl
@[simp] theorem commitBase_status (x y : F64) (s : State) : (commitBase x y s).status = { s.status with baseValid := true } := rfl
@[simp] theorem commitBase_ie (x y : F64) (s : State) : (commitBase x y s).ie = s.ie := rfl
@[simp] theorem commitBase_devAddr (x y : F64) (s : State) : (commitBase x y s).devAddr = s.devAddr := rfl
@[simp] theorem commitBase_baseN (x y : F64) (s : State) : (commitBase x y s).baseN = s.baseN := rfl
@[simp] theorem commitBase_settleMs (x y : F64) (s : State) : (commitBase x y s).settleMs = s.settleMs := rfl
@[simp] theorem commitBase_intervalMs (x y : F64) (s : State) : (commitBase x y s).intervalMs = s.intervalMs := rfl
@[simp] theorem commitBase_rawP (x y : F64) (s : State) : (commitBase x y s).rawP = s.rawP := rfl
@[simp] theorem commitBase_rawT (x y : F64) (s : State) : (commitBase x y s).rawT = s.rawT := rfl
@[simp] theorem commitBase_res (x y : F64) (s : State) : (commitBase x y s).res = s.res := rfl
@[simp] theorem commitBase_p0 (x y : F64) (s : State) : (commitBase x y s).p0 = baselinePressure s.nan s.baseN x := rfl
@[simp] theorem commitBase_t0 (x y : F64) (s : State) : (commitBase x y s).t0 = baselineKelvin s.nan s.baseN y := rfl
@[simp] theorem commitBase_altOffset (x y : F64) (s : State) : (commitBase x y s).altOffset = fzero false := rfl
@[simp] theorem commitBase_recalAlt (x y : F64) (s : State) : (commitBase x y s).recalAlt = s.recalAlt := rfl
@[simp] theorem commitBase_altOut (x y : F64) (s : State) : (commitBase x y s).altOut = s.altOut := rfl
@[simp] theorem commitBase_dig (x y : F64) (s : State) : (commitBase x y s).dig = s.dig := rfl
@[simp] theorem commitBase_phase (x y : F64) (s : State) : (commitBase x y s).phase = s.phase := rfl
@[simp] theorem commitBase_hostQueue (x y : F64) (s : State) : (commitBase x y s).hostQueue = s.hostQueue := rfl
@[simp] theorem commitBase_observed (x y : F64) (s : State) : (commitBase x y s).observed = s.observed := rfl
@[simp] theorem commitBase_checks (x y : F64) (s : State) : (commitBase x y s).checks = s.checks := rfl
@[simp] theorem commitBase_sensorQueue (x y : F64) (s : State) : (commitBase x y s).sensorQueue = s.sensorQueue := rfl
@[simp] theorem commitBase_busTrace (x y : F64) (s : State) : (commitBase x y s).busTrace = s.busTrace := rfl
@[simp] theorem commitBase_draws (x y : F64) (s : State) : (commitBase x y s).draws = s.draws := rfl

/-! ### commitAlt -/

@[simp] theorem commitAlt_cmd (s : State) : (commitAlt s).cmd = s.cmd := rfl
@[simp] theorem commitAlt_status (s : State) : (commitAlt s).status = s.status := rfl
@[simp] theorem commitAlt_ie (s : State) : (commitAlt s).ie = s.ie := rfl
@[simp] theorem commitAlt_devAddr (s : State) : (commitAlt s).devAddr = s.devAddr := rfl
@[simp] theorem commitAlt_baseN (s : State) : (commitAlt s).baseN = s.baseN := rfl
@[simp] theorem commitAlt_settleMs (s : State) : (commitAlt s).settleMs = s.settleMs := rfl
@[simp] theorem commitAlt_intervalMs (s : State) : (commitAlt s).intervalMs = s.intervalMs := rfl
@[simp] theorem commitAlt_rawP (s : State) : (commitAlt s).rawP = s.rawP := rfl
@[simp] theorem commitAlt_rawT (s : State) : (commitAlt s).rawT = s.rawT := rfl
@[simp] theorem commitAlt_res (s : State) : (commitAlt s).res = s.res := rfl
@[simp] theorem commitAlt_p0 (s : State) : (commitAlt s).p0 = s.p0 := rfl
@[simp] theorem commitAlt_t0 (s : State) : (commitAlt s).t0 = s.t0 := rfl
@[simp] theorem commitAlt_altOffset (s : State) : (commitAlt s).altOffset = s.altOffset := rfl
@[simp] theorem commitAlt_recalAlt (s : State) : (commitAlt s).recalAlt = s.recalAlt := rfl
@[simp] theorem commitAlt_altOut (s : State) : (commitAlt s).altOut = altitudeFormula s.nan s.res.pressHpa s.p0 s.t0 s.altOffset := rfl
@[simp] theorem commitAlt_dig (s : State) : (commitAlt s).dig = s.dig := rfl
@[simp] theorem commitAlt_phase (s : State) : (commitAlt s).phase = s.phase := rfl
@[simp] theorem commitAlt_hostQueue (s : State) : (commitAlt s).hostQueue = s.hostQueue := rfl
@[simp] theorem commitAlt_observed (s : State) : (commitAlt s).observed = s.observed := rfl
@[simp] theorem commitAlt_checks (s : State) : (commitAlt s).checks = s.checks := rfl
@[simp] theorem commitAlt_sensorQueue (s : State) : (commitAlt s).sensorQueue = s.sensorQueue := rfl
@[simp] theorem commitAlt_busTrace (s : State) : (commitAlt s).busTrace = s.busTrace := rfl
@[simp] theorem commitAlt_draws (s : State) : (commitAlt s).draws = s.draws := rfl

/-! ### commitRebase -/

@[simp] theorem commitRebase_cmd (s : State) : (commitRebase s).cmd = s.cmd := rfl
@[simp] theorem commitRebase_status (s : State) : (commitRebase s).status = { s.status with baseValid := true } := rfl
@[simp] theorem commitRebase_ie (s : State) : (commitRebase s).ie = s.ie := rfl
@[simp] theorem commitRebase_devAddr (s : State) : (commitRebase s).devAddr = s.devAddr := rfl
@[simp] theorem commitRebase_baseN (s : State) : (commitRebase s).baseN = s.baseN := rfl
@[simp] theorem commitRebase_settleMs (s : State) : (commitRebase s).settleMs = s.settleMs := rfl
@[simp] theorem commitRebase_intervalMs (s : State) : (commitRebase s).intervalMs = s.intervalMs := rfl
@[simp] theorem commitRebase_rawP (s : State) : (commitRebase s).rawP = s.rawP := rfl
@[simp] theorem commitRebase_rawT (s : State) : (commitRebase s).rawT = s.rawT := rfl
@[simp] theorem commitRebase_res (s : State) : (commitRebase s).res = s.res := rfl
@[simp] theorem commitRebase_p0 (s : State) : (commitRebase s).p0 = s.res.pressHpa := rfl
@[simp] theorem commitRebase_t0 (s : State) : (commitRebase s).t0 = fadd (s.nan 0) s.res.tempC Config.kelvinZero := rfl
@[simp] theorem commitRebase_altOffset (s : State) : (commitRebase s).altOffset = s.recalAlt := rfl
@[simp] theorem commitRebase_recalAlt (s : State) : (commitRebase s).recalAlt = s.recalAlt := rfl
@[simp] theorem commitRebase_altOut (s : State) : (commitRebase s).altOut = s.altOut := rfl
@[simp] theorem commitRebase_dig (s : State) : (commitRebase s).dig = s.dig := rfl
@[simp] theorem commitRebase_phase (s : State) : (commitRebase s).phase = s.phase := rfl
@[simp] theorem commitRebase_hostQueue (s : State) : (commitRebase s).hostQueue = s.hostQueue := rfl
@[simp] theorem commitRebase_observed (s : State) : (commitRebase s).observed = s.observed := rfl
@[simp] theorem commitRebase_checks (s : State) : (commitRebase s).checks = s.checks := rfl
@[simp] theorem commitRebase_sensorQueue (s : State) : (commitRebase s).sensorQueue = s.sensorQueue := rfl
@[simp] theorem commitRebase_busTrace (s : State) : (commitRebase s).busTrace = s.busTrace := rfl
@[simp] theorem commitRebase_draws (s : State) : (commitRebase s).draws = s.draws := rfl

/-! ### noteOvf -/

@[simp] theorem noteOvf_done (o : Bool) (st : Status) : (noteOvf o st).done = st.done := rfl
@[simp] theorem noteOvf_cfgDone (o : Bool) (st : Status) : (noteOvf o st).cfgDone = st.cfgDone := rfl
@[simp] theorem noteOvf_calValid (o : Bool) (st : Status) : (noteOvf o st).calValid = st.calValid := rfl
@[simp] theorem noteOvf_rawValid (o : Bool) (st : Status) : (noteOvf o st).rawValid = st.rawValid := rfl
@[simp] theorem noteOvf_resValid (o : Bool) (st : Status) : (noteOvf o st).resValid = st.resValid := rfl
@[simp] theorem noteOvf_baseValid (o : Bool) (st : Status) : (noteOvf o st).baseValid = st.baseValid := rfl
@[simp] theorem noteOvf_pinv (o : Bool) (st : Status) : (noteOvf o st).pinv = st.pinv := rfl
@[simp] theorem noteOvf_ovf (o : Bool) (st : Status) : (noteOvf o st).ovf = (st.ovf || o) := rfl
@[simp] theorem noteOvf_wrOvr (o : Bool) (st : Status) : (noteOvf o st).wrOvr = st.wrOvr := rfl
@[simp] theorem noteOvf_err (o : Bool) (st : Status) : (noteOvf o st).err = st.err := rfl

/-! ### noteRaw -/

@[simp] theorem noteRaw_done (st : Status) : (noteRaw st).done = st.done := rfl
@[simp] theorem noteRaw_cfgDone (st : Status) : (noteRaw st).cfgDone = st.cfgDone := rfl
@[simp] theorem noteRaw_calValid (st : Status) : (noteRaw st).calValid = st.calValid := rfl
@[simp] theorem noteRaw_rawValid (st : Status) : (noteRaw st).rawValid = true := rfl
@[simp] theorem noteRaw_resValid (st : Status) : (noteRaw st).resValid = st.resValid := rfl
@[simp] theorem noteRaw_baseValid (st : Status) : (noteRaw st).baseValid = st.baseValid := rfl
@[simp] theorem noteRaw_pinv (st : Status) : (noteRaw st).pinv = st.pinv := rfl
@[simp] theorem noteRaw_ovf (st : Status) : (noteRaw st).ovf = st.ovf := rfl
@[simp] theorem noteRaw_wrOvr (st : Status) : (noteRaw st).wrOvr = st.wrOvr := rfl
@[simp] theorem noteRaw_err (st : Status) : (noteRaw st).err = st.err := rfl

/-! ### statusClear -/

@[simp] theorem statusClear_done (v : Word) (st : Status) : (statusClear v st).done = (st.done && !v.getLsbD 1) := rfl
@[simp] theorem statusClear_cfgDone (v : Word) (st : Status) : (statusClear v st).cfgDone = st.cfgDone := rfl
@[simp] theorem statusClear_calValid (v : Word) (st : Status) : (statusClear v st).calValid = st.calValid := rfl
@[simp] theorem statusClear_rawValid (v : Word) (st : Status) : (statusClear v st).rawValid = st.rawValid := rfl
@[simp] theorem statusClear_resValid (v : Word) (st : Status) : (statusClear v st).resValid = st.resValid := rfl
@[simp] theorem statusClear_baseValid (v : Word) (st : Status) : (statusClear v st).baseValid = st.baseValid := rfl
@[simp] theorem statusClear_pinv (v : Word) (st : Status) : (statusClear v st).pinv = st.pinv := rfl
@[simp] theorem statusClear_ovf (v : Word) (st : Status) : (statusClear v st).ovf = (st.ovf && !v.getLsbD 8) := rfl
@[simp] theorem statusClear_wrOvr (v : Word) (st : Status) : (statusClear v st).wrOvr = (st.wrOvr && !v.getLsbD 9) := rfl
@[simp] theorem statusClear_err (v : Word) (st : Status) : (statusClear v st).err = st.err := rfl

end Sys2Proof.Machine
end

