-- ==== Sys2Proof/Laws/Ops.lean ====
section
/-! SUPPORT. What the shared operations can do, said once: the bus port, a move of a stage, the sequencer, acceptance. -/

namespace Sys2Proof.Machine

/-! ### The bus port -/

/-- The transactions the stages issue are inside the interface (R64, R65). -/
@[simp] theorem wf_measurementCtrl (d : BitVec 7) : (BusTx.write d 0xF4 [0x57]).wf = true := by decide +revert
@[simp] theorem wf_config (d : BitVec 7) : (BusTx.write d 0xF5 [0x10]).wf = true := by decide +revert
@[simp] theorem wf_calibration (d : BitVec 7) : (BusTx.read d 0x88 24).wf = true := by decide +revert
@[simp] theorem wf_raw (d : BitVec 7) : (BusTx.read d 0xF7 6).wf = true := by decide +revert

/-- Everything a request inside the interface can do. -/
theorem transact_cases {tx : BusTx} (h : tx.wf = true) (k : List Byte → Point) (s : State) :
    (∃ b, nextAnswer tx s = .data b ∧ tx.answeredBy b = true ∧ transact tx k s = .goto (k b) (recordTx tx (.data b) s)) ∨
    (∃ a, nextAnswer tx s = a ∧ (a = .error ∨ ∃ b, a = .data b ∧ tx.answeredBy b = false) ∧
      transact tx k s = .raise .ebus (recordTx tx a s)) ∨
    (nextAnswer tx s = .silent ∧ transact tx k s = .stay s) := by
  unfold transact
  rw [if_pos h]
  rcases hn : nextAnswer tx s with b | _ | _
  · by_cases ha : tx.answeredBy b = true
    · exact .inl ⟨b, rfl, ha, by simp [ha]⟩
    · exact .inr (.inl ⟨.data b, rfl, .inr ⟨b, rfl, by simpa using ha⟩, by simp [ha]⟩)
  · exact .inr (.inl ⟨.error, rfl, .inl rfl, rfl⟩)
  · exact .inr (.inr ⟨rfl, rfl⟩)

theorem transact_data {tx : BusTx} {b : List Byte} {s : State} (h : tx.wf = true) (hn : nextAnswer tx s = .data b)
    (ha : tx.answeredBy b = true) (k : List Byte → Point) :
    transact tx k s = .goto (k b) (recordTx tx (.data b) s) := by
  simp [transact, h, hn, ha]

theorem transact_short {tx : BusTx} {b : List Byte} {s : State} (h : tx.wf = true) (hn : nextAnswer tx s = .data b)
    (ha : tx.answeredBy b = false) (k : List Byte → Point) :
    transact tx k s = .raise .ebus (recordTx tx (.data b) s) := by
  simp [transact, h, hn, ha]

theorem transact_error {tx : BusTx} {s : State} (h : tx.wf = true) (hn : nextAnswer tx s = .error)
    (k : List Byte → Point) : transact tx k s = .raise .ebus (recordTx tx .error s) := by
  simp [transact, h, hn]

theorem transact_silent {tx : BusTx} {s : State} (h : tx.wf = true) (hn : nextAnswer tx s = .silent)
    (k : List Byte → Point) : transact tx k s = .stay s := by
  simp [transact, h, hn]

/-- A scripted answer is the next answer. -/
theorem nextAnswer_scripted {tx : BusTx} {s : State} {a : BusResponse} {rest : List BusResponse}
    (h : s.sensorQueue = a :: rest) : nextAnswer tx s = a := by
  simp [nextAnswer, h]

/-! ### A move -/

/-- The state a move leaves, if it is not refused. -/
def moveState : Move → Option State
  | .goto _ s | .commit s | .raise _ s | .stay s => some s
  | .refuse _ => none

/-- What no move of any stage touches (R26, R30, R203): CMD, CTRL, the argument registers, the phase and the host
side; in STATUS, DONE, ERR and WR_OVR; and it clears no validity bit and not OVF (R24, R28). -/
structure MoveFrame (s t : State) : Prop where
  cmd : t.cmd = s.cmd
  ie : t.ie = s.ie
  devAddr : t.devAddr = s.devAddr
  baseN : t.baseN = s.baseN
  settleMs : t.settleMs = s.settleMs
  intervalMs : t.intervalMs = s.intervalMs
  recalAlt : t.recalAlt = s.recalAlt
  phase : t.phase = s.phase
  hostQueue : t.hostQueue = s.hostQueue
  observed : t.observed = s.observed
  checks : t.checks = s.checks
  done : t.status.done = s.status.done
  err : t.status.err = s.status.err
  wrOvr : t.status.wrOvr = s.status.wrOvr
  cfgDone : s.status.cfgDone = true → t.status.cfgDone = true
  calValid : s.status.calValid = true → t.status.calValid = true
  rawValid : s.status.rawValid = true → t.status.rawValid = true
  resValid : s.status.resValid = true → t.status.resValid = true
  baseValid : s.status.baseValid = true → t.status.baseValid = true
  ovf : s.status.ovf = true → t.status.ovf = true

theorem MoveFrame.refl (s : State) : MoveFrame s s := by constructor <;> simp

theorem recordTx_frame (tx : BusTx) (a : BusResponse) (s : State) : MoveFrame s (recordTx tx a s) := by
  constructor <;> simp

/-- A bus transaction is never refused when the request is inside the interface, and keeps the frame. -/
theorem transact_frame {tx : BusTx} (h : tx.wf = true) (k : List Byte → Point) (s : State) :
    ∃ t, moveState (transact tx k s) = some t ∧ MoveFrame s t := by
  obtain ⟨b, -, -, e⟩ | ⟨a, -, -, e⟩ | ⟨-, e⟩ := transact_cases h k s <;> rw [e]
  · exact ⟨_, rfl, recordTx_frame _ _ s⟩
  · exact ⟨_, rfl, recordTx_frame _ _ s⟩
  · exact ⟨_, rfl, MoveFrame.refl s⟩

/-- Every move leaves a state, within the frame. -/
theorem move_frame (p : Point) (s : State) : ∃ t, moveState (move p s) = some t ∧ MoveFrame s t := by
  cases p with
  | cfgFirst => exact transact_frame (wf_measurementCtrl _) _ s
  | cfgSecond => exact transact_frame (wf_config _) _ s
  | calRead => exact transact_frame (wf_calibration _) _ s
  | rawRead => exact transact_frame (wf_raw _) _ s
  | baseRead => exact transact_frame (wf_raw _) _ s
  | cfgCommit => exact ⟨_, rfl, by constructor <;> simp⟩
  | calCommit => exact ⟨_, rfl, by constructor <;> simp⟩
  | rawCommit => exact ⟨_, rfl, by constructor <;> simp⟩
  | compEval => exact ⟨_, rfl, by constructor <;> simp +contextual⟩
  | compCommit => exact ⟨_, rfl, by constructor <;> simp⟩
  | baseEnter => exact ⟨_, rfl, MoveFrame.refl s⟩
  | baseWait => exact ⟨_, rfl, MoveFrame.refl s⟩
  | baseEval => exact ⟨_, rfl, by constructor <;> simp +contextual⟩
  | baseAdd r i =>
    rw [move, moveBaseAdd]
    split
    · exact ⟨_, rfl, MoveFrame.refl s⟩
    · by_cases hi : i < s.baseN.toNat
      · exact ⟨_, by rw [if_pos hi]; rfl, by constructor <;> simp⟩
      · exact ⟨_, by rw [if_neg hi]; rfl, by constructor <;> simp⟩
  | altEval =>
    rw [move, moveAlt]
    split
    · exact ⟨_, rfl, MoveFrame.refl s⟩
    · exact ⟨_, rfl, by constructor <;> simp⟩
  | rebase =>
    rw [move, moveRebase]
    split
    · exact ⟨_, rfl, MoveFrame.refl s⟩
    · exact ⟨_, rfl, by constructor <;> simp⟩

/-- No move is refused (K19: no command issues a request outside the interface). -/
theorem move_not_refused (p : Point) (s : State) (r : Refusal) : move p s ≠ .refuse r := by
  obtain ⟨t, h, -⟩ := move_frame p s
  intro e
  simp [e, moveState] at h

/-! ### The sequencer -/

/-- Everything the sequencer can do with its next move (R203, R221). -/
theorem advance_cases (stages : List Stage) (q : Running) (s : State) :
    (∃ p t, move q.point s = .goto p t ∧
      advance stages q s = .next { t with phase := .running ⟨q.cmd, q.stage, p⟩ }) ∨
    (∃ t, move q.point s = .commit t ∧ advance stages q s = .next (nextStage stages q t)) ∨
    (∃ e t, move q.point s = .raise e t ∧ advance stages q s = .next (complete e t)) ∨
    (∃ t, move q.point s = .stay t ∧ advance stages q s = .next t) := by
  rcases h : move q.point s with ⟨p, t⟩ | t | ⟨e, t⟩ | t | r
  · exact .inl ⟨p, t, rfl, by simp [advance, h]⟩
  · exact .inr (.inl ⟨t, rfl, by simp [advance, h]⟩)
  · exact .inr (.inr (.inl ⟨e, t, rfl, by simp [advance, h]⟩))
  · exact .inr (.inr (.inr ⟨t, rfl, by simp [advance, h]⟩))
  · exact absurd h (move_not_refused _ _ r)

/-- After a commit either the next stage starts or the command completes (R203). -/
theorem nextStage_cases (stages : List Stage) (q : Running) (s : State) :
    (∃ st, stages[q.stage + 1]? = some st ∧
      nextStage stages q s = { s with phase := .running ⟨q.cmd, q.stage + 1, entryOf st⟩ }) ∨
    (stages[q.stage + 1]? = none ∧ nextStage stages q s = complete .ok s) := by
  unfold nextStage
  rcases stages[q.stage + 1]? with _ | st
  · exact .inr ⟨rfl, rfl⟩
  · exact .inl ⟨st, rfl, rfl⟩

/-! ### Acceptance and commands -/

theorem runCommand_idle {s : State} (h : s.phase = .idle) (i : Instr) (cs : List (Option ErrCode)) (st : List Stage) :
    runCommand i cs st s = .next (accept i cs st s) := by
  simp [runCommand, h]

theorem runCommand_running {s : State} {q : Running} (h : s.phase = .running q) (i : Instr)
    (cs : List (Option ErrCode)) (st : List Stage) : runCommand i cs st s = advance st q s := by
  simp [runCommand, h]

/-- Everything acceptance can do (R201). -/
theorem accept_cases (i : Instr) (cs : List (Option ErrCode)) (stages : List Stage) (s : State) :
    (∃ e, firstFailing cs = some e ∧ accept i cs stages s = refuseCommand (encode i) e s) ∨
    (firstFailing cs = none ∧ stages = [] ∧ accept i cs stages s = complete .ok (beginAccept (encode i) s)) ∨
    (∃ st rest, firstFailing cs = none ∧ stages = st :: rest ∧
      accept i cs stages s = { beginAccept (encode i) s with phase := .running ⟨i, 0, entryOf st⟩ }) := by
  unfold accept
  rcases firstFailing cs with _ | e
  · rcases stages with _ | ⟨st, rest⟩
    · exact .inr (.inl ⟨rfl, rfl, rfl⟩)
    · exact .inr (.inr ⟨st, rest, rfl, rfl, rfl⟩)
  · exact .inl ⟨e, rfl, rfl⟩

@[simp] theorem stageOf_entryOf (st : Stage) : stageOf (entryOf st) = st := by cases st <;> rfl

/-- Every meaning is the shared sequencer on the tables of R200: its checks give the table's verdict, its stages are
the table's. -/
theorem exec_tables (i : Instr) (s : State) :
    ∃ cs, firstFailing cs = verdict i s ∧ exec i s = runCommand i cs (stagesOf i) s := by
  cases i
  case nop => exact ⟨_, rfl, rfl⟩
  case configure =>
    refine ⟨_, ?_, rfl⟩
    simp only [verdict, check]; split <;> rfl
  case loadCal =>
    refine ⟨_, ?_, rfl⟩
    simp only [verdict, check]; cases s.status.cfgDone <;> rfl
  case readRaw =>
    refine ⟨_, ?_, rfl⟩
    simp only [verdict, check]; cases s.status.calValid <;> rfl
  case compensate =>
    refine ⟨_, ?_, rfl⟩
    simp only [verdict, check]; cases s.status.calValid <;> cases s.status.rawValid <;> rfl
  case sample =>
    refine ⟨_, ?_, rfl⟩
    simp only [verdict, check]; cases s.status.calValid <;> rfl
  case baseline =>
    refine ⟨_, ?_, rfl⟩
    simp only [verdict, check, beq_iff_eq]
    by_cases h : s.baseN = 0#8 <;> cases s.status.calValid <;> simp [h, firstFailing]
  case altEval =>
    refine ⟨_, ?_, rfl⟩
    simp only [verdict, check]; cases s.status.resValid <;> cases s.status.baseValid <;> rfl
  case altitude =>
    refine ⟨_, ?_, rfl⟩
    simp only [verdict, check]; cases s.status.calValid <;> cases s.status.baseValid <;> rfl
  case recalibrate =>
    refine ⟨_, ?_, rfl⟩
    simp only [verdict, check]; cases s.status.calValid <;> rfl
  case init =>
    refine ⟨_, ?_, rfl⟩
    simp only [verdict, check, beq_iff_eq]
    by_cases h : s.baseN = 0#8 <;> cases s.status.cfgDone <;> simp [h, firstFailing]

theorem exec_running {s : State} {q : Running} (h : s.phase = .running q) (i : Instr) :
    exec i s = advance (stagesOf i) q s := by
  obtain ⟨cs, -, e⟩ := exec_tables i s
  rw [e, runCommand_running h]

theorem exec_idle {s : State} (h : s.phase = .idle) (i : Instr) :
    ∃ cs, firstFailing cs = verdict i s ∧ exec i s = .next (accept i cs (stagesOf i) s) := by
  obtain ⟨cs, hc, e⟩ := exec_tables i s
  exact ⟨cs, hc, by rw [e, runCommand_idle h]⟩

/-! ### Registers -/

/-- The register at its own offset. -/
@[simp] theorem regAt_offset (r : RegName) : regAt r.offset = some r := by cases r <;> decide

/-- Register offsets are aligned (R60). -/
@[simp] theorem aligned_offset (r : RegName) : aligned r.offset = true := by cases r <;> decide

@[simp] theorem hostRead_offset (r : RegName) (s : State) : hostRead r.offset s = readReg r s := by
  simp [hostRead]

/-- Everything a host write to a register other than CMD can do (R21, R26). -/
theorem writeReg_cases (r : RegName) (v : Word) (s : State) :
    (r = .status ∧ writeReg r v s = { s with status := statusClear v s.status }) ∨
    (r = .ctrl ∧ writeReg r v s = { s with ie := v.getLsbD 0 }) ∨
    (r.access = .rwIdle ∧ s.busy = true ∧ writeReg r v s = noteOverrun s) ∨
    (r.access = .rwIdle ∧ s.busy = false ∧ writeReg r v s = writeArgument r v s) ∨
    ((r.access = .ro ∨ r = .cmd) ∧ writeReg r v s = s) := by
  cases hb : s.busy <;> cases r <;> simp [writeReg, RegName.access, hb]

theorem busy_idle {s : State} (h : s.phase = .idle) : s.busy = false := by simp [State.busy, h]

theorem busy_running {s : State} {q : Running} (h : s.phase = .running q) : s.busy = true := by
  simp [State.busy, h]

end Sys2Proof.Machine
end

