-- ==== Sys2Proof/Laws/PerInstr.lean ====
section
/-! SUPPORT. Statements made per command: its word has nothing in the reserved bits, its opcode in bits [7:0], and the
opcode table's decoder reads the command back from it (R80, R81). -/

namespace Sys2Proof.Laws.CommandWord

def Statement (i : Instr) : Prop :=
  (encode i).extractLsb' 8 24 = 0 ∧ (encode i).extractLsb' 0 8 = i.opcode ∧
    decodeTableWord 32 (encode i).toNat = some i

theorem nop : Statement .nop := by unfold Statement; decide
theorem configure : Statement .configure := by unfold Statement; decide
theorem loadCal : Statement .loadCal := by unfold Statement; decide
theorem readRaw : Statement .readRaw := by unfold Statement; decide
theorem compensate : Statement .compensate := by unfold Statement; decide
theorem sample : Statement .sample := by unfold Statement; decide
theorem baseline : Statement .baseline := by unfold Statement; decide
theorem altEval : Statement .altEval := by unfold Statement; decide
theorem altitude : Statement .altitude := by unfold Statement; decide
theorem recalibrate : Statement .recalibrate := by unfold Statement; decide
theorem init : Statement .init := by unfold Statement; decide

end Sys2Proof.Laws.CommandWord
end

