-- ==== Sys2Proof/Laws/Perform.lean ====
section
/-! SUPPORT. One move of a running command as a rewrite of `runSequencer`, point by point; the statements about whole
commands chain these. -/

namespace Sys2Proof.Machine

theorem runSequencer_idle {s : State} (h : s.phase = .idle) (k : Nat) : runSequencer k s = .next s := by
  cases k <;> simp [runSequencer, h]

theorem runSequencer_move {s t : State} {q : Running} (h : s.phase = .running q) (e : exec q.cmd s = .next t) (k : Nat) :
    runSequencer (k + 1) s = runSequencer k t := by simp [runSequencer, h, sequencerTurn, e]

theorem perform_next {i : Instr} {s t : State} (e : exec i s = .next t) (k : Nat) : perform k i s = runSequencer k t := by
  simp [perform, e]

/-- Acceptance refuses a command whose verdict is an error (R201). -/
theorem exec_refused {s : State} {i : Instr} {e : ErrCode} (h : s.phase = .idle) (hv : verdict i s = some e) :
    exec i s = .next (refuseCommand (encode i) e s) := by
  obtain ⟨cs, hc, he⟩ := exec_idle h i
  simp [he, accept, hc, hv]

/-- Acceptance starts the first stage of a command whose verdict is none (R201). -/
theorem exec_accepted {s : State} {i : Instr} {st : Stage} {more : List Stage} (h : s.phase = .idle)
    (hv : verdict i s = none) (hs : stagesOf i = st :: more) :
    exec i s = .next { beginAccept (encode i) s with phase := .running ⟨i, 0, entryOf st⟩ } := by
  obtain ⟨cs, hc, he⟩ := exec_idle h i
  simp [he, accept, hc, hv, hs]

theorem nan_isNaN (s : State) (k : Nat) : fisNaN (s.nan k) = true := fisNaN_nan64 _

theorem exec_goto {s t : State} {i : Instr} {n : Nat} {p p' : Point} (h : s.phase = .running ⟨i, n, p⟩)
    (hm : move p s = .goto p' t) : exec i s = .next { t with phase := .running ⟨i, n, p'⟩ } := by
  rw [exec_running h]; simp [advance, hm]

theorem exec_commit {s t : State} {i : Instr} {n : Nat} {p : Point} (h : s.phase = .running ⟨i, n, p⟩)
    (hm : move p s = .commit t) : exec i s = .next (nextStage (stagesOf i) ⟨i, n, p⟩ t) := by
  rw [exec_running h]; simp [advance, hm]

theorem exec_raise {s t : State} {i : Instr} {n : Nat} {p : Point} {e : ErrCode} (h : s.phase = .running ⟨i, n, p⟩)
    (hm : move p s = .raise e t) : exec i s = .next (complete e t) := by
  rw [exec_running h]; simp [advance, hm]

theorem nextStage_more {st : List Stage} {q : Running} {x : Stage} (h : st[q.stage + 1]? = some x) (s : State) :
    nextStage st q s = { s with phase := .running ⟨q.cmd, q.stage + 1, entryOf x⟩ } := by simp [nextStage, h]

theorem nextStage_last {st : List Stage} {q : Running} (h : st[q.stage + 1]? = none) (s : State) :
    nextStage st q s = complete .ok s := by simp [nextStage, h]

/-! ### The moves -/

/-- How a transaction fails: an error, or an answer that does not answer the request (R222). -/
theorem transact_failed {tx : BusTx} {a : BusResponse} {s : State} (h : tx.wf = true) (hn : nextAnswer tx s = a)
    (ha : a = .error ∨ ∃ b, a = .data b ∧ tx.answeredBy b = false) (f : List Byte → Point) :
    transact tx f s = .raise .ebus (recordTx tx a s) := by
  rcases ha with rfl | ⟨b, rfl, hb⟩
  · exact transact_error h hn f
  · exact transact_short h hn hb f

theorem move_cfgFirst {s : State} {x : List Byte} (hn : nextAnswer (.write s.devAddr 0xF4 [0x57]) s = .data x) :
    move .cfgFirst s = .goto .cfgSecond (recordTx (.write s.devAddr 0xF4 [0x57]) (.data x) s) :=
  transact_data (wf_measurementCtrl _) hn rfl _

theorem move_cfgFirst_failed {s : State} (hn : nextAnswer (.write s.devAddr 0xF4 [0x57]) s = .error) :
    move .cfgFirst s = .raise .ebus (recordTx (.write s.devAddr 0xF4 [0x57]) .error s) :=
  transact_error (wf_measurementCtrl _) hn _

theorem move_cfgSecond {s : State} {x : List Byte} (hn : nextAnswer (.write s.devAddr 0xF5 [0x10]) s = .data x) :
    move .cfgSecond s = .goto .cfgCommit (recordTx (.write s.devAddr 0xF5 [0x10]) (.data x) s) :=
  transact_data (wf_config _) hn rfl _

theorem move_cfgSecond_failed {s : State} (hn : nextAnswer (.write s.devAddr 0xF5 [0x10]) s = .error) :
    move .cfgSecond s = .raise .ebus (recordTx (.write s.devAddr 0xF5 [0x10]) .error s) :=
  transact_error (wf_config _) hn _

theorem move_calRead {s : State} {b : List Byte} (hn : nextAnswer (.read s.devAddr 0x88 24) s = .data b)
    (hl : b.length = 24) : move .calRead s = .goto (.calCommit b) (recordTx (.read s.devAddr 0x88 24) (.data b) s) :=
  transact_data (wf_calibration _) hn (by simpa [BusTx.answeredBy] using hl) _

theorem move_calRead_failed {s : State} {a : BusResponse} (hn : nextAnswer (.read s.devAddr 0x88 24) s = a)
    (ha : a = .error ∨ ∃ b, a = .data b ∧ b.length ≠ 24) :
    move .calRead s = .raise .ebus (recordTx (.read s.devAddr 0x88 24) a s) :=
  transact_failed (wf_calibration _) hn (by simpa [BusTx.answeredBy] using ha) _

theorem move_rawRead {s : State} {b : List Byte} (hn : nextAnswer (rawBurst s) s = .data b) (hl : b.length = 6) :
    move .rawRead s = .goto (.rawCommit b) (recordTx (rawBurst s) (.data b) s) :=
  transact_data (wf_raw _) hn (by simpa [rawBurst, BusTx.answeredBy] using hl) _

theorem move_rawRead_failed {s : State} {a : BusResponse} (hn : nextAnswer (rawBurst s) s = a)
    (ha : a = .error ∨ ∃ b, a = .data b ∧ b.length ≠ 6) :
    move .rawRead s = .raise .ebus (recordTx (rawBurst s) a s) :=
  transact_failed (wf_raw _) hn (by simpa [rawBurst, BusTx.answeredBy] using ha) _

theorem move_baseRead {s : State} {b : List Byte} (hn : nextAnswer (rawBurst s) s = .data b) (hl : b.length = 6)
    (i : Nat) (sp st : F64) :
    move (.baseRead i sp st) s = .goto (.baseEval b i sp st) (recordTx (rawBurst s) (.data b) s) :=
  transact_data (wf_raw _) hn (by simpa [rawBurst, BusTx.answeredBy] using hl) _

theorem move_baseRead_failed {s : State} {a : BusResponse} (hn : nextAnswer (rawBurst s) s = a)
    (ha : a = .error ∨ ∃ b, a = .data b ∧ b.length ≠ 6) (i : Nat) (sp st : F64) :
    move (.baseRead i sp st) s = .raise .ebus (recordTx (rawBurst s) a s) :=
  transact_failed (wf_raw _) hn (by simpa [rawBurst, BusTx.answeredBy] using ha) _

/-- The evaluation, with its result under a name: keep `r` a variable, the kernel would unfold the whole pipeline. -/
theorem move_compEval {s : State} {r : CompResult} (hr : comp s.rawT s.rawP s.dig = r) :
    move .compEval s = .goto (.compCommit r) { s with status := noteOvf r.ovf s.status } := by
  subst hr; rfl

theorem move_baseEval {s : State} {b : List Byte} {r : CompResult} (hr : readingOf s.dig b = r) (i : Nat) (sp st : F64) :
    move (.baseEval b i sp st) s = .goto (.baseAdd r i sp st) { s with status := noteOvf r.ovf s.status } := by
  subst hr; rfl

theorem move_baseAdd_more {r : CompResult} {i : Nat} {s : State} (hr : r.pinv = false) (hi : i < s.baseN.toNat)
    (sp st : F64) :
    move (.baseAdd r i sp st) s = .goto (.baseWait s.intervalMs (i + 1) (fadd (s.nan 0) sp r.res.pressHpa)
      (fadd (s.nan 1) st r.res.tempC)) (usedNaNs 5 s) := by simp [move, moveBaseAdd, hr, hi]

theorem move_baseAdd_last {r : CompResult} {i : Nat} {s : State} (hr : r.pinv = false) (hi : ¬ i < s.baseN.toNat)
    (sp st : F64) :
    move (.baseAdd r i sp st) s = .commit (usedNaNs 5 (commitBase (fadd (s.nan 0) sp r.res.pressHpa)
      (fadd (s.nan 1) st r.res.tempC) s)) := by simp [move, moveBaseAdd, hr, hi]

theorem move_baseAdd_invalid {r : CompResult} {s : State} (hr : r.pinv = true) (i : Nat) (sp st : F64) :
    move (.baseAdd r i sp st) s = .raise .einvcomp s := by simp [move, moveBaseAdd, hr]

theorem move_alt_invalid {s : State} (h : s.status.pinv = true) : move .altEval s = .raise .einvcomp s := by
  simp [move, moveAlt, h]

theorem move_alt {s : State} (h : s.status.pinv = false) : move .altEval s = .commit (usedNaNs 5 (commitAlt s)) := by
  simp [move, moveAlt, h]

theorem move_rebase_invalid {s : State} (h : s.status.pinv = true) : move .rebase s = .raise .einvcomp s := by
  simp [move, moveRebase, h]

theorem move_rebase {s : State} (h : s.status.pinv = false) :
    move .rebase s = .commit (usedNaNs 1 (commitRebase s)) := by simp [move, moveRebase, h]

/-! ### Runs of several moves -/

/-- One move of a run, with what `exec` answers and the state it answers given. -/
theorem run_move {s t : State} {i : Instr} {n k : Nat} {p : Point} {o : Out} (h : s.phase = .running ⟨i, n, p⟩)
    (e : exec i s = .next t) (rest : runSequencer k t = o) : runSequencer (k + 1) s = o :=
  (runSequencer_move h e k).trans rest

/-- The sums depend on the patterns from their own place in the count on. -/
theorem sumSamples_shift (c : Calibration) (bs : List (List Byte)) : ∀ (nan nan' : Nat → F64) (k k' : Nat) (acc : F64 × F64),
    (∀ n, nan (k + n) = nan' (k' + n)) → sumSamples nan c k bs acc = sumSamples nan' c k' bs acc := by
  induction bs with
  | nil => intros; rfl
  | cons b bs ih =>
    intro nan nan' k k' acc h
    simp only [sumSamples]
    rw [show nan k = nan' k' from h 0, h 1]
    refine ih nan nan' (k + 5) (k' + 5) _ (fun n => ?_)
    rw [Nat.add_assoc, Nat.add_assoc]
    exact h (5 + n)

/-- A baseline that waits for sample `i` takes `j` more samples, none of which is the sentinel or the last one, in `4 * j`
moves. The samples are those `v` is answered, a state with the same bus as `s`. -/
theorem run_samples {cmd : Instr} {stage : Nat} : ∀ (j : Nat) (s v u : State) (bs : List (List Byte)) (i : Nat)
    (sp st : F64) (d : BitVec 16), s.phase = .running ⟨cmd, stage, .baseWait d i sp st⟩ →
    takeSamples j v = some (bs, u) → v.devAddr = s.devAddr → v.sensorQueue = s.sensorQueue → v.busTrace = s.busTrace →
    (∀ b ∈ bs, (readingOf s.dig b).pinv = false) → i + j ≤ s.baseN.toNat →
    ∀ k, ∃ d', runSequencer (k + 4 * j) s = runSequencer k { s with
      phase := .running ⟨cmd, stage, .baseWait d' (i + j) (sumSamples s.nan s.dig 0 bs (sp, st)).1
        (sumSamples s.nan s.dig 0 bs (sp, st)).2⟩
      status := noteOvf (bs.any (fun b => (readingOf s.dig b).ovf)) s.status
      sensorQueue := u.sensorQueue, busTrace := u.busTrace, draws := s.draws + 5 * j } := by
  intro j
  induction j with
  | zero =>
    intro s v u bs i sp st d h ht h1 h2 h3 _ _ k
    simp only [takeSamples, Option.some.injEq, Prod.mk.injEq] at ht
    obtain ⟨rfl, rfl⟩ := ht
    refine ⟨d, ?_⟩
    simp only [h2, h3, List.any_nil, noteOvf, Bool.or_false, sumSamples, Nat.mul_zero, Nat.add_zero, ← h]
  | succ j ih =>
    intro s v u bs i sp st d h ht h1 h2 h3 hp hi k
    have hna : ∀ tx, nextAnswer tx v = nextAnswer tx s := by intro tx; simp only [nextAnswer, h2, h3]
    simp only [takeSamples, show rawBurst v = rawBurst s by simp only [rawBurst, h1], hna] at ht
    rcases hn : nextAnswer (rawBurst s) s with b | _ | _ <;> rw [hn] at ht <;> simp only [reduceCtorEq] at ht
    split at ht
    swap
    · cases ht
    rename_i hl
    simp only [Option.map_eq_some_iff, Prod.mk.injEq] at ht
    obtain ⟨⟨bs', u'⟩, ht, rfl, rfl⟩ := ht
    obtain ⟨r, hr⟩ : ∃ x, readingOf s.dig b = x := ⟨_, rfl⟩
    have hrp : r.pinv = false := hr ▸ hp b (by simp)
    obtain ⟨w, hw⟩ : ∃ w : State, w = { recordTx (rawBurst s) (.data b) s with
        phase := .running ⟨cmd, stage, .baseWait s.intervalMs (i + 1) (fadd (s.nan 0) sp r.res.pressHpa)
          (fadd (s.nan 1) st r.res.tempC)⟩
        status := noteOvf r.ovf s.status, draws := s.draws + 5 } := ⟨_, rfl⟩
    have hnan : ∀ m, w.nan m = s.nan (m + 5) := by
      intro m
      rw [hw]
      show nan64 (s.draws + 5 + m) = nan64 (s.draws + (m + 5))
      rw [Nat.add_assoc, Nat.add_comm 5]
    have hdig : w.dig = s.dig := by rw [hw]; rfl
    obtain ⟨d', hd⟩ := ih w _ u' bs' (i + 1) _ _ _ (by rw [hw]) ht (by rw [hw]; exact h1)
      (by rw [hw]; simp only [recordTx, h2]) (by rw [hw]; simp only [recordTx, h3])
      (by rw [hdig]; exact fun b hb => hp b (by simp [hb])) (by rw [hw]; show i + 1 + j ≤ s.baseN.toNat; omega) k
    refine ⟨d', ?_⟩
    rw [show k + 4 * (j + 1) = k + 4 * j + 1 + 1 + 1 + 1 by ring]
    refine run_move h (exec_goto h rfl) ?_
    refine run_move rfl (exec_goto rfl (move_baseRead (by exact hn) hl _ _ _)) ?_
    refine run_move rfl (exec_goto rfl (move_baseEval (by exact hr) _ _ _)) ?_
    refine run_move rfl (exec_goto rfl (move_baseAdd_more hrp (by show i < s.baseN.toNat; omega) _ _)) ?_
    refine Eq.trans ?_ (hd.trans ?_)
    · rw [hw]; rfl
    · simp only [hdig, sumSamples, hr]
      rw [sumSamples_shift _ bs' w.nan s.nan 0 (0 + 5) _ (fun n => by rw [hnan, Nat.zero_add, Nat.zero_add, Nat.add_comm])]
      rw [hw]
      simp only [recordTx, noteOvf, List.any_cons, hr, Bool.or_assoc, Nat.mul_add, Nat.add_assoc, Nat.add_comm 1 j,
        Nat.add_comm 5, Nat.mul_one, Nat.zero_add]

end Sys2Proof.Machine
end

