-- ==== Sys2Proof/Laws/Step.lean ====
section
/-! SUPPORT. What a step can do, said once: by the host's next action, and as one inversion lemma that the invariants
cite. -/

namespace Sys2Proof.Machine

/-- Bits [1:0] are 0 (R60). -/
theorem aligned_iff (off : BitVec 8) : aligned off = true ↔ off.extractLsb' 0 2 = 0 := by
  revert off; decide

theorem popHost_eq {s : State} {a : HostAction} {rest : List HostAction} (h : s.hostQueue = a :: rest) :
    popHost s = { s with hostQueue := rest } := by simp [popHost, h]

/-! ### By the host's next action -/

theorem step_nil {s : State} (h : s.hostQueue = []) : step s = sequencerTurn s := by simp [step, takeTurn, h]

theorem step_pause {s : State} {rest : List HostAction} (h : s.hostQueue = .pause :: rest) :
    step s = sequencerTurn { s with hostQueue := rest } := by
  simp only [step, takeTurn, h, stillWaiting, hostTurn, popHost_eq h]; rfl

theorem step_reset {s : State} {rest : List HostAction} (h : s.hostQueue = .reset :: rest) :
    step s = .next (applyReset { s with hostQueue := rest }) := by
  simp only [step, takeTurn, h, stillWaiting, hostTurn, popHost_eq h]; rfl

theorem step_read {s : State} {off : BitVec 8} {rest : List HostAction} (h : s.hostQueue = .read off :: rest)
    (ha : aligned off = true) : step s = .next (observe off { s with hostQueue := rest }) := by
  simp only [step, takeTurn, h, stillWaiting, hostTurn, popHost_eq h, ha]; rfl

theorem step_write {s : State} {off : BitVec 8} {v : Word} {rest : List HostAction} (h : s.hostQueue = .write off v :: rest)
    (ha : aligned off = true) : step s = hostWrite off v { s with hostQueue := rest } := by
  simp only [step, takeTurn, h, stillWaiting, hostTurn, popHost_eq h, ha]; rfl

theorem step_misaligned {s : State} {off : BitVec 8} {rest : List HostAction} (ha : aligned off = false)
    (h : s.hostQueue = .read off :: rest ∨ ∃ v, s.hostQueue = .write off v :: rest) :
    step s = .refused (.misalignedHostAccess off) := by
  obtain h | ⟨v, h⟩ := h <;> simp [step, takeTurn, h, stillWaiting, hostTurn, ha]

theorem step_wait {s : State} {rest : List HostAction} (h : s.hostQueue = .wait :: rest) :
    step s = .next (pollBusy { s with hostQueue := rest }) := by
  simp only [step, takeTurn, h, stillWaiting, hostTurn, popHost_eq h]; rfl

theorem step_expect {s : State} {want : List (BitVec 8 × Word)} {rest : List HostAction}
    (h : s.hostQueue = .expect want :: rest) : step s = .next (recordCheck want { s with hostQueue := rest }) := by
  simp only [step, takeTurn, h, stillWaiting, hostTurn, popHost_eq h]; rfl

theorem step_waitIrq {s : State} {rest : List HostAction} (h : s.hostQueue = .waitIrq :: rest) :
    step s = if s.irq then .next { s with hostQueue := rest } else sequencerTurn s := by
  simp only [step, takeTurn, h, stillWaiting, hostTurn, popHost_eq h]
  cases s.irq <;> rfl

/-- BUSY as the host reads it (R23, R50). -/
theorem hostRead_busy (s : State) : (hostRead RegName.status.offset s).getLsbD 0 = s.busy := by
  rw [hostRead, show regAt RegName.status.offset = some .status by decide]
  simp only [readReg, statusWord, BitVec.getLsbD_append]
  simp

theorem expectHolds_iff (want : List (BitVec 8 × Word)) (s : State) :
    expectHolds want s = true ↔ ∀ p ∈ want, aligned p.1 = true ∧ hostRead p.1 s = p.2 := by
  simp [expectHolds]

/-! ### Host writes -/

theorem hostWrite_register {r : RegName} (hr : r ≠ .cmd) (v : Word) (s : State) :
    hostWrite r.offset v s = .next (writeReg r v s) := by
  cases r <;> simp_all [hostWrite]

theorem hostWrite_cmd (v : Word) (s : State) : hostWrite 0x00 v s = writeCommand v s := by
  simp [hostWrite, show regAt 0#8 = some .cmd by decide]

theorem hostWrite_reserved {off : BitVec 8} (h : regAt off = none) (v : Word) (s : State) : hostWrite off v s = .next s := by
  simp [hostWrite, h]

/-- The register at an offset has that offset. -/
theorem offset_of_regAt {off : BitVec 8} {r : RegName} (h : regAt off = some r) : r.offset = off := by
  have := List.find?_some h
  simpa using this

theorem regAt_cmd {off : BitVec 8} : regAt off = some .cmd ↔ off = 0x00 := by revert off; decide

/-- What a host write to a register other than CMD leaves alone (R21, R23, R26): the sequencer, the results, the
environment; in STATUS, the validity bits but RAW_VALID, PINV and ERR; DONE and OVF can only fall, and only through
STATUS. -/
structure WriteFrame (r : RegName) (s t : State) : Prop where
  cmd : t.cmd = s.cmd
  phase : t.phase = s.phase
  res : t.res = s.res
  p0 : t.p0 = s.p0
  t0 : t.t0 = s.t0
  altOffset : t.altOffset = s.altOffset
  altOut : t.altOut = s.altOut
  dig : t.dig = s.dig
  hostQueue : t.hostQueue = s.hostQueue
  observed : t.observed = s.observed
  checks : t.checks = s.checks
  sensorQueue : t.sensorQueue = s.sensorQueue
  busTrace : t.busTrace = s.busTrace
  draws : t.draws = s.draws
  cfgDone : t.status.cfgDone = s.status.cfgDone
  calValid : t.status.calValid = s.status.calValid
  resValid : t.status.resValid = s.status.resValid
  baseValid : t.status.baseValid = s.status.baseValid
  pinv : t.status.pinv = s.status.pinv
  err : t.status.err = s.status.err
  rawValid : s.status.rawValid = true → t.status.rawValid = true
  done : t.status.done = true → s.status.done = true
  ovf : t.status.ovf = true → s.status.ovf = true
  doneKept : r ≠ .status → t.status.done = s.status.done
  ovfKept : r ≠ .status → t.status.ovf = s.status.ovf

/-- An RW* write that is not ignored. -/
theorem writeArgument_frame (r : RegName) (v : Word) (s : State) : WriteFrame r s (writeArgument r v s) := by
  cases r <;> constructor <;> first | rfl | exact id | exact fun _ => rfl

theorem writeReg_frame (r : RegName) (v : Word) (s : State) : WriteFrame r s (writeReg r v s) := by
  obtain ⟨rfl, e⟩ | ⟨rfl, e⟩ | ⟨-, -, e⟩ | ⟨-, -, e⟩ | ⟨-, e⟩ := writeReg_cases r v s <;> rw [e]
  · constructor <;> simp +contextual [statusClear]
  · constructor <;> simp
  · constructor <;> simp [noteOverrun]
  · exact writeArgument_frame r v s
  · constructor <;> simp

/-! ### Everything a step can do -/

/-- A turn of the sequencer: nothing while idle, else a move of the running command. -/
theorem sequencerTurn_cases (s : State) :
    (s.phase = .idle ∧ sequencerTurn s = .next s) ∨
    (∃ q, s.phase = .running q ∧ sequencerTurn s = advance (stagesOf q.cmd) q s) := by
  rcases h : s.phase with _ | q
  · exact .inl ⟨rfl, by simp [sequencerTurn, h]⟩
  · exact .inr ⟨q, rfl, by simp [sequencerTurn, h, exec_running h]⟩

/-- The ways a step takes: `u` is the state with the host's action taken off, or with it still pending. -/
inductive StepKind (s : State) : State → Prop where
  | still (u : State) (hu : u = s ∨ u = popHost s) (hw : ∀ w rest, s.hostQueue ≠ .write 0x00 w :: rest) : StepKind s u
  | move (u t : State) (q : Running) (hu : u = s ∨ u = popHost s) (hq : u.phase = .running q)
      (hr : ∀ rest, s.hostQueue ≠ .reset :: rest) (hw : ∀ off v rest, s.hostQueue ≠ .write off v :: rest)
      (h : advance (stagesOf q.cmd) q u = .next t) : StepKind s t
  | reset (rest : List HostAction) (h : s.hostQueue = .reset :: rest) : StepKind s (applyReset (popHost s))
  | read (off : BitVec 8) (rest : List HostAction) (h : s.hostQueue = .read off :: rest) :
      StepKind s (observe off (popHost s))
  | poll (rest : List HostAction) (h : s.hostQueue = .wait :: rest) : StepKind s (pollBusy (popHost s))
  | check (want : List (BitVec 8 × Word)) (rest : List HostAction) (h : s.hostQueue = .expect want :: rest) :
      StepKind s (recordCheck want (popHost s))
  | register (r : RegName) (v : Word) (rest : List HostAction) (hr : r ≠ .cmd) (h : s.hostQueue = .write r.offset v :: rest) :
      StepKind s (writeReg r v (popHost s))
  | overrun (v : Word) (rest : List HostAction) (hb : s.busy = true) (h : s.hostQueue = .write 0x00 v :: rest) :
      StepKind s (noteOverrun (popHost s))
  | illegal (v : Word) (rest : List HostAction) (hp : s.phase = .idle) (h : s.hostQueue = .write 0x00 v :: rest) :
      StepKind s (refuseCommand v .eillegal (popHost s))
  | accept (i : Instr) (cs : List (Option ErrCode)) (v : Word) (rest : List HostAction) (hp : s.phase = .idle)
      (hc : firstFailing cs = verdict i s) (h : s.hostQueue = .write 0x00 v :: rest) :
      StepKind s (accept i cs (stagesOf i) (popHost s))

/-- The inversion of a step: each next state is one of these. -/
theorem step_cases {s t : State} (h : step s = .next t) : StepKind s t := by
  have turn : ∀ u, u = s ∨ u = popHost s → sequencerTurn u = .next t →
      (∀ rest, s.hostQueue ≠ .reset :: rest) → (∀ off v rest, s.hostQueue ≠ .write off v :: rest) → StepKind s t := by
    intro u hu ht hr hw
    obtain ⟨-, e⟩ | ⟨q, hq, e⟩ := sequencerTurn_cases u
    · rw [e] at ht; injection ht with ht; subst ht; exact .still u hu (fun w rest => hw 0x00 w rest)
    · rw [e] at ht; exact .move u t q hu hq hr hw ht
  rcases hq : s.hostQueue with _ | ⟨a, rest⟩
  · rw [step_nil hq] at h
    exact turn s (.inl rfl) h (by simp [hq]) (by simp [hq])
  · have hp := popHost_eq hq
    cases a with
    | read off =>
      cases ha : aligned off
      · rw [step_misaligned ha (.inl hq)] at h; cases h
      · rw [step_read hq ha, ← hp] at h; injection h with h; subst h; exact .read off rest hq
    | write off v =>
      cases ha : aligned off
      · rw [step_misaligned ha (.inr ⟨v, hq⟩)] at h; cases h
      · rw [step_write hq ha, ← hp] at h
        rcases hr : regAt off with _ | r
        · rw [hostWrite_reserved hr] at h; injection h with h; subst h
          refine .still _ (.inr rfl) (fun w r' hc => ?_)
          rw [hq] at hc
          simp only [List.cons.injEq, HostAction.write.injEq] at hc
          rw [hc.1.1] at hr
          revert hr; decide
        · by_cases hc : r = .cmd
          · subst hc
            obtain rfl := regAt_cmd.mp hr
            rw [hostWrite_cmd, writeCommand] at h
            have hph : (popHost s).phase = s.phase := by simp
            rcases hph' : s.phase with _ | q
            · have hi : (popHost s).phase = .idle := by rw [hph, hph']
              have hb : (popHost s).busy = false := busy_idle hi
              rw [hb, if_neg (by simp)] at h
              split at h
              · rename_i i _
                obtain ⟨cs, hcs, e⟩ := exec_idle hi i
                rw [e] at h; injection h with h; subst h
                exact .accept i cs v rest hph' (by rw [hcs]; rfl) hq
              all_goals
                injection h with h; subst h
                exact .illegal v rest hph' hq
            · have hb : (popHost s).busy = true := busy_running (q := q) (by rw [hph, hph'])
              rw [hb, if_pos rfl] at h; injection h with h; subst h
              exact .overrun v rest (busy_running hph') hq
          · have ho := offset_of_regAt hr
            rw [← ho, hostWrite_register hc] at h; injection h with h; subst h
            exact .register r v rest hc (by rw [ho]; exact hq)
    | wait =>
      rw [step_wait hq, ← hp] at h; injection h with h; subst h
      exact .poll rest hq
    | expect want =>
      rw [step_expect hq, ← hp] at h; injection h with h; subst h
      exact .check want rest hq
    | waitIrq =>
      rw [step_waitIrq hq] at h
      split at h
      · injection h with h; subst h; exact .still _ (.inr hp.symm) (by simp [hq])
      · exact turn s (.inl rfl) h (by simp [hq]) (by simp [hq])
    | pause =>
      rw [step_pause hq, ← hp] at h
      exact turn _ (.inr rfl) h (by simp [hq]) (by simp [hq])
    | reset =>
      rw [step_reset hq, ← hp] at h; injection h with h; subst h
      exact .reset rest hq

end Sys2Proof.Machine
end

