-- ==== Sys2Proof/Tests/Slice0.lean ====
section
/-! SUPPORT. Tests on fixed values. Expected values are those of spec/95_test_vectors.md (cited by vector), words are
written out from spec/30_encoding.md. Then one witness per statement: a state and operands that meet its hypotheses. -/

namespace Sys2Proof.Tests

open Sys2Proof.Machine

-- One theorem at a time: evaluated side by side they ask for more threads than the memory limit allows.
set_option Elab.async false

/-! ### Helpers -/

/-- Whether an outcome is a next state with a property. -/
def nextWith (o : Out) (p : State → Bool) : Bool :=
  match o with
  | .next t => p t
  | .fault _ | .refused _ => false

/-- Calibration set DS and sets made from it (95_test_vectors.md L2.1). -/
def bytesDS : List Byte :=
  [0x70, 0x6B, 0x43, 0x67, 0x18, 0xFC, 0x7D, 0x8E, 0x43, 0xD6, 0xD0, 0x0B, 0x27, 0x0B, 0x8C, 0x00, 0xF9, 0xFF, 0x8C,
   0x3C, 0xF8, 0xC6, 0x70, 0x17]
def calDS : Calibration := calDecode bytesDS
def calTOVF : Calibration := { calDS with t1 := 0, t2 := 0x7FFF, t3 := 0x7FFF }
def calP1Z : Calibration := { calDS with p1 := 0 }
def calSENT : Calibration := { Calibration.reset with t1 := 46340, t2 := 23170, t3 := 0xF000, p1 := 1, p2 := 26276 }
def calP6W : Calibration := { calDS with p1 := 0xFFFF, p2 := 0x7FFF }
def calTRUNC : Calibration := calDecode
  [0x90, 0xF9, 0xFF, 0x7F, 0xFF, 0xFF, 0x75, 0x57, 0x01, 0x00, 0xFF, 0xFF, 0xFF, 0x7F, 0x01, 0x00, 0x00, 0x00, 0x00,
   0x80, 0xFF, 0x7F, 0x00, 0x00]
def calBIG : Calibration := calDecode
  [0x92, 0xB3, 0xA7, 0x4E, 0xFF, 0x7F, 0x01, 0x00, 0xFF, 0x7F, 0x01, 0x00, 0xFF, 0xFF, 0xFF, 0x7F, 0xED, 0x3D, 0xFF,
   0x7F, 0x00, 0x00, 0x00, 0x80]

/-- Samples s and s3. -/
def sampleS : List Byte := [0x65, 0x5A, 0xC0, 0x7E, 0xED, 0x00]
def sampleS3 : List Byte := [0x65, 0x5A, 0xC0, 0x7C, 0x83, 0x00]

/-- After reset, CONFIGURE and LOAD_CAL of DS. -/
def loaded : State :=
  { State.reset with dig := calDS, status := { Status.reset with done := true, cfgDone := true, calValid := true } }

/-- With a sample, a result and a baseline: the registers after PR2, but for the altitude. -/
def measured : State :=
  { loaded with
    rawP := 415148, rawT := 519888, res := (readingOf calDS sampleS).res
    p0 := 0x408F7442A3D70A3D, t0 := 0x4072A3AE147AE147
    status := { loaded.status with rawValid := true, resValid := true, baseValid := true } }

/-- A command running at a point, as its acceptance leaves CMD, DONE and ERR. -/
def runningAt (s : State) (i : Instr) (n : Nat) (p : Point) : State :=
  { s with cmd := encode i, phase := .running ⟨i, n, p⟩, status := { s.status with done := false, err := .ok } }

def hosted (s : State) (q : List HostAction) : State := { s with hostQueue := q }
def sensing (s : State) (q : List BusResponse) : State := { s with sensorQueue := q }

/-! ### Decoding: each word written out from R80 and R81 -/

theorem test_decode_nop : decode 0b00000000000000000000000000000000 = .command .nop := by decide
theorem test_decode_configure : decode 0b00000000000000000000000000000001 = .command .configure := by decide
theorem test_decode_loadCal : decode 0b00000000000000000000000000000010 = .command .loadCal := by decide
theorem test_decode_readRaw : decode 0b00000000000000000000000000000011 = .command .readRaw := by decide
theorem test_decode_compensate : decode 0b00000000000000000000000000000100 = .command .compensate := by decide
theorem test_decode_sample : decode 0b00000000000000000000000000000101 = .command .sample := by decide
theorem test_decode_baseline : decode 0b00000000000000000000000000000110 = .command .baseline := by decide
theorem test_decode_altEval : decode 0b00000000000000000000000000000111 = .command .altEval := by decide
theorem test_decode_altitude : decode 0b00000000000000000000000000001000 = .command .altitude := by decide
theorem test_decode_recalibrate : decode 0b00000000000000000000000000001001 = .command .recalibrate := by decide
theorem test_decode_init : decode 0b00000000000000000000000000001010 = .command .init := by decide
/-- V-S2, V-S3, V-S4, V-S8: no neighbour takes a word with another opcode or a reserved bit set. -/
theorem test_decode_illegal :
    decode 0b00000000000000000000000000001011 = .unknownOpcode ∧
    decode 0b00000000000000000000000100000000 = .reservedBits ∧
    decode 0b00000000000000000000000100000001 = .reservedBits ∧
    decode 0b00000000000000000000000100001010 = .reservedBits ∧
    decode 0b10000000000000000000000000000101 = .reservedBits := by decide
theorem test_tableWord : decodeTableWord 32 0x0000000A = some .init ∧ decodeTableWord 32 0x0000010A = none := by decide

/-! ### Well-formedness -/

theorem test_wf_misaligned : HostAction.wf (.read 0x02) = false ∧ HostAction.wf (.write 0x61 0) = false ∧
    HostAction.wf (.read 0xFC) = true := by decide
theorem test_wf_read_lengths : BusTx.wf (.read 0x76 0x88 0) = false ∧ BusTx.wf (.read 0x76 0x88 25) = false ∧
    BusTx.wf (.read 0x76 0x88 24) = true := by decide
theorem test_wf_read_range : BusTx.wf (.read 0x76 0xF7 10) = false ∧ BusTx.wf (.read 0x76 0xF7 9) = true := by decide
theorem test_wf_write_one_byte : BusTx.wf (.write 0x76 0xF4 []) = false ∧ BusTx.wf (.write 0x76 0xF4 [0x57, 0x10]) = false ∧
    BusTx.wf (.write 0x76 0xFF [0x57]) = true := by decide
theorem test_wf_instr : Instr.wf .init = true := by decide
theorem test_answeredBy : BusTx.answeredBy (.read 0x76 0xF7 6) [1, 2, 3, 4, 5] = false ∧
    BusTx.answeredBy (.write 0x76 0xF4 [0x57]) [] = true := by decide

/-! ### Program lines -/

/-- The first lines of PR1 and PR3 as their comments give them. -/
theorem test_assemble : assemble [.wr .baseN 2, .run .init, .rd .status, .wr64 .recalAlt (.bits 0x4059000000000000), .clear] =
    [.write 0x10 2, .write 0x00 0x0000000A, .wait, .read 0x04, .write 0x60 0, .write 0x64 0x40590000,
     .write 0x04 0x00000302] := by decide

/-- PR3's literal, and the literals of R170 as their decimals. -/
theorem test_f64_literals :
    assemble [.wr64 .recalAlt (.f64 ⟨false, 1000, -1⟩)] = [.write 0x60 0x00000000, .write 0x64 0x40590000] ∧
    Decimal.nearest ⟨false, 65, -4⟩ = 0x3F7A9FBE76C8B439 ∧ Decimal.nearest ⟨false, 27315, -2⟩ = 0x4071126666666666 ∧
    Decimal.nearest ⟨false, 256, 2⟩ = 0x40D9000000000000 := by decide +kernel

/-! ### The host port -/

/-- V-Z1. -/
theorem test_reset_words : hostRead 0x04 State.reset = 0 ∧ hostRead 0x0C State.reset = 0x76 ∧
    hostRead 0x10 State.reset = 0x0A ∧ hostRead 0x14 State.reset = 0x3E8 ∧ hostRead 0x18 State.reset = 0x64 ∧
    State.reset.irq = false := by decide
/-- V-S15. -/
theorem test_status_w1c : nextWith (step (hosted
    { measured with status := { measured.status with ovf := true, wrOvr := true } } [.write 0x04 0xFFFFFFFF]))
    (fun t => hostRead 0x04 t == 0x7C) = true := by decide +kernel
/-- V-S17, V-S18, V-C10. -/
theorem test_field_writes :
    nextWith (step (hosted loaded [.write 0x08 0xFFFFFFFF])) (fun t => hostRead 0x08 t == 1) ∧
    nextWith (step (hosted loaded [.write 0x10 0x12345678])) (fun t => hostRead 0x10 t == 0x78) ∧
    nextWith (step (hosted loaded [.write 0x14 0x12345678])) (fun t => hostRead 0x14 t == 0x5678) ∧
    nextWith (step (hosted loaded [.write 0x0C 0xFFFFFFFF])) (fun t => hostRead 0x0C t == 0x7F) ∧
    nextWith (step (hosted loaded [.write 0x20 0xFFFFFFFF]))
      (fun t => hostRead 0x20 t == 0xFFFFF && t.status.rawValid && t.rawT == 0) := by decide
/-- V-S16, V-S19. -/
theorem test_ignored_writes :
    nextWith (step (hosted loaded [.write 0x1C 0xFFFFFFFF])) (fun t => t == hosted loaded []) ∧
    nextWith (step (hosted loaded [.write 0x80 0xFFFFFFFF])) (fun t => t == hosted loaded []) ∧
    nextWith (step (hosted loaded [.read 0xB0])) (fun t => t.observed == [0]) := by decide +kernel
/-- V-S9: while a BASELINE runs. -/
theorem test_busy_write :
    nextWith (step (hosted (runningAt loaded .baseline 0 .baseEnter) [.write 0x10 5]))
      (fun t => t.baseN == 10 && (hostRead 0x04 t).getLsbD 9) ∧
    nextWith (step (hosted (runningAt loaded .baseline 0 .baseEnter) [.write 0x00 5]))
      (fun t => t.cmd == 6 && t.status.wrOvr && t.busy) := by decide +kernel
/-- V-S2, V-S4. -/
theorem test_illegal_word :
    nextWith (step (hosted State.reset [.write 0x00 0x0B])) (fun t => hostRead 0x04 t == 0x4002 && hostRead 0x00 t == 0x0B) ∧
    nextWith (step (hosted State.reset [.write 0x00 0x100])) (fun t => hostRead 0x04 t == 0x4002) := by decide
/-- V-Z2. -/
theorem test_reset_abandons : nextWith (step (hosted (runningAt loaded .baseline 0 (.baseWait 100 2 0 0)) [.reset]))
    (fun t => t == State.reset) = true := by decide +kernel
/-- R91: a wait holds while BUSY = 1, and a sensor that never answers leaves the block BUSY (K7). -/
theorem test_silent_sensor : nextWith (step (hosted (sensing (runningAt loaded .sample 0 .rawRead) [.silent]) [.pause, .wait]))
    (fun t => t.busy && t.hostQueue == [.wait] && t.busTrace == []) = true := by decide +kernel
/-- R93: WAIT is a loop of `(R, 0x04, -)`, each read like any other. -/
theorem test_wait_polls :
    nextWith (step (hosted (runningAt loaded .sample 0 .rawRead) [.wait, .read 0]))
      (fun t => t.observed == [0x0000000D] && t.hostQueue == [.pause, .wait, .read 0]) ∧
    nextWith (step (hosted loaded [.wait, .read 0])) (fun t => t.observed == [0x0000000E] && t.hostQueue == [.read 0]) := by
  decide +kernel
/-- R91, with PR1's EXPECT and one that fails. -/
theorem test_expect :
    assemble [.expect64 .p0 (.bits 0x408F7442A3D70A3D)] = [.expect [(0x48, 0xA3D70A3D), (0x4C, 0x408F7442)]] ∧
    nextWith (step (hosted measured [.expect [(0x48, 0xA3D70A3D), (0x4C, 0x408F7442)]])) (fun t => t.checks == [true]) ∧
    nextWith (step (hosted measured [.expect [(0x04, 0x0000500E)]]))
      (fun t => t.checks == [false] && t.observed == [] && t.hostQueue == []) := by decide +kernel
theorem test_withFetchWord : nextWith (step (State.reset.withFetchWord 32 0x0A))
    (fun t => t.phase == .running ⟨.init, 0, .cfgFirst⟩ && t.cmd == 0x0A) = true := by decide

/-! ### The pipeline -/

/-- V-T1 and V-P0. -/
theorem test_comp_reference : comp 519888 415148 calDS =
    ⟨⟨0x0001F5A6, 0x000009CC, 0x0000000001892D41, 0x4039147AE147AE14, 0x408F7442A3D70A3D⟩, false, false⟩ := by
  decide +kernel
/-- V-T5 with V-T5's pressure of PR6. -/
theorem test_comp_wraps : comp 1048575 415148 calTOVF =
    ⟨⟨0xFFFFFF70, 0xFFFFFFFD, 0x00000000017A30CE, 0xBF9EB851EB851EB8, 0x408E415828F5C28F⟩, false, true⟩ := by
  decide +kernel
/-- V-T7 and V-P2. -/
theorem test_comp_sentinel : comp 0 0 calSENT =
    ⟨⟨0xFFEE002F, 0xFFFFA601, 0, 0xC06CCC7AE147AE14, 0⟩, true, false⟩ := by decide +kernel
/-- V-P6. -/
theorem test_comp_negative : (comp 519888 415148 calP6W).res.pQ248 = 0xFFFFFFFFFF30FDE9 ∧
    (comp 519888 415148 calP6W).res.pressHpa = 0xC0808F86F5C28F5C ∧ (comp 519888 415148 calP6W).ovf = true := by
  decide +kernel
/-- V-T8, V-P7 and the tie of V-F3. -/
theorem test_comp_tie : comp 0 0 calBIG =
    ⟨⟨0xFFF1F3A5, 0xFFFFB9C2, 0xFFCF14760B18BB83, 0xC0667A3D70A3D70A, 0xC25F4F109CBCF8A1⟩, false, true⟩ ∧
    fofInt (-13769776633955453) = 0xC34875C4FA73A23E := by decide +kernel
/-- V-P9: the quotient truncates. -/
theorem test_comp_truncates : comp 1021362 1048575 calTRUNC =
    ⟨⟨0xFFFFF960, 0xFFFFFFDF, 0xFFFFFFFFFD989613, 0xBFD51EB851EB851F, 0xC0989DD647AE147B⟩, false, false⟩ := by
  decide +kernel
/-- V-F2 and V-F5. -/
theorem test_float_stage : floatPress 1 = 0x3F047AE147AE147B ∧ floatTemp (-23040) = 0xC06CCCCCCCCCCCCD ∧
    floatTemp 23040 = 0x406CCCCCCCCCCCCD ∧ floatTemp 0 = 0 := by decide +kernel
/-- E8. -/
theorem test_coeff : fdiv 0 (fmul 0 Config.gasConstant Config.lapseRate) (fmul 0 Config.gravity Config.molarMass) =
    Config.coeff := by decide +kernel
/-- E6 and V-R5. -/
theorem test_raw20 : raw20 0xAB 0xCD 0xE0 = 0xABCDE ∧ raw20 0xAB 0xCD 0xEF = 0xABCDE := by decide

/-! ### The commands -/

/-- V-S12. -/
theorem test_nop : nextWith (exec .nop { State.reset with ie := true })
    (fun t => hostRead 0x04 t == 2 && t.irq && t.cmd == 0 && !t.busy) = true := by decide
/-- V-S5. -/
theorem test_configure_twice : nextWith (exec .configure { State.reset with
    status := { Status.reset with done := true, cfgDone := true } }) (fun t => hostRead 0x04 t == 0x6006 && t.busTrace == []) = true := by decide
/-- V-S11. -/
theorem test_configure_second_write : nextWith (exec .configure
    (sensing (runningAt State.reset .configure 0 .cfgSecond) [.error]))
    (fun t => hostRead 0x04 t == 0x1002 && t.busTrace == [(.write 0x76 0xF5 [0x10], .error)]) = true := by decide +kernel
/-- V-R1. -/
theorem test_loadCal : nextWith (exec .loadCal (runningAt State.reset .loadCal 0 (.calCommit bytesDS)))
    (fun t => hostRead 0x80 t == 0x6B70 && hostRead 0x84 t == 0x6743 && hostRead 0x88 t == 0xFFFFFC18 &&
      hostRead 0x8C t == 0x8E7D && hostRead 0x90 t == 0xFFFFD643 && hostRead 0xA0 t == 0xFFFFFFF9 &&
      hostRead 0xAC t == 0x1770 && t.status.calValid) = true := by decide +kernel
/-- V-R11. -/
theorem test_loadCal_short : nextWith (exec .loadCal
    (sensing (runningAt loaded .loadCal 0 .calRead) [.data (bytesDS.take 23)]))
    (fun t => t.dig == calDS && t.status.calValid && t.status.err == .ebus) = true := by decide +kernel
/-- V-R7. -/
theorem test_readRaw : nextWith (exec .readRaw (runningAt loaded .readRaw 0 (.rawCommit sampleS)))
    (fun t => hostRead 0x20 t == 0x655AC && hostRead 0x24 t == 0x7EED0 && t.status.rawValid) = true := by decide +kernel
/-- V-R8 and V-R14. -/
theorem test_readRaw_short : nextWith (exec .readRaw
    (sensing (runningAt { loaded with devAddr := 0x77 } .readRaw 0 .rawRead) [.data (sampleS.take 5)]))
    (fun t => t.rawP == 0 && !t.status.rawValid && hostRead 0x04 t == 0x100E &&
      t.busTrace == [(.read 0x77 0xF7 6, .data (sampleS.take 5))]) = true := by decide +kernel
/-- V-C1. -/
theorem test_compensate_uninit : nextWith (exec .compensate loaded)
    (fun t => t.status.err == .euninit && t.res == loaded.res && !t.busy) = true := by decide +kernel
/-- V-C8: the evaluation sets OVF. -/
theorem test_compensate_ovf : nextWith (exec .compensate
    (runningAt { measured with dig := calP6W } .compensate 0 .compEval))
    (fun t => t.status.ovf && t.res == measured.res && t.busy) = true := by decide +kernel
/-- V-S1. -/
theorem test_sample_uninit : nextWith (exec .sample State.reset)
    (fun t => hostRead 0x04 t == 0x2002 && t.cmd == 5 && t.busTrace == []) = true := by decide
/-- V-C6. -/
theorem test_sample_sentinel : nextWith (exec .sample
    (runningAt { measured with dig := calP1Z } .sample 1 (.compCommit (readingOf calP1Z sampleS))))
    (fun t => t.status.err == .ok && t.status.pinv && t.res.pQ248 == 0 && t.res.pressHpa == 0 &&
      t.res.tempC == 0x4039147AE147AE14 && t.status.resValid) = true := by decide +kernel
/-- V-B3: the second of two samples. -/
theorem test_baseline_mean : nextWith (exec .baseline (runningAt { loaded with baseN := 2 } .baseline 0
    (.baseAdd (readingOf calDS sampleS3) 2 0x408F7442A3D70A3D 0x4039147AE147AE14)))
    (fun t => t.p0 == 0x408F613047AE147A && t.t0 == 0x40728AE147AE147A && t.altOffset == 0 && t.status.baseValid &&
      !t.busy) = true := by decide +kernel
/-- V-B11. -/
theorem test_baseline_earg : nextWith (exec .baseline { State.reset with baseN := 0 })
    (fun t => t.status.err == .earg) = true := by decide
/-- V-A2 and V-A5, for every `pow64`. -/
theorem test_altEval_reference : nextWith (exec .altEval (runningAt { measured with altOffset := 0x4029000000000000 }
    .altEval 0 .altEval)) (fun t => t.altOut == 0x4029000000000000 && t.status.err == .ok) = true := by decide +kernel
/-- V-A6: a zero P0. -/
theorem test_altEval_infinite : nextWith (exec .altEval (runningAt { measured with p0 := 0 } .altEval 0 .altEval))
    (fun t => t.altOut == 0xFFF0000000000000 && t.status.err == .ok) = true := by decide +kernel
/-- R208: a NaN operand takes no draw. -/
theorem test_nan_operand (nan : F64) : fadd nan 0x7FF0000000000001 0 = propagateNaN .add 0x7FF0000000000001 0 ∧
    fsub nan Config.one 0x7FF8000000000000 = propagateNaN .sub Config.one 0x7FF8000000000000 := ⟨rfl, rfl⟩
/-- V-L1. -/
theorem test_altitude : nextWith (exec .altitude (runningAt measured .altitude 2 .altEval))
    (fun t => t.altOut == 0 && !t.busy && t.status.done) = true := by decide +kernel
/-- V-L9. -/
theorem test_altitude_uninit : nextWith (exec .altitude loaded)
    (fun t => t.status.err == .euninit && t.busTrace == []) = true := by decide +kernel
/-- V-L5. -/
theorem test_recalibrate : nextWith (exec .recalibrate
    (runningAt { measured with recalAlt := 0x4059000000000000, p0 := 0, t0 := 0 } .recalibrate 2 .rebase))
    (fun t => t.p0 == 0x408F7442A3D70A3D && t.t0 == 0x4072A3AE147AE147 && t.altOffset == 0x4059000000000000 &&
      t.status.baseValid) = true := by decide +kernel
/-- V-L6. -/
theorem test_recalibrate_sentinel : nextWith (exec .recalibrate
    (runningAt { measured with status := { measured.status with pinv := true } } .recalibrate 2 .rebase))
    (fun t => t.status.err == .einvcomp && t.p0 == measured.p0 && t.altOffset == measured.altOffset) = true := by
  decide +kernel
/-- V-S7. -/
theorem test_init_eseq : nextWith (exec .init { loaded with baseN := 0 }) (fun t => t.status.err == .eseq) = true := by
  decide +kernel
/-- R205: the calibration load follows the configuration. -/
theorem test_init_stages : nextWith (exec .init (runningAt State.reset .init 0 .cfgCommit))
    (fun t => t.phase == .running ⟨.init, 1, .calRead⟩ && t.status.cfgDone && !t.status.done) = true := by decide +kernel

/-! ### Witnesses: one per statement with hypotheses, each clause at a boundary value -/

theorem test_witness_DecodeAndEncodeAgree :
    decode 0x0000000A = .command .init ∧ (0x0000000B : Word).extractLsb' 8 24 = 0 ∧
    (∀ i ∈ [Instr.nop, .configure, .loadCal, .readRaw, .compensate, .sample, .baseline, .altEval, .altitude,
      .recalibrate, .init], (0x0000000B : Word).extractLsb' 0 8 ≠ i.opcode) ∧
    (0x00000100 : Word).extractLsb' 8 24 ≠ 0 ∧ (0xFFFFFFFF : Word).extractLsb' 8 24 ≠ 0 := by decide

theorem test_witness_StepRunsTheWrittenCommand :
    (hosted loaded [.write 0x00 0x0A]).phase = .idle ∧ decode 0x0A = .command .init ∧ decode 0 = .command .nop ∧
    (hosted loaded [.write 0x00 0x0A]).hostQueue = [.write 0x00 0x0A] := by decide

theorem test_witness_StepMovesTheRunningCommand :
    (∀ q ∈ [[], [HostAction.pause], [.wait], [.waitIrq]],
      (hosted (runningAt loaded .sample 0 .rawRead) q).phase = .running ⟨.sample, 0, .rawRead⟩ ∧
      (hosted (runningAt loaded .sample 0 .rawRead) q).irq = false) ∧
    (hosted loaded [.pause]).phase = .idle := by decide +kernel

theorem test_witness_OnlyMisalignedAccessesHaveNoStep :
    (match step (hosted loaded [.read 0x01]) with
      | .refused r => r == .misalignedHostAccess 0x01
      | .next _ | .fault _ => false) = true ∧
    (match step (hosted loaded [.write 0xFF 0]) with
      | .refused r => r == .misalignedHostAccess 0xFF
      | .next _ | .fault _ => false) = true := by decide

theorem test_witness_ResetInputRestoresTheBlock :
    (hosted (runningAt measured .altitude 2 .altEval) [.reset, .read 0]).hostQueue = .reset :: [.read 0] := by decide

theorem test_witness_HostReadsChangeNothing :
    (∀ off ∈ [0x00#8, 0x1C, 0x70, 0x7C, 0xAC, 0xB0, 0xFC], off.extractLsb' 0 2 = 0) ∧
    (hosted loaded [.read 0xFC]).hostQueue = .read 0xFC :: [] ∧
    (hosted (runningAt loaded .sample 0 .rawRead) [.wait]).hostQueue = .wait :: [] ∧
    (hosted loaded [.expect [(0x04, 0x0000000E)]]).hostQueue = .expect [(0x04, 0x0000000E)] :: [] := by decide

theorem test_witness_ReadOnlyAndReservedWritesAreIgnored :
    ∀ off ∈ [0x1C#8, 0x28, 0x5C, 0x68, 0x70, 0xAC, 0xFC], off.extractLsb' 0 2 = 0 ∧
      off ∉ [0x00#8, 0x04, 0x08, 0x0C, 0x10, 0x14, 0x18, 0x20, 0x24, 0x60, 0x64] ∧
      (hosted loaded [.write off 1]).hostQueue = .write off 1 :: [] := by decide

theorem test_witness_BusyWritesOnlySetWrOvr :
    (hosted (runningAt loaded .sample 0 .rawRead) [.write 0x64 5]).busy = true ∧
    (hosted (runningAt loaded .sample 0 .rawRead) [.write 0x64 5]).hostQueue = .write 0x64 5 :: [] ∧
    nextWith (step (hosted { loaded with status := { loaded.status with wrOvr := true } } [.write 0x04 2]))
      (fun t => t.status.wrOvr) ∧
    nextWith (step (hosted { loaded with status := { loaded.status with wrOvr := true } } [.write 0x08 1]))
      (fun t => t.status.wrOvr) := by decide +kernel

theorem test_witness_StatusWriteClearsThreeBits :
    (hosted loaded [.write 0x04 0x00000302]).hostQueue = .write 0x04 0x00000302 :: [] ∧
    (0x00000302 : Word).getLsbD 1 = true ∧ (0x00000302 : Word).getLsbD 8 = true ∧
    (0x00000302 : Word).getLsbD 9 = true := by decide

theorem test_witness_CtrlIsOneBit :
    (hosted (runningAt loaded .sample 0 .rawRead) [.write 0x08 0xFFFFFFFF]).hostQueue = .write 0x08 0xFFFFFFFF :: [] := by
  decide

theorem test_witness_ConfigurationRegisters :
    loaded.phase = .idle ∧ ∀ off ∈ [0x0C#8, 0x10, 0x14, 0x18],
      (hosted loaded [.write off 0xFFFFFFFF]).hostQueue = .write off 0xFFFFFFFF :: [] := by decide

theorem test_witness_RawRegistersSetRawValid :
    loaded.phase = .idle ∧ ∀ off ∈ [0x20#8, 0x24],
      (hosted loaded [.write off 0xFFFFFFFF]).hostQueue = .write off 0xFFFFFFFF :: [] := by decide

theorem test_witness_RecalAltIsTheHosts :
    loaded.phase = .idle ∧ (hosted loaded [.write 0x60 1]).hostQueue = .write 0x60 1 :: [] ∧
    nextWith (step (hosted loaded [.write 0x64 0x40590000])) (fun t => t.recalAlt != loaded.recalAlt) ∧
    nextWith (step (hosted { loaded with recalAlt := 1 } [.reset])) (fun t => t.recalAlt != 1) := by decide +kernel

theorem test_witness_CommandWritesAreAccepted :
    (hosted (runningAt loaded .sample 0 .rawRead) [.write 0x00 5]).busy = true ∧ loaded.phase = .idle ∧
    (∀ i ∈ [Instr.nop, .configure, .loadCal, .readRaw, .compensate, .sample, .baseline, .altEval, .altitude,
      .recalibrate, .init], (0x0000000B : Word) ≠ encode i) ∧
    verdict .configure loaded = some .eseq ∧ verdict .nop loaded = none ∧ stagesOf .nop = [] ∧
    verdict .sample loaded = none ∧ stagesOf .sample = .raw :: [.comp] := by decide

theorem test_witness_RefusalsAtAcceptance :
    loaded.phase = .idle ∧ loaded.status.cfgDone = true ∧ State.reset.status.cfgDone = false ∧
    { State.reset with baseN := 0 }.baseN = 0 ∧ State.reset.status.calValid = false ∧ State.reset.baseN ≠ 0 ∧
    loaded.status.rawValid = false ∧ loaded.status.resValid = false ∧ loaded.status.baseValid = false := by decide

theorem test_witness_DoneMarksCompletion :
    nextWith (step (runningAt measured .altitude 2 .altEval))
      (fun t => t.status.done && !t.busy && !(runningAt measured .altitude 2 .altEval).status.done) ∧
    nextWith (step (hosted State.reset [.write 0x00 0])) (fun t => t.status.done) ∧
    nextWith (step (hosted loaded [.write 0x00 5])) (fun t => loaded.status.done && !t.status.done) ∧
    nextWith (step (hosted loaded [.write 0x04 2])) (fun t => !t.status.done) ∧
    nextWith (step (hosted loaded [.reset])) (fun t => !t.status.done) := by decide +kernel

theorem test_witness_NothingVisibleChangesInsideAStage :
    nextWith (exec .compensate (runningAt { measured with dig := calP6W } .compensate 0 .compEval))
      (fun t => t.phase == .running ⟨.compensate, 0, .compCommit (readingOf calP6W sampleS)⟩) = true := by decide +kernel

theorem test_witness_BusFailuresEndTheCommand :
    (∀ p ∈ [Point.cfgFirst, .cfgSecond, .calRead, .rawRead, .baseRead 1 0 0],
      (sensing (runningAt loaded .init 0 p) [.error]).phase = .running ⟨.init, 0, p⟩) ∧
    nextAnswer (rawBurst loaded) (sensing loaded [.error]) = .error ∧
    nextAnswer (rawBurst loaded) (sensing loaded [.data [1, 2, 3, 4, 5]]) = .data [1, 2, 3, 4, 5] := by decide +kernel

theorem test_witness_SentinelStopsOnlyThreeStages :
    (readingOf calP1Z sampleS).pinv = true ∧
    (runningAt { measured with status := { measured.status with pinv := true } } .altEval 0 .altEval).status.pinv = true ∧
    (runningAt measured .sample 1 (.compCommit (readingOf calP1Z sampleS))).phase =
      .running ⟨.sample, 1, .compCommit (readingOf calP1Z sampleS)⟩ ∧
    nextWith (step (runningAt { measured with status := { measured.status with pinv := true } } .recalibrate 2 .rebase))
      (fun t => t.status.err == .einvcomp && !t.busy) ∧
    nextWith (exec .sample loaded) (fun t => t.status.err == .ok) := by decide +kernel

theorem test_witness_LastMoveCommitsAndCompletes :
    (runningAt measured .configure 0 .cfgCommit).phase = .running ⟨.configure, 0, .cfgCommit⟩ ∧
    (runningAt measured .altitude 2 .altEval).status.pinv = false ∧ (readingOf calDS sampleS).pinv = false ∧
    loaded.baseN.toNat ≤ 10 ∧ { loaded with baseN := 255 }.baseN.toNat ≤ 255 := by decide +kernel

theorem test_witness_EveryCommandCompletes :
    (sensing { State.reset with baseN := 255 } [.data [], .data [], .data bytesDS]).phase = .idle ∧
    .silent ∉ (sensing { State.reset with baseN := 255 } [.data [], .data [], .data bytesDS]).sensorQueue := by decide

theorem test_witness_ValidityBitsStayUntilReset :
    nextWith (step (hosted measured [.write 0x04 0xFFFFFFFF])) (fun t => t.status.cfgDone) ∧
    (∀ rest ∈ [[], [HostAction.wait]], (hosted measured [.write 0x04 0xFFFFFFFF]).hostQueue ≠ .reset :: rest) ∧
    measured.status.cfgDone = true ∧ measured.status.calValid = true ∧ measured.status.rawValid = true ∧
    measured.status.resValid = true ∧ measured.status.baseValid = true := by decide +kernel

theorem test_witness_OvfIsSticky :
    (comp 519888 415148 calP6W).ovf = true ∧ (readingOf calTOVF [0x65, 0x5A, 0xC0, 0xFF, 0xFF, 0xF0]).ovf = true ∧
    nextWith (step (hosted { loaded with status := { loaded.status with ovf := true } } [.write 0x04 0x100]))
      (fun t => !t.status.ovf) ∧
    nextWith (step (runningAt { measured with dig := calP6W } .compensate 0 .compEval)) (fun t => t.status.ovf) := by
  decide +kernel

theorem test_witness_OnlyTheFourTransactions :
    nextWith (step (sensing (runningAt loaded .sample 0 .rawRead) [.data sampleS]))
      (fun t => t.busTrace == [(.read 0x76 0xF7 6, .data sampleS)]) = true := by decide +kernel

theorem test_witness_SequencerStaysConsistent :
    RunningOk ⟨.altitude, 1, .compEval⟩ (runningAt measured .altitude 1 .compEval) ∧
    ValidityOrdered measured.status ∧
    nextWith (step (runningAt measured .altitude 1 .compEval)) (fun t => t.busy) = true := by
  refine ⟨⟨by decide, by decide, by decide, by decide, ⟨by decide, by decide⟩, ⟨by decide, by decide⟩, trivial⟩,
    ⟨by decide, by decide, by decide⟩, by decide +kernel⟩

theorem test_witness_ResultRegistersStayConsistent :
    ResultsOk (readingOf calDS sampleS).res false ∧ ResultsOk (readingOf calP1Z sampleS).res true := by
  refine ⟨⟨?_, ?_, ?_, ?_, ?_, ?_⟩, ⟨?_, ?_, ?_, ?_, ?_, ?_⟩⟩ <;> decide +kernel

theorem test_witness_DelaysChangeNoValue :
    forgetDelays (runningAt { loaded with settleMs := 0 } .baseline 0 (.baseWait 0 1 0 0)) =
      forgetDelays (runningAt { loaded with settleMs := 0xFFFF } .baseline 0 (.baseWait 0xFFFF 1 0 0)) ∧
    nextWith (exec .baseline (runningAt loaded .baseline 0 (.baseWait 0 1 0 0))) (fun _ => true) = true := by
  decide +kernel

theorem test_witness_BaselineLeavesTheReadingAlone :
    stageOf (.baseAdd (readingOf calDS sampleS) 10 0 0) = .base ∧
    nextWith (exec .baseline (runningAt measured .baseline 0 (.baseAdd (readingOf calDS sampleS) 10 0 0)))
      (fun t => t.p0 != measured.p0) = true := by decide +kernel

theorem test_witness_TemperaturePathRanges :
    (tempPathOf calTOVF 1048575).var1.ovf = true ∧ (tempPathOf calTOVF 1048575).s.ovf = true ∧
    (tempPathOf calBIG 0).var2.ovf = true ∧ (tempPathOf calDS 519888).s.ovf = false := by decide +kernel

theorem test_witness_TemperatureInHundredths :
    (runningAt loaded .compensate 0 (.compCommit (readingOf calDS sampleS))).phase =
      .running ⟨.compensate, 0, .compCommit (readingOf calDS sampleS)⟩ := by decide +kernel

theorem test_witness_PressurePathRanges :
    (pressFrontOf calDS 128422).divisor.val = 597560748 ∧ (pressFrontOf calP6W 128422).divisor.ovf = true ∧
    (pressBackOf calBIG 0 (pressFrontOf calBIG (tempPathOf calBIG 0).tFine.val)).num.ovf = true := by decide +kernel

theorem test_witness_WrapShiftAndDivision :
    (7 : ℚ) / (2 : Int) ≥ 0 ∧ truncDiv 7 2 = 3 ∧ (-7 : ℚ) / (2 : Int) ≤ 0 ∧ truncDiv (-7) 2 = -3 ∧
    (0 : ℚ) / (-1 : Int) = 0 ∧ truncDiv 0 (-1) = 0 := by decide +kernel

theorem test_witness_DivisionTruncates :
    (pressFrontOf calP1Z 128422).divisor.val = 0 ∧ (pressFrontOf calDS 128422).divisor.val ≠ 0 := by decide +kernel

theorem test_witness_SentinelExactly :
    (comp 519888 415148 calP1Z).pinv = true ∧ calP1Z.p1 = 0 ∧ (comp 0 0 calSENT).pinv = true ∧ calSENT.p1 ≠ 0 ∧
    (comp 519888 415148 calDS).pinv = false := by decide +kernel

theorem test_witness_FloatStageIsCorrectlyRounded :
    (comp 519888 415148 calDS).pinv = false ∧ (comp 519888 415148 calP1Z).pinv = true := by decide +kernel

theorem test_witness_NoOverflowMeansTheExactFormula :
    (comp 519888 415148 calDS).ovf = false ∧ (comp 519888 415148 calDS).pinv = false ∧
    (comp 0 0 calSENT).ovf = false ∧ (comp 0 0 calSENT).pinv = true := by decide +kernel

/-- G6's cases, an overflow, and one pair of operands for each clause. -/
theorem test_witness_FloatOperationsFollowTheStandard :
    let nan : F64 := 0x7FF8000000000000
    fisFinite 0x408FAA0000000000 = true ∧ fisFinite 0x4072026666666666 = true ∧ fval 0x4072026666666666 ≠ 0 ∧
    (fadd nan 0x8000000000000000 0x0000000000000000 = 0x0000000000000000 ∧
      fsub nan 0x8000000000000000 0x0000000000000000 = 0x8000000000000000 ∧
      fdiv nan 0xBFF0000000000000 0x0000000000000000 = 0xFFF0000000000000 ∧
      fmul nan 0x7FE0000000000000 0x4000000000000000 = 0x7FF0000000000000 ∧
      fdiv nan 0x3FF0000000000000 0x7FF0000000000000 = 0 ∧
      fdiv nan 0 0 = nan ∧ fsub nan (finf true) (finf true) = nan ∧ fmul nan (finf true) 0 = nan) ∧
    fisNaN 0x7FF0000000000001 = true := by decide +kernel

theorem test_witness_FloatOperationsFollowTheStandard_zeros : fval 0x0000000000000000 = 0 ∧ fval 0x8000000000000000 = 0 :=
  ⟨(fval_eq_zero_iff (s := false) (e := -1074) (by decide)).mpr rfl,
    (fval_eq_zero_iff (s := true) (e := -1074) (by decide)).mpr rfl⟩

theorem test_witness_PowerFunctionProperties :
    fisNaN 0x7FF8000000000000 = true ∧ fisFinite 0xBFA2200274E33A39 = true ∧ fval 0xBFA2200274E33A39 < 0 ∧
    fisFinite 0x3FEC6C634AD9279A = true ∧ 0 < fval 0x3FEC6C634AD9279A := by decide +kernel

theorem test_witness_NopCompletesAtOnce : (runningAt loaded .sample 0 .rawRead).phase ≠ .idle ∧ loaded.phase = .idle := by
  decide

theorem test_witness_ConfigureWritesTheSensor :
    State.reset.phase = .idle ∧ loaded.status.cfgDone = true ∧ State.reset.status.cfgDone = false ∧
    nextAnswer (.write 0x76 0xF4 [0x57]) (sensing State.reset [.data [], .error]) = .data [] ∧
    nextAnswer (.write 0x76 0xF5 [0x10])
      (recordTx (.write 0x76 0xF4 [0x57]) (.data []) (sensing State.reset [.data [], .error])) = .error ∧
    nextAnswer (.write 0x76 0xF5 [0x10])
      (recordTx (.write 0x76 0xF4 [0x57]) (.data []) (sensing State.reset [.data [], .data []])) = .data [] ∧
    nextAnswer (.write 0x76 0xF4 [0x57]) (sensing State.reset [.error]) = .error := by decide

theorem test_witness_LoadCalReplacesTheCoefficients :
    loaded.phase = .idle ∧ loaded.status.cfgDone = true ∧ State.reset.status.cfgDone = false ∧
    nextAnswer (.read 0x76 0x88 24) (sensing loaded [.data bytesDS]) = .data bytesDS ∧ bytesDS.length = 24 ∧
    nextAnswer (.read 0x76 0x88 24) (sensing loaded [.data (bytesDS.take 23)]) = .data (bytesDS.take 23) ∧
    (bytesDS.take 23).length ≠ 24 ∧ nextAnswer (.read 0x76 0x88 24) (sensing loaded [.error]) = .error := by decide

/-- For READ_RAW, SAMPLE, ALTITUDE and RECALIBRATE. -/
theorem test_witness_ReadRawTakesOneBurst :
    measured.phase = .idle ∧ measured.status.calValid = true ∧ measured.status.baseValid = true ∧
    State.reset.status.calValid = false ∧ loaded.status.baseValid = false ∧
    nextAnswer (rawBurst measured) (sensing measured [.data sampleS]) = .data sampleS ∧ sampleS.length = 6 ∧
    nextAnswer (rawBurst measured) (sensing measured [.data (sampleS.take 5)]) = .data (sampleS.take 5) ∧
    (sampleS.take 5).length ≠ 6 ∧ nextAnswer (rawBurst measured) (sensing measured [.error]) = .error := by
  decide +kernel

theorem test_witness_CompensateCommitsThePipeline :
    measured.phase = .idle ∧ measured.status.calValid = true ∧ measured.status.rawValid = true ∧
    loaded.status.rawValid = false ∧ State.reset.status.calValid = false := by decide

theorem test_witness_SampleReadsAndCompensates :
    loaded.phase = .idle ∧ loaded.status.calValid = true ∧ State.reset.status.calValid = false ∧
    nextAnswer (rawBurst loaded) (sensing loaded [.data sampleS]) = .data sampleS ∧ sampleS.length = 6 ∧
    nextAnswer (rawBurst loaded) (sensing loaded [.data (sampleS.take 5)]) = .data (sampleS.take 5) := by decide

theorem test_witness_BaselineAveragesTheSamples :
    loaded.phase = .idle ∧ { loaded with baseN := 0 }.baseN = 0 ∧ State.reset.status.calValid = false ∧
    (takeSamples 2 (sensing { loaded with baseN := 2 } [.data sampleS, .data sampleS3])).map (fun r => r.1) =
      some [sampleS, sampleS3] ∧
    (readingOf calDS sampleS).pinv = false ∧ (readingOf calDS sampleS3).pinv = false := by decide +kernel

/-- Its failures: the first sample fails, and the second of two does; the sentinel at the first sample. -/
theorem test_witness_BaselineAveragesTheSamples_failures :
    (takeSamples 0 (sensing loaded [.error])).map (fun r => nextAnswer (rawBurst r.2) r.2) = some .error ∧
    (takeSamples 1 (sensing { loaded with baseN := 2 } [.data sampleS, .data [1]])).map
      (fun r => (r.1, nextAnswer (rawBurst r.2) r.2)) = some ([sampleS], .data [1]) ∧
    nextAnswer (rawBurst loaded) (sensing { loaded with dig := calP1Z } [.data sampleS]) = .data sampleS ∧
    (readingOf calP1Z sampleS).pinv = true := by decide +kernel

theorem test_witness_AltEvalEvaluatesTheFormula :
    measured.phase = .idle ∧ measured.status.resValid = true ∧ measured.status.baseValid = true ∧
    measured.status.pinv = false ∧ loaded.status.resValid = false ∧ loaded.status.baseValid = false ∧
    { measured with status := { measured.status with pinv := true } }.status.pinv = true := by decide

theorem test_witness_AltitudeUsesAFreshSample :
    measured.phase = .idle ∧ measured.status.calValid = true ∧ measured.status.baseValid = true ∧
    nextAnswer (rawBurst measured) (sensing measured [.data sampleS]) = .data sampleS ∧
    (readingOf calDS sampleS).pinv = false ∧ (readingOf calP1Z sampleS).pinv = true ∧
    loaded.status.baseValid = false := by decide +kernel

theorem test_witness_RecalibrateRebasesOnAFreshSample :
    measured.phase = .idle ∧ measured.status.calValid = true ∧
    nextAnswer (rawBurst measured) (sensing measured [.error]) = .error ∧
    nextAnswer (rawBurst measured) (sensing measured [.data sampleS]) = .data sampleS ∧
    (readingOf calDS sampleS).pinv = false ∧ (readingOf calP1Z sampleS).pinv = true := by decide +kernel

/-- The sensor's script of PR1. -/
theorem test_witness_InitConfiguresLoadsAndAverages :
    let s := sensing { State.reset with baseN := 2 } [.data [], .data [], .data bytesDS, .data sampleS, .data sampleS]
    let s2 := recordTx (.write 0x76 0xF5 [0x10]) (.data []) (recordTx (.write 0x76 0xF4 [0x57]) (.data []) s)
    s.phase = .idle ∧ s.status.cfgDone = false ∧ s.baseN ≠ 0 ∧
    nextAnswer (.write s.devAddr 0xF4 [0x57]) s = .data [] ∧
    nextAnswer (.write s.devAddr 0xF5 [0x10]) (recordTx (.write s.devAddr 0xF4 [0x57]) (.data []) s) = .data [] ∧
    nextAnswer (.read s.devAddr 0x88 24) s2 = .data bytesDS ∧ bytesDS.length = 24 ∧
    (takeSamples 2 (recordTx (.read s.devAddr 0x88 24) (.data bytesDS) s2)).map (fun r => r.1) =
      some [sampleS, sampleS] ∧
    (readingOf (calDecode bytesDS) sampleS).pinv = false ∧
    nextAnswer (.read s.devAddr 0x88 24) { s2 with sensorQueue := [.error] } = .error := by decide +kernel

theorem test_witness_AltitudeCornerCases :
    let q := fdiv 0x7FF8000000000000 0x4072026666666666 Config.lapseRate
    let nan : F64 := 0x7FF8000000000000
    fisNaN nan = true ∧ fisFinite 0x408FAA0000000000 = true ∧ fval 0x408FAA0000000000 ≠ 0 ∧
    fisFinite q = true ∧ fPositive q = true ∧ fisNaN 0x8000000000000000 = false ∧ fPositive 0x408FAA0000000000 = true ∧
    fisZero 0x8000000000000000 = true ∧ fNegative (fdiv nan 0xC08FAA0000000000 0x408FAA0000000000) = true ∧
    fNegative 0xC08FAA0000000000 = true ∧ fNegative (fdiv nan 0xC08FAA0000000000 0) = true := by decide +kernel

theorem test_witness_RecalibrationProperty :
    let s := sensing { measured with recalAlt := 0x8000000000000000 } [.data sampleS]
    s.phase = .idle ∧ s.status.calValid = true ∧ nextAnswer (rawBurst s) s = .data sampleS ∧ sampleS.length = 6 ∧
    (readingOf s.dig sampleS).pinv = false ∧ (readingOf s.dig sampleS).res.pressHpa ≠ 0 ∧
    fisNaN s.recalAlt = false ∧ fisNaN { s with recalAlt := 0x7FF0000000000001 }.recalAlt = true := by decide +kernel

end Sys2Proof.Tests
end

/-! The host port's register rules (R21, R26, R60) as rewrites of a step, what a move of the sequencer leaves of
the state, and the statements about CTRL, WR_OVR and RECAL_ALT. -/

namespace Sys2Proof.Machine

/-! ### One rule per kind of host write -/

/-- CMD is the only register at offset 0x00. -/
theorem offset_eq_zero {r : RegName} : r.offset = 0x00 ↔ r = .cmd := by cases r <;> decide

/-- A step that takes a host write to a register other than CMD. -/
theorem step_write_register {s : State} {r : RegName} {v : Word} {rest : List HostAction} (hr : r ≠ .cmd)
    (h : s.hostQueue = .write r.offset v :: rest) : step s = .next (writeReg r v { s with hostQueue := rest }) := by
  rw [step_write h (aligned_offset r), hostWrite_register hr]

/-- A step that takes a host write to CMD or to an RW* register while BUSY = 1 (R26). -/
theorem step_write_busy {s : State} {r : RegName} {v : Word} {rest : List HostAction}
    (hr : r = .cmd ∨ r.access = .rwIdle) (hb : s.busy = true) (h : s.hostQueue = .write r.offset v :: rest) :
    step s = .next (noteOverrun { s with hostQueue := rest }) := by
  have hb' : ({ s with hostQueue := rest } : State).busy = true := hb
  obtain rfl | hr := hr
  · rw [step_write h (aligned_offset _), RegName.offset, hostWrite_cmd, writeCommand, if_pos hb']
  · have hc : r ≠ .cmd := by rintro rfl; cases hr
    simp only [step_write_register hc h, writeReg, hr, hb', if_true]

/-- A step that takes a host write to an RW* register while idle. -/
theorem step_write_idle {s : State} {r : RegName} {v : Word} {rest : List HostAction} (hr : r.access = .rwIdle)
    (hp : s.phase = .idle) (h : s.hostQueue = .write r.offset v :: rest) :
    step s = .next (writeArgument r v { s with hostQueue := rest }) := by
  have hb : ({ s with hostQueue := rest } : State).busy = false := busy_idle hp
  have hc : r ≠ .cmd := by rintro rfl; cases hr
  simp [step_write_register hc h, writeReg, hr, hb]

/-- The registers of R26: CMD and the RW* ones. -/
theorem register_of_overrun_offset {off : BitVec 8}
    (h : off ∈ [0x00#8, 0x0C, 0x10, 0x14, 0x18, 0x20, 0x24, 0x60, 0x64]) :
    ∃ r : RegName, r.offset = off ∧ (r = .cmd ∨ r.access = .rwIdle) := by
  have hm : off ∈ [RegName.cmd, .devAddr, .baseN, .settleMs, .intervalMs, .rawP, .rawT, .recalAltLo, .recalAltHi].map
      RegName.offset := h
  obtain ⟨r, hr, e⟩ := List.mem_map.mp hm
  exact ⟨r, e, by clear e; revert r; decide⟩

/-- A write that changes RECAL_ALT is one to a half of it while BUSY = 0 (R45). -/
theorem writeReg_recalAlt {r : RegName} {v : Word} {s : State} (h : (writeReg r v s).recalAlt ≠ s.recalAlt) :
    s.busy = false ∧ (r = .recalAltLo ∨ r = .recalAltHi) := by
  obtain ⟨-, e⟩ | ⟨-, e⟩ | ⟨-, -, e⟩ | ⟨-, hb, e⟩ | ⟨-, e⟩ := writeReg_cases r v s <;> rw [e] at h
  case inr.inr.inr.inl => exact ⟨hb, by cases r <;> simp_all [writeArgument]⟩
  all_goals exact absurd rfl h

/-! ### What a move and an acceptance leave -/

theorem move_frame_of_moveState {p : Point} {s u : State} (h : moveState (move p s) = some u) : MoveFrame s u := by
  obtain ⟨t, ht, hf⟩ := move_frame p s
  rw [h] at ht
  injection ht with e
  exact e ▸ hf

/-- The sequencer's next state is a state `u` within the frame of moves: with its phase kept, with the phase set to
running, or completed (R203). -/
theorem advance_frame {stages : List Stage} {q : Running} {s t : State} (h : advance stages q s = .next t) :
    ∃ u, MoveFrame s u ∧
      (t = u ∨ (∃ q', t = { u with phase := .running q' }) ∨ ∃ e, t = complete e u) := by
  have frame : ∀ {u}, moveState (move q.point s) = some u → MoveFrame s u := move_frame_of_moveState
  obtain ⟨p, u, hm, e⟩ | ⟨u, hm, e⟩ | ⟨c, u, hm, e⟩ | ⟨u, hm, e⟩ := advance_cases stages q s <;>
    obtain rfl := Host.Outcome.next.inj (h.symm.trans e) <;> rw [hm] at frame
  · exact ⟨u, frame rfl, .inr (.inl ⟨_, rfl⟩)⟩
  · obtain ⟨st, -, e'⟩ | ⟨-, e'⟩ := nextStage_cases stages q u
    · exact ⟨u, frame rfl, .inr (.inl ⟨_, e'⟩)⟩
    · exact ⟨u, frame rfl, .inr (.inr ⟨_, e'⟩)⟩
  · exact ⟨u, frame rfl, .inr (.inr ⟨c, rfl⟩)⟩
  · exact ⟨t, frame rfl, .inl rfl⟩

/-- No move of the sequencer writes RECAL_ALT (R45). -/
theorem advance_recalAlt {stages : List Stage} {q : Running} {s t : State} (h : advance stages q s = .next t) :
    t.recalAlt = s.recalAlt := by
  obtain ⟨u, hf, rfl | ⟨q', rfl⟩ | ⟨e, rfl⟩⟩ := advance_frame h <;> exact hf.recalAlt

/-- Acceptance does not write RECAL_ALT (R45). -/
@[simp] theorem accept_recalAlt (i : Instr) (cs : List (Option ErrCode)) (stages : List Stage) (s : State) :
    (accept i cs stages s).recalAlt = s.recalAlt := by
  obtain ⟨e, -, h⟩ | ⟨-, -, h⟩ | ⟨st, rest, -, -, h⟩ := accept_cases i cs stages s <;> rw [h] <;> rfl

/-! ### CTRL, WR_OVR and RECAL_ALT -/

/-- Settles O15: a write to CTRL is the register rule of CTRL, and its read is IE in bit 0. -/
theorem ctrlIsOneBit : Obligations.CtrlIsOneBit := by
  refine ⟨rfl, fun s => ?_, fun s v rest h => step_write_register (r := .ctrl) (by decide) h⟩
  have hr : hostRead 0x08 s = (BitVec.ofBool s.ie).zeroExtend 32 := hostRead_offset .ctrl s
  rw [hr]
  cases s.ie <;> rfl

/-- Settles O12: a busy write to one of the nine is an overrun, and those to STATUS and CTRL are register writes that
clear WR_OVR or leave it. -/
theorem busyWritesOnlySetWrOvr : Obligations.BusyWritesOnlySetWrOvr := by
  refine ⟨fun s off v rest hb hoff h => ?_, fun s t off v rest hoff h hs hw => ?_⟩
  · obtain ⟨r, rfl, hr⟩ := register_of_overrun_offset hoff
    exact step_write_busy hr hb h
  · obtain rfl | rfl := hoff
    · have e := step_write_register (r := .status) (by decide) h
      obtain rfl := Host.Outcome.next.inj (hs.symm.trans e)
      have hc : (s.status.wrOvr && !v.getLsbD 9) = true := hw
      exact (Bool.and_eq_true_iff.mp hc).1
    · have e := step_write_register (r := .ctrl) (by decide) h
      obtain rfl := Host.Outcome.next.inj (hs.symm.trans e)
      exact hw

/-- Settles O18: of the ways a step takes, only reset and a register write touch RECAL_ALT, and of the register writes
only those to its halves while idle. -/
theorem recalAltIsTheHosts : Obligations.RecalAltIsTheHosts := by
  refine ⟨rfl, fun s v rest hp => ⟨fun h => step_write_idle (r := .recalAltLo) rfl hp h,
    fun h => step_write_idle (r := .recalAltHi) rfl hp h⟩, fun s t hs hne => ?_⟩
  cases step_cases hs with
  | reset rest h => exact ⟨rest, .inl h⟩
  | register r v rest _ h =>
    obtain ⟨hb, rfl | rfl⟩ := writeReg_recalAlt hne
    · exact ⟨rest, .inr ⟨hb, v, .inl h⟩⟩
    · exact ⟨rest, .inr ⟨hb, v, .inr h⟩⟩
  | still _ hu => obtain rfl | rfl := hu <;> exact absurd rfl hne
  | move u _ q hu _ _ _ h =>
    rw [advance_recalAlt h] at hne
    obtain rfl | rfl := hu <;> exact absurd rfl hne
  | accept => simp at hne
  | read | poll | check | overrun | illegal => exact absurd rfl hne

end Sys2Proof.Machine

/-! STATUS.DONE over one step: what a step does to DONE and BUSY, said once, and the statement about completion
(R25). -/

namespace Sys2Proof.Machine

theorem busy_eq_false_iff {s : State} : s.busy = false ↔ s.phase = .idle := by
  rcases h : s.phase with _ | q <;> simp [State.busy, h]

/-- A move of the running command leaves DONE while it runs on, or completes it with DONE = 1 (R202, R203). -/
theorem advance_done {stages : List Stage} {q : Running} {s t : State} (hq : s.phase = .running q)
    (h : advance stages q s = .next t) :
    (t.busy = true ∧ t.status.done = s.status.done) ∨ (t.phase = .idle ∧ t.status.done = true) := by
  obtain ⟨u, hf, rfl | ⟨q', rfl⟩ | ⟨e, rfl⟩⟩ := advance_frame h
  · exact .inl ⟨busy_running (hf.phase.trans hq), hf.done⟩
  · exact .inl ⟨rfl, hf.done⟩
  · exact .inr ⟨rfl, rfl⟩

/-- Acceptance leaves DONE = 1 exactly when no stage starts (R201). -/
theorem accept_done (i : Instr) (cs : List (Option ErrCode)) (stages : List Stage) (s : State) :
    (accept i cs stages s).status.done = !(accept i cs stages s).busy := by
  obtain ⟨e, -, h⟩ | ⟨-, -, h⟩ | ⟨st, rest, -, -, h⟩ := accept_cases i cs stages s <;> rw [h] <;> rfl

/-- What a step from `s` to `t` does to DONE and BUSY: nothing, the completion of the running command, an acceptance, a
host write to STATUS, or reset (R25). -/
inductive DoneChange (s t : State) : Prop where
  | kept (hw : s.phase = .idle → ∀ w rest, s.hostQueue ≠ .write 0x00 w :: rest) (hb : t.busy = s.busy)
      (hd : t.status.done = s.status.done)
  | completed (hs : s.busy = true) (ht : t.phase = .idle) (hd : t.status.done = true)
  | accepted (w : Word) (rest : List HostAction) (hs : s.phase = .idle) (h : s.hostQueue = .write 0x00 w :: rest)
      (hd : t.status.done = !t.busy)
  | cleared (v : Word) (rest : List HostAction) (h : s.hostQueue = .write 0x04 v :: rest) (hb : t.busy = s.busy)
      (hd : t.status.done = (s.status.done && !v.getLsbD 1))
  | reset (rest : List HostAction) (h : s.hostQueue = .reset :: rest) (hd : t.status.done = false)

/-- A host write to a register other than CMD changes DONE only through STATUS, and never BUSY (R23). -/
theorem doneChange_writeReg {s : State} {r : RegName} {v : Word} {rest : List HostAction} (hr : r ≠ .cmd)
    (h : s.hostQueue = .write r.offset v :: rest) : DoneChange s (writeReg r v (popHost s)) := by
  have hf := writeReg_frame r v (popHost s)
  have hb : (writeReg r v (popHost s)).busy = s.busy := by simp [State.busy, hf.phase]
  by_cases hst : r = .status
  · subst hst
    exact .cleared v rest h hb rfl
  · refine .kept (fun _ w rest' h' => hr ?_) hb (hf.doneKept hst)
    have ho : r.offset = 0x00 ∧ v = w := by
      simpa using (List.cons.inj (h.symm.trans h')).1
    exact offset_eq_zero.mp ho.1

theorem step_doneChange {s t : State} (h : step s = .next t) : DoneChange s t := by
  cases step_cases h with
  | still _ hu hw => obtain rfl | rfl := hu <;> exact .kept (fun _ => hw) rfl rfl
  | move u _ q hu hq _ hw hm =>
    have hus : u.phase = s.phase ∧ u.status = s.status := by obtain rfl | rfl := hu <;> exact ⟨rfl, rfl⟩
    have hs : s.busy = true := busy_running (hus.1 ▸ hq)
    obtain ⟨hb, hd⟩ | ⟨hp, hd⟩ := advance_done hq hm
    · exact .kept (fun _ => hw 0x00) (hb.trans hs.symm) (hd.trans (by rw [hus.2]))
    · exact .completed hs hp hd
  | reset rest hq => exact .reset rest hq rfl
  | read off rest hq => exact .kept (by simp [hq]) rfl rfl
  | poll rest hq => exact .kept (by simp [hq]) rfl rfl
  | check want rest hq => exact .kept (by simp [hq]) rfl rfl
  | register r v rest hr hq => exact doneChange_writeReg hr hq
  | overrun v rest hb hq => exact .kept (fun hp => by rw [busy_idle hp] at hb; cases hb) rfl rfl
  | illegal v rest hp hq => exact .accepted v rest hp hq rfl
  | accept i cs v rest hp _ hq => exact .accepted v rest hp hq (accept_done i cs _ _)

namespace DoneChange

variable {s t : State}

/-- DONE rises only into an idle state, from a running command or by a CMD write. -/
theorem rise (c : DoneChange s t) (h0 : s.status.done = false) (h1 : t.status.done = true) :
    t.phase = .idle ∧ (s.busy = true ∨ ∃ w rest, s.hostQueue = .write 0x00 w :: rest) := by
  cases c with
  | kept _ _ hd => rw [hd, h0] at h1; cases h1
  | completed hs ht => exact ⟨ht, .inl hs⟩
  | accepted w rest _ hq hd => exact ⟨busy_eq_false_iff.mp (by simpa [h1] using hd), .inr ⟨w, rest, hq⟩⟩
  | cleared _ _ _ _ hd => rw [hd, h0] at h1; cases h1
  | reset _ _ hd => rw [hd] at h1; cases h1

/-- A step that ends a running command leaves DONE = 1 unless it is reset. -/
theorem of_completion (c : DoneChange s t) (hs : s.busy = true) (ht : t.phase = .idle) :
    t.status.done = true ∨ ∃ rest, s.hostQueue = .reset :: rest := by
  have hb' : t.busy = false := busy_idle ht
  cases c with
  | kept _ hb => rw [hb, hs] at hb'; cases hb'
  | completed _ _ hd => exact .inl hd
  | accepted _ _ hp => rw [busy_idle hp] at hs; cases hs
  | cleared _ _ _ hb => rw [hb, hs] at hb'; cases hb'
  | reset rest hq => exact .inr ⟨rest, hq⟩

/-- After a CMD write to an idle block DONE is 1 exactly when it is not busy. -/
theorem of_acceptance (c : DoneChange s t) (hp : s.phase = .idle) {w : Word} {rest : List HostAction}
    (hq : s.hostQueue = .write 0x00 w :: rest) : t.status.done = !t.busy := by
  cases c with
  | kept hw => exact absurd hq (hw hp w rest)
  | completed hs => rw [busy_idle hp] at hs; cases hs
  | accepted _ _ _ _ hd => exact hd
  | cleared _ _ h => simp [hq] at h
  | reset _ h => simp [hq] at h

/-- DONE falls only by a CMD write while idle, a STATUS write with bit 1 set, or reset. -/
theorem fall (c : DoneChange s t) (h1 : s.status.done = true) (h0 : t.status.done = false) :
    (s.phase = .idle ∧ ∃ w rest, s.hostQueue = .write 0x00 w :: rest) ∨
    (∃ v rest, v.getLsbD 1 = true ∧ s.hostQueue = .write 0x04 v :: rest) ∨
    ∃ rest, s.hostQueue = .reset :: rest := by
  cases c with
  | kept _ _ hd => rw [hd, h1] at h0; cases h0
  | completed _ _ hd => rw [hd] at h0; cases h0
  | accepted w rest hp hq => exact .inl ⟨hp, w, rest, hq⟩
  | cleared v rest hq _ hd => exact .inr (.inl ⟨v, rest, by simpa [h0, h1] using hd, hq⟩)
  | reset rest hq => exact .inr (.inr ⟨rest, hq⟩)

end DoneChange

/-- Settles O22, by what a step does to DONE. -/
theorem doneMarksCompletion : Obligations.DoneMarksCompletion := by
  intro s t h
  have c : DoneChange s t := step_doneChange h
  exact ⟨rfl, c.rise, c.of_completion, fun hp _ _ hq => c.of_acceptance hp hq, c.fall⟩

end Sys2Proof.Machine

/-! The command word's fields (R80), the opcode map read in both directions (R81), and the decoder's three outcomes
(R84), with the statement that decoding and encoding agree. -/

namespace Sys2Proof

/-! ### Command words: the fields of R80 and the opcodes of R81 -/

/-- A word is its reserved bits and its opcode bits (R80). -/
theorem word_eq_of_fields {v w : Word} (hrsv : v.extractLsb' 8 24 = w.extractLsb' 8 24)
    (hop : v.extractLsb' 0 8 = w.extractLsb' 0 8) : v = w := by
  have fields (x : Word) : x.extractLsb' 8 24 ++ x.extractLsb' 0 8 = x := by
    exact (BitVec.extractLsb'_append_extractLsb'_eq_extractLsb' rfl).trans BitVec.extractLsb'_eq_self
  rw [← fields v, ← fields w, hrsv, hop]

@[simp] theorem encode_rsv (i : Instr) : (encode i).extractLsb' 8 24 = 0 :=
  BitVec.extractLsb'_append_eq_left

@[simp] theorem encode_op (i : Instr) : (encode i).extractLsb' 0 8 = i.opcode :=
  BitVec.extractLsb'_append_eq_right

theorem eq_encode_iff {w : Word} {i : Instr} :
    w = encode i ↔ w.extractLsb' 8 24 = 0 ∧ w.extractLsb' 0 8 = i.opcode := by
  constructor
  · rintro rfl
    exact ⟨encode_rsv i, encode_op i⟩
  · rintro ⟨hrsv, hop⟩
    exact word_eq_of_fields (hrsv.trans (encode_rsv i).symm) (hop.trans (encode_op i).symm)

/-- The opcode map reads back the opcode of each command (R81). -/
@[simp] theorem opcodeOf_opcode (i : Instr) : opcodeOf i.opcode = some i := by cases i <;> rfl

/-- The opcode map has no other row (R81). -/
theorem eq_opcode_of_opcodeOf {op : BitVec 8} {i : Instr} (h : opcodeOf op = some i) : op = i.opcode := by
  unfold opcodeOf at h
  split at h <;> cases h
  all_goals exact BitVec.eq_of_toNat_eq ‹_›

theorem opcodeOf_eq_some_iff {op : BitVec 8} {i : Instr} : opcodeOf op = some i ↔ op = i.opcode :=
  ⟨eq_opcode_of_opcodeOf, fun h => h ▸ opcodeOf_opcode i⟩

theorem opcodeOf_eq_none_iff {op : BitVec 8} : opcodeOf op = none ↔ ∀ i : Instr, op ≠ i.opcode := by
  simp only [Option.eq_none_iff_forall_ne_some, ne_eq, opcodeOf_eq_some_iff]

/-! ### The decoder, one lemma per outcome (R84) -/

theorem decode_of_rsv_ne {w : Word} (h : w.extractLsb' 8 24 ≠ 0) : decode w = .reservedBits := if_neg h

/-- Under zero reserved bits the opcode map decides. -/
theorem decode_of_rsv_eq {w : Word} (h : w.extractLsb' 8 24 = 0) :
    decode w = (opcodeOf (w.extractLsb' 0 8)).elim .unknownOpcode .command := by
  rw [decode, if_pos h]
  cases opcodeOf (w.extractLsb' 0 8) <;> rfl

theorem decode_eq_reservedBits_iff {w : Word} : decode w = .reservedBits ↔ w.extractLsb' 8 24 ≠ 0 := by
  refine ⟨fun hd h => ?_, decode_of_rsv_ne⟩
  rw [decode_of_rsv_eq h] at hd
  cases hop : opcodeOf (w.extractLsb' 0 8) <;> simp [hop] at hd

theorem decode_eq_command_iff {w : Word} {i : Instr} :
    decode w = .command i ↔ w.extractLsb' 8 24 = 0 ∧ opcodeOf (w.extractLsb' 0 8) = some i := by
  by_cases h : w.extractLsb' 8 24 = 0
  · rw [decode_of_rsv_eq h, and_iff_right h]
    cases opcodeOf (w.extractLsb' 0 8) <;> simp
  · simp only [decode_of_rsv_ne h, h, false_and, reduceCtorEq]

theorem decode_eq_unknownOpcode_iff {w : Word} :
    decode w = .unknownOpcode ↔ w.extractLsb' 8 24 = 0 ∧ opcodeOf (w.extractLsb' 0 8) = none := by
  by_cases h : w.extractLsb' 8 24 = 0
  · rw [decode_of_rsv_eq h, and_iff_right h]
    cases opcodeOf (w.extractLsb' 0 8) <;> simp
  · simp only [decode_of_rsv_ne h, h, false_and, reduceCtorEq]

theorem decode_eq_command_iff_eq_encode {w : Word} {i : Instr} : decode w = .command i ↔ w = encode i := by
  rw [decode_eq_command_iff, eq_encode_iff, opcodeOf_eq_some_iff]

/-- On a 32-bit word the opcode table's decoder is the decoder. -/
theorem decodeTableWord_eq_some_iff {w : Word} {i : Instr} :
    decodeTableWord 32 w.toNat = some i ↔ decode w = .command i := by
  have hw : w.toNat % 2 ^ 32 = w.toNat := Nat.mod_eq_of_lt w.isLt
  simp only [decodeTableWord, hw, w.isLt, if_true, BitVec.ofNat_toNat, BitVec.setWidth_eq]
  cases decode w <;> simp

/-- Settles O2, by the fields of a word, the opcode map and the decoder's three outcomes. -/
theorem decodeAndEncodeAgree : Obligations.DecodeAndEncodeAgree := fun _ =>
  ⟨fun _ => decode_eq_command_iff_eq_encode, fun _ => eq_encode_iff, decode_eq_reservedBits_iff,
    by rw [decode_eq_unknownOpcode_iff, opcodeOf_eq_none_iff], fun _ => decodeTableWord_eq_some_iff⟩

end Sys2Proof

/-! What the sensor sends, as numbers: the coefficients of a calibration block (R113) and the 20-bit samples of a raw
burst (R116), with the statements about `calDecode` and `raw20`. -/

namespace Sys2Proof.Machine

/-! ### Coefficients (R113) -/

/-- Two bytes concatenated weigh 256 and 1. -/
theorem toNat_append_byte (hi lo : Byte) : (hi ++ lo).toNat = lo.toNat + 256 * hi.toNat := by
  rw [BitVec.toNat_append, ← Nat.shiftLeft_add_eq_or_of_lt lo.isLt, Nat.shiftLeft_eq]
  omega

/-- Little-endian: the even byte of a pair is the low one. -/
theorem coefficient_toNat (b : List Byte) (k : Nat) :
    (coefficient b k).toNat = (byteAt b (2 * k)).toNat + 256 * (byteAt b (2 * k + 1)).toNat :=
  toNat_append_byte _ _

/-- The signed reading of a coefficient is that of the same little-endian number. -/
theorem coefficient_toInt (b : List Byte) (k : Nat) :
    (coefficient b k).toInt =
      (BitVec.ofNat 16 ((byteAt b (2 * k)).toNat + 256 * (byteAt b (2 * k + 1)).toNat)).toInt := by
  rw [← coefficient_toNat, BitVec.ofNat_toNat, BitVec.setWidth_eq]

/-- Settles O36, field by field: each is the coefficient of its place in the block. -/
theorem calibrationDecode : Obligations.CalibrationDecode := fun b =>
  ⟨coefficient_toNat b 0, coefficient_toInt b 1, coefficient_toInt b 2,
    coefficient_toNat b 3, coefficient_toInt b 4, coefficient_toInt b 5,
    coefficient_toInt b 6, coefficient_toInt b 7, coefficient_toInt b 8,
    coefficient_toInt b 9, coefficient_toInt b 10, coefficient_toInt b 11⟩

/-! ### Samples (R116) -/

/-- A byte shifted left inside 20 bits loses nothing while its eight bits fit. -/
theorem toNat_zeroExtend_shiftLeft (b : Byte) {k : Nat} (hk : k ≤ 12) :
    (b.zeroExtend 20 <<< k).toNat = b.toNat <<< k := by
  have hb : b.toNat <<< k < 2 ^ 20 := calc
    b.toNat <<< k < 2 ^ (8 + k) := Nat.shiftLeft_lt b.isLt
    _ ≤ 2 ^ 20 := Nat.pow_le_pow_right (by decide) (by omega)
  rw [BitVec.toNat_shiftLeft, BitVec.zeroExtend, BitVec.toNat_setWidth_of_le (by decide), Nat.mod_eq_of_lt hb]

/-- The three terms of R116 have no bit in common, so their disjunction is their sum. -/
theorem raw20_toNat (b0 b1 b2 : Byte) :
    (raw20 b0 b1 b2).toNat = b0.toNat * 4096 + b1.toNat * 16 + b2.toNat / 16 := by
  have hlow : b2.toNat >>> 4 < 2 ^ 4 := by have := b2.isLt; omega
  have hmid : b1.toNat <<< 4 + b2.toNat >>> 4 < 2 ^ 12 := by have := b1.isLt; omega
  calc (raw20 b0 b1 b2).toNat
    _ = b0.toNat <<< 12 ||| (b1.toNat <<< 4 ||| b2.toNat >>> 4) := by
      rw [raw20, BitVec.or_assoc, BitVec.toNat_or, BitVec.toNat_or, toNat_zeroExtend_shiftLeft b0 (by decide),
        toNat_zeroExtend_shiftLeft b1 (by decide), BitVec.toNat_ushiftRight, BitVec.zeroExtend,
        BitVec.toNat_setWidth_of_le (by decide)]
    _ = b0.toNat <<< 12 + (b1.toNat <<< 4 + b2.toNat >>> 4) := by
      rw [← Nat.shiftLeft_add_eq_or_of_lt hlow, ← Nat.shiftLeft_add_eq_or_of_lt hmid]
    _ = b0.toNat * 4096 + b1.toNat * 16 + b2.toNat / 16 := by
      rw [Nat.shiftLeft_eq, Nat.shiftLeft_eq, Nat.shiftRight_eq_div_pow]; omega

/-- A sample is at most 2^20 - 1 (R116): it has 20 bits. -/
theorem raw20_toNat_le (b0 b1 b2 : Byte) : (raw20 b0 b1 b2).toNat ≤ 1048575 :=
  Nat.le_of_lt_succ (raw20 b0 b1 b2).isLt

/-- Settles O35: the number by `raw20_toNat`, the bytes by the definitions of the two samples. -/
theorem rawSampleDecode : Obligations.RawSampleDecode :=
  ⟨fun b0 b1 b2 => ⟨raw20_toNat b0 b1 b2, raw20_toNat_le b0 b1 b2⟩, fun _ => ⟨rfl, rfl⟩⟩

end Sys2Proof.Machine

/-! The compensation pipeline over every input: the ranges of the temperature path (R135, R137), the one division
(R132) and the sentinel (R146). -/

namespace Sys2Proof.Machine

/-! ### The temperature path (R133, R135) -/

/-- T1 on the registers: a difference of two numbers of 17 bits fits 32 bits. -/
theorem tempPathOf_a1 (c : Calibration) (rawT : BitVec 20) :
    (tempPathOf c rawT).a1 = ⟨zext rawT / 8 - zext c.t1 * 2, false⟩ :=
  stepT1_eq (zext_range rawT).1 (zext_range rawT).2 (zext_range c.t1).1 (zext_range c.t1).2

/-- T3 on the registers: a difference of two numbers of 16 bits fits 32 bits. -/
theorem tempPathOf_d (c : Calibration) (rawT : BitVec 20) :
    (tempPathOf c rawT).d = ⟨zext rawT / 16 - zext c.t1, false⟩ :=
  stepT3_eq (zext_range rawT).1 (zext_range rawT).2 (zext_range c.t1).1 (zext_range c.t1).2

/-- T4 wraps exactly from the first number whose square is past `2^31 - 1` on: `46340^2 < 2^31 ≤ 46341^2`. -/
theorem stepT4_ovf (d : Int) : (stepT4 d).ovf = true ↔ 46341 ≤ |d| := by
  have hsq : d * d = |d| * |d| := (abs_mul_abs_self d).symm
  have h0 : 0 ≤ |d| := abs_nonneg d
  simp only [stepT4, w32_ovf, hsq]
  constructor
  · intro h
    by_contra hlt
    have : |d| * |d| ≤ 46340 * 46340 := mul_le_mul (by omega) (by omega) h0 (by norm_num)
    have := mul_nonneg h0 h0
    omega
  · intro h
    have : 46341 * 46341 ≤ |d| * |d| := mul_le_mul h h (by norm_num) h0
    omega

/-- The product of T2 or T5, before its wrap, for a coefficient of 16 bits. -/
theorem abs_mul_coefficient_le {x B : Int} (hx : |x| ≤ B) (y : BitVec 16) : |x * sext y| ≤ B * 32768 :=
  abs_le.mpr (mul_sext_bound hx (sext16_range y).1 (sext16_range y).2)

/-- The largest slopes of T2 and T5 over the least offset: with it T2, T4 and T5 wrap on some samples. -/
def steepCalibration : Calibration :=
  { t1 := 0, t2 := 0x7FFF, t3 := 0x7FFF, p1 := 0, p2 := 0, p3 := 0, p4 := 0, p5 := 0, p6 := 0, p7 := 0, p8 := 0,
    p9 := 0 }

/-- Settles O38, step by step; T2 and T5 wrap on the sample with `d = 46340`, T4 on the greatest sample. -/
theorem temperaturePathRanges : Obligations.TemperaturePathRanges := by
  refine ⟨fun c rawT => ?_, ⟨steepCalibration, 0xB5040, by decide⟩, ⟨steepCalibration, 0xFFFFF, by decide⟩,
    ⟨steepCalibration, 0xB5040, by decide⟩⟩
  obtain ⟨hr0, hr1⟩ := zext_range rawT
  obtain ⟨ht0, ht1⟩ := zext_range c.t1
  obtain ⟨f, hf0, hf1, hfine, hcenti⟩ := tempPathOf_fine c rawT
  have hs : |(tempPathOf c rawT).s.val| ≤ 2 ^ 19 := by
    obtain ⟨hs0, hs1⟩ := stepT4_range (tempPathOf c rawT).d.val
    exact abs_le.mpr ⟨hs0, hs1.trans (by norm_num)⟩
  have ha : |(tempPathOf c rawT).a1.val| ≤ 131071 := by
    rw [tempPathOf_a1, abs_le]
    constructor <;> dsimp only <;> omega
  refine ⟨?T1, abs_mul_coefficient_le ha c.t2, ?T3, stepT4_ovf _, abs_mul_coefficient_le hs c.t3,
    stepT2_range _ _, stepT5_range _ _, ?_⟩
  case T1 =>
    rw [tempPathOf_a1, asr_eq_div]
    exact ⟨by omega, by omega, by omega, by omega, rfl, rfl⟩
  case T3 =>
    rw [tempPathOf_d]
    exact ⟨rfl, by dsimp only; omega, by dsimp only; omega⟩
  · rw [hfine, hcenti]
    exact ⟨rfl, hf0, hf1, rfl⟩

/-! ### T_CENTI (R137) -/

/-- The commit of stage COMP, as one move of any running command: afterwards T_CENTI reads as the result's. -/
theorem exec_compCommit_tCenti {s : State} {i : Instr} {n : Nat} {r : CompResult}
    (h : s.phase = .running ⟨i, n, .compCommit r⟩) : ∃ t, exec i s = .next t ∧ hostRead 0x2C t = r.res.tCenti := by
  refine ⟨_, exec_commit h rfl, ?_⟩
  obtain ⟨st, -, e⟩ | ⟨-, e⟩ := nextStage_cases (stagesOf i) ⟨i, n, .compCommit r⟩ (commitComp r s) <;> rw [e] <;>
    exact hostRead_offset .tCenti _

/-- Settles O39: the floor is T7 without its wraps, the range is that of T_FINE, and the commit is a move. -/
theorem temperatureInHundredths : Obligations.TemperatureInHundredths := by
  refine ⟨fun rawT rawP c => ?_, by decide, by decide, by decide, fun s i n r h => exec_compCommit_tCenti h⟩
  obtain ⟨f, hf0, hf1, -, -, hfine, hcenti⟩ := comp_fine rawT rawP c
  simp only [hfine, hcenti]
  have hfloor : ⌊((f * 5 + 128 : Int) : ℚ) / 256⌋ = (f * 5 + 128) / 256 :=
    Rat.floor_intCast_div_natCast (f * 5 + 128) 256
  exact ⟨hfloor.symm, by omega, by omega⟩

/-! ### The division (R132) -/

/-- Division toward zero leaves a remainder below the divisor and of the sign of the dividend. -/
theorem truncDiv_remainder (num : Int) {v : Int} (hv : v ≠ 0) :
    ∃ r : Int, num = truncDiv num v * v + r ∧ |r| < |v| ∧ (0 ≤ num → 0 ≤ r) ∧ (num ≤ 0 → r ≤ 0) := by
  refine ⟨num.tmod v, (Int.tdiv_mul_add_tmod num v).symm, ?_, Int.tmod_nonneg v, fun h => ?_⟩
  · rw [Int.abs_eq_natAbs, Int.abs_eq_natAbs, Int.natAbs_tmod]
    exact_mod_cast Nat.mod_lt _ (Int.natAbs_pos.mpr hv)
  · have : 0 ≤ (-num).tmod v := Int.tmod_nonneg v (by omega)
    rw [Int.neg_tmod] at this
    omega

/-- Settles O41: P10 is the wrap of the truncated quotient, and `comp` reaches it only past the branch of P7. -/
theorem divisionTruncates : Obligations.DivisionTruncates := by
  refine ⟨fun num v hv => ?_, fun rawT rawP c => ⟨rfl, rfl⟩, by decide, by decide, by decide, by decide, by decide⟩
  obtain ⟨r, hnum, hlt, hpos, hneg⟩ := truncDiv_remainder num hv
  exact ⟨truncDiv num v, r, hnum, hlt, hpos, hneg, rfl⟩

/-! ### The sentinel (R146) -/

/-- The divisor of P6 on the registers is the wrapped product of R139, shifted. -/
theorem pressFrontOf_divisor_val (c : Calibration) {f : Int} (h1 : -1179648 ≤ f) (h2 : f ≤ 1179646) :
    (pressFrontOf c f).divisor.val = (w64 ((2 ^ 47 + (pressFrontOf c f).a5.val) * zext c.p1)).val / 2 ^ 33 := by
  obtain ⟨v2, a5, -, -, -, hbound, -, -, -, -, ha5, hdivisor⟩ := pressFrontOf_front c h1 h2
  rw [hdivisor, ha5, stepP6_eq hbound]

/-- The divisor is 0 exactly when the wrapped product is in `[0, 2^33)`. -/
theorem divisor_eq_zero_iff (c : Calibration) {f : Int} (h1 : -1179648 ≤ f) (h2 : f ≤ 1179646) :
    (pressFrontOf c f).divisor.val = 0 ↔
      0 ≤ (w64 ((2 ^ 47 + (pressFrontOf c f).a5.val) * zext c.p1)).val ∧
      (w64 ((2 ^ 47 + (pressFrontOf c f).a5.val) * zext c.p1)).val < 2 ^ 33 := by
  rw [pressFrontOf_divisor_val c h1 h2]
  omega

/-- Settles O42: PINV is decided by the divisor, the divisor by the product of P6, which is 0 for DIG_P1 = 0. -/
theorem sentinelExactly : Obligations.SentinelExactly := by
  intro rawT rawP c
  obtain ⟨f, hf0, hf1, hpathFine, hpathCenti, hfine, hcenti⟩ := comp_fine rawT rawP c
  have hpinv := comp_pinv rawT rawP c
  rw [hpathFine] at hpinv
  have hproduct := hpinv.trans (divisor_eq_zero_iff c hf0 hf1)
  simp only [hpathFine, hpathCenti, hfine, hcenti]
  refine ⟨hpinv, hproduct, fun h => ?_, trivial, trivial, fun hp1 => ?_⟩
  · obtain ⟨-, hp, hpress⟩ | ⟨hvalid, -, -⟩ := comp_pressure rawT rawP c
    · exact ⟨hp, hpress⟩
    · rw [hvalid] at h
      cases h
  · have hzero : zext c.p1 = 0 := by rw [hp1]; rfl
    rw [hproduct, hzero, mul_zero]
    decide

end Sys2Proof.Machine

/-! The float constants of the altitude formula (R170): the literals as the numbers nearest to the source's decimals, and
COEFF as the quotient of their products. -/

namespace Sys2Proof.Machine

/-! ### Decimals and operations on finite operands -/

/-- A finite pattern that a decimal converts to (R91) is nearest to the number the decimal is. On a literal the three
conditions are closed and checked by evaluation. -/
theorem nearest_of_decimal {z : F64} {v : ℚ} (d : Decimal) (hz : d.nearest = z := by decide)
    (hfin : fisFinite z = true := by decide) (hv : decimalValue d = v := by norm_num [decimalValue]) : Nearest z v := by
  subst hz hv
  rw [← exactValue_decimal d]
  exact fround_nearest d.neg _ (by positivity) hfin

/-- A product of finite operands is rounded from the exact product, and the NaN drawn plays no part in it (R9). -/
theorem fmul_of_fin (nan : F64) {a b : F64} {s t : Bool} {m n : Nat} {e f : Int} (ha : unpack a = .fin s m e)
    (hb : unpack b = .fin t n f) :
    fmul nan a b = fround (s != t) (dyadicNum (m * n) (e + f)) (dyadicDen (e + f)) := by
  simp only [fmul, ha, hb]

/-- A quotient of finite operands, the divisor not 0, is rounded from the exact quotient, and the NaN drawn plays no
part in it (R9). -/
theorem fdiv_of_fin (nan : F64) {a b : F64} {s t : Bool} {m n : Nat} {e f : Int} (ha : unpack a = .fin s m e)
    (hb : unpack b = .fin t n f) (hn : n ≠ 0) :
    fdiv nan a b = fround (s != t) (dyadicNum m (e - f)) (n * dyadicDen (e - f)) := by
  simp only [fdiv, ha, hb, if_neg hn]

/-! ### The literals (R170) -/

/-- `8.314 *. 0.0065`. -/
theorem gasConstant_mul_lapseRate (nan : F64) : fmul nan Config.gasConstant Config.lapseRate = 0x3FABAB430F49491F := by
  have hgas : unpack Config.gasConstant = .fin false 0x10A0C49BA5E354 (-49) := by decide
  have hlapse : unpack Config.lapseRate = .fin false 0x1A9FBE76C8B439 (-60) := by decide
  rw [fmul_of_fin nan hgas hlapse]
  decide

/-- `9.80665 *. 0.028964`. -/
theorem gravity_mul_molarMass (nan : F64) : fmul nan Config.gravity Config.molarMass = 0x3FD22DB550527F89 := by
  have hgravity : unpack Config.gravity = .fin false 0x139D013A92A305 (-49) := by decide
  have hmass : unpack Config.molarMass = .fin false 0x1DA8BD230B9DC3 (-58) := by decide
  rw [fmul_of_fin nan hgravity hmass]
  decide

/-- COEFF is the quotient of the two products, as the source evaluates it. -/
theorem coeff_eq_quotient (nan : F64) :
    fdiv nan (fmul nan Config.gasConstant Config.lapseRate) (fmul nan Config.gravity Config.molarMass) =
      Config.coeff := by
  have hnum : unpack 0x3FABAB430F49491F = .fin false 0x1BAB430F49491F (-57) := by decide
  have hden : unpack 0x3FD22DB550527F89 = .fin false 0x122DB550527F89 (-54) := by decide
  rw [gasConstant_mul_lapseRate, gravity_mul_molarMass, fdiv_of_fin nan hnum hden (by decide)]
  decide

/-- Settles O46: each literal is what its decimal converts to, hence nearest to it; the products and the quotient are
each rounded once from exact values. -/
theorem constantsAreTheLiterals : Obligations.ConstantsAreTheLiterals := by
  have hlapse : Nearest Config.lapseRate (65 / 10000) := nearest_of_decimal ⟨false, 65, -4⟩
  have hkelvin : Nearest Config.kelvinZero (27315 / 100) := nearest_of_decimal ⟨false, 27315, -2⟩
  have hone : Nearest Config.one 1 := nearest_of_decimal ⟨false, 1, 0⟩
  have hhundred : Nearest Config.hundred 100 := nearest_of_decimal ⟨false, 100, 0⟩
  have hscale : Nearest Config.pressScale 25600 := nearest_of_decimal ⟨false, 25600, 0⟩
  have hgas : Nearest Config.gasConstant (8314 / 1000) := nearest_of_decimal ⟨false, 8314, -3⟩
  have hgravity : Nearest Config.gravity (980665 / 100000) := nearest_of_decimal ⟨false, 980665, -5⟩
  have hmass : Nearest Config.molarMass (28964 / 1000000) := nearest_of_decimal ⟨false, 28964, -6⟩
  exact ⟨hlapse, hkelvin, hone, hhundred, hscale, hgas, hgravity, hmass, rfl, rfl, rfl, rfl, rfl, rfl, rfl, rfl, rfl,
    fun nan => ⟨gasConstant_mul_lapseRate nan, gravity_mul_molarMass nan, coeff_eq_quotient nan⟩⟩

end Sys2Proof.Machine

/-! What a CMD write does to an idle block, word by word (R83, R201): the equations of `writeCommand` and of the
completion at acceptance, with the statements about CMD writes and about NOP. -/

namespace Sys2Proof.Machine

/-! ### Completion at acceptance (R202) -/

/-- A completion in the step of the write: an idle block stays idle, and only CMD, DONE and ERR change. -/
theorem complete_beginAccept_of_idle {s : State} (h : s.phase = .idle) (w : Word) (e : ErrCode) :
    complete e (beginAccept w s) = { s with cmd := w, status := { s.status with done := true, err := e } } := by
  simp [complete, beginAccept, h]

/-- A command without stages that no check refuses completes at acceptance with OK (R201). -/
theorem exec_completed {s : State} {i : Instr} (h : s.phase = .idle) (hv : verdict i s = none)
    (hs : stagesOf i = []) : exec i s = .next (complete .ok (beginAccept (encode i) s)) := by
  obtain ⟨cs, hc, he⟩ := exec_idle h i
  simp [he, accept, hc, hv, hs]

/-! ### A CMD write while idle (R201) -/

/-- A word that encodes no command is refused with EILLEGAL, whichever half of the decoder rejects it (R83). -/
theorem writeCommand_illegal {s : State} {w : Word} (h : s.phase = .idle) (hw : ∀ i : Instr, w ≠ encode i) :
    writeCommand w s = .next (refuseCommand w .eillegal s) := by
  rw [writeCommand, if_neg (by simp [busy_idle h])]
  rcases hd : decode w with i | _ | _
  · exact absurd (decode_eq_command_iff_eq_encode.mp hd) (hw i)
  · rfl
  · rfl

/-- The word of a command runs its acceptance. -/
theorem writeCommand_encode {s : State} (h : s.phase = .idle) (i : Instr) : writeCommand (encode i) s = exec i s := by
  rw [writeCommand, if_neg (by simp [busy_idle h]), decode_eq_command_iff_eq_encode.mpr rfl]

/-- A step that takes a host write to CMD. -/
theorem step_write_cmd {s : State} {w : Word} {rest : List HostAction} (h : s.hostQueue = .write 0x00 w :: rest) :
    step s = writeCommand w { s with hostQueue := rest } := by
  rw [step_write h rfl, hostWrite_cmd]

/-- Taking an action off the host's queue changes no check of R200. -/
theorem verdict_hostQueue (i : Instr) (s : State) (rest : List HostAction) :
    verdict i { s with hostQueue := rest } = verdict i s := rfl

/-- Settles O20: while busy the write is an overrun; while idle the decoder separates the illegal words from the
commands, and acceptance refuses, completes or starts a command by its verdict and its stage list. -/
theorem commandWritesAreAccepted : Obligations.CommandWritesAreAccepted := by
  intro s w rest hq
  refine ⟨fun hb => step_write_busy (r := .cmd) (.inl rfl) hb hq, fun hp => ?_⟩
  have hp' : ({ s with hostQueue := rest } : State).phase = .idle := hp
  refine ⟨fun hw => ?illegal, ?command⟩
  case illegal =>
    rw [step_write_cmd hq, writeCommand_illegal hp' hw, refuseCommand, complete_beginAccept_of_idle hp']
  case command =>
    rintro i rfl
    have hstep : step s = exec i { s with hostQueue := rest } := by
      rw [step_write_cmd hq, writeCommand_encode hp']
    rw [← verdict_hostQueue i s rest, hstep]
    refine ⟨fun e hv => ?refused, fun hv => ⟨fun hs => ?completed, fun st more hs => exec_accepted hp' hv hs⟩⟩
    case refused => rw [exec_refused hp' hv, refuseCommand, complete_beginAccept_of_idle hp']
    case completed => rw [exec_completed hp' hv hs, complete_beginAccept_of_idle hp']

/-- Settles O48: NOP has no check and no stage, so it completes at acceptance; 0x00000100 has a reserved bit set. -/
theorem nopCompletesAtOnce : Obligations.NopCompletesAtOnce := by
  refine ⟨rfl, fun i => ?_, fun s hp => ?_⟩
  · rw [decode_of_rsv_ne (by decide)]
    exact nofun
  · rw [exec_completed hp rfl rfl, complete_beginAccept_of_idle hp]
    rfl

end Sys2Proof.Machine

/-! Where EINVCOMP comes from (R224): the points of `hitsSentinel` are exactly those whose move raises it, no check of
R200 gives it, and a step that leaves it found it in ERR or made such a move. -/

namespace Sys2Proof.Machine

/-! ### The moves that raise EINVCOMP -/

/-- A move at a point of `hitsSentinel` raises EINVCOMP and changes nothing. -/
theorem move_of_hitsSentinel {q : Running} {s : State} (h : hitsSentinel q s) :
    move q.point s = .raise .einvcomp s := by
  obtain ⟨r, i, sp, st, hp, hr⟩ | ⟨hp, hv⟩ | ⟨hp, hv⟩ := h <;> rw [hp]
  · exact move_baseAdd_invalid hr i sp st
  · exact move_alt_invalid hv
  · exact move_rebase_invalid hv

/-- A bus transaction raises EBUS or nothing (R222). -/
theorem transact_not_einvcomp {tx : BusTx} (h : tx.wf = true) (k : List Byte → Point) (s t : State) :
    transact tx k s ≠ .raise .einvcomp t := by
  obtain ⟨b, -, -, e⟩ | ⟨a, -, -, e⟩ | ⟨-, e⟩ := transact_cases h k s <;> rw [e] <;> nofun

/-- Only the moves of `hitsSentinel` raise EINVCOMP: of the others, the transactions raise EBUS and the rest raise
nothing. -/
theorem hitsSentinel_of_raise {q : Running} {s t : State} (h : move q.point s = .raise .einvcomp t) :
    hitsSentinel q s := by
  cases hp : q.point <;> rw [hp] at h
  case cfgFirst => exact absurd h (transact_not_einvcomp (wf_measurementCtrl _) _ s t)
  case cfgSecond => exact absurd h (transact_not_einvcomp (wf_config _) _ s t)
  case calRead => exact absurd h (transact_not_einvcomp (wf_calibration _) _ s t)
  case rawRead | baseRead => exact absurd h (transact_not_einvcomp (wf_raw _) _ s t)
  case baseAdd r i sp st =>
    cases hr : r.pinv
    · by_cases hi : i < s.baseN.toNat
      · rw [move_baseAdd_more hr hi] at h; cases h
      · rw [move_baseAdd_last hr hi] at h; cases h
    · exact .inl ⟨r, i, sp, st, hp, hr⟩
  case altEval =>
    cases hv : s.status.pinv
    · rw [move_alt hv] at h; cases h
    · exact .inr (.inl ⟨hp, hv⟩)
  case rebase =>
    cases hv : s.status.pinv
    · rw [move_rebase hv] at h; cases h
    · exact .inr (.inr ⟨hp, hv⟩)
  all_goals cases h

/-- After a move of the sequencer ERR = EINVCOMP was raised by that move, or was there before and the command still
runs. -/
theorem advance_einvcomp {stages : List Stage} {q : Running} {s t : State} (hq : s.phase = .running q)
    (h : advance stages q s = .next t) (he : t.status.err = .einvcomp) :
    hitsSentinel q s ∨ (t.busy = true ∧ s.status.err = .einvcomp) := by
  have before : ∀ {u}, moveState (move q.point s) = some u → u.status.err = .einvcomp → s.status.err = .einvcomp :=
    fun hu hx => (move_frame_of_moveState hu).err.symm.trans hx
  obtain ⟨p, u, hm, e⟩ | ⟨u, hm, e⟩ | ⟨c, u, hm, e⟩ | ⟨u, hm, e⟩ := advance_cases stages q s <;>
    obtain rfl := Host.Outcome.next.inj (h.symm.trans e)
  case inl => exact .inr ⟨rfl, before (congrArg moveState hm) he⟩
  case inr.inl =>
    obtain ⟨st, -, e'⟩ | ⟨-, e'⟩ := nextStage_cases stages q u <;> rw [e'] at he ⊢
    · exact .inr ⟨rfl, before (congrArg moveState hm) he⟩
    · cases he
  case inr.inr.inl =>
    obtain rfl : c = .einvcomp := he
    exact .inl (hitsSentinel_of_raise hm)
  case inr.inr.inr =>
    have hf := move_frame_of_moveState (congrArg moveState hm)
    exact .inr ⟨busy_running (hf.phase.trans hq), hf.err.symm.trans he⟩

/-! ### Acceptance -/

/-- No check of R200 gives EINVCOMP. -/
theorem verdict_ne_einvcomp (i : Instr) (s : State) : verdict i s ≠ some .einvcomp := by
  cases i with
  | nop => nofun
  | _ => rw [verdict]; split_ifs <;> simp

/-- Acceptance leaves the error of the first failing check, else OK (R201). -/
theorem accept_err_ne_einvcomp {i : Instr} {cs : List (Option ErrCode)} {s : State}
    (hc : firstFailing cs = verdict i s) (stages : List Stage) (u : State) :
    (accept i cs stages u).status.err ≠ .einvcomp := by
  obtain ⟨e, hf, h⟩ | ⟨-, -, h⟩ | ⟨st, rest, -, -, h⟩ := accept_cases i cs stages u <;> rw [h]
  · rintro rfl
    exact verdict_ne_einvcomp i s (hc.symm.trans hf)
  · nofun
  · nofun

/-! ### Steps -/

/-- A step that leaves ERR = EINVCOMP found it there, or made a move of `hitsSentinel`. -/
theorem step_einvcomp {s t : State} (h : step s = .next t) (he : t.status.err = .einvcomp) :
    s.status.err = .einvcomp ∨ ∃ q, s.phase = .running q ∧ hitsSentinel q s := by
  cases step_cases h with
  | still _ hu => obtain rfl | rfl := hu <;> exact .inl he
  | move u _ q hu hq _ _ hm =>
    have hs : hitsSentinel q u ∨ u.status.err = .einvcomp := (advance_einvcomp hq hm he).imp_right And.right
    obtain rfl | rfl := hu <;> exact hs.symm.imp_right fun hx => ⟨q, hq, hx⟩
  | reset => cases he
  | read | poll | check | overrun => exact .inl he
  | register r v => exact .inl ((writeReg_frame r v (popHost s)).err.symm.trans he)
  | illegal => cases he
  | accept _ _ _ _ _ hc => exact absurd he (accept_err_ne_einvcomp hc _ _)

/-! ### A sentinel result that is no error -/

/-- The commit of COMPENSATE or SAMPLE ends the command with OK, whatever the result (R151, R152). -/
theorem exec_compCommit_last {s : State} {i : Instr} {n : Nat} {r : CompResult}
    (hi : (i = .compensate ∧ n = 0) ∨ (i = .sample ∧ n = 1)) (h : s.phase = .running ⟨i, n, .compCommit r⟩) :
    exec i s = .next (complete .ok (commitComp r s)) := by
  rw [exec_commit h rfl, nextStage_last]
  obtain ⟨rfl, rfl⟩ | ⟨rfl, rfl⟩ := hi <;> rfl

/-- Settles O25: the moves of `hitsSentinel` are the only source of EINVCOMP, and the commit of a sentinel result is an
ordinary one. -/
theorem sentinelStopsOnlyThreeStages : Obligations.SentinelStopsOnlyThreeStages := by
  refine ⟨fun s q hq hs => exec_raise hq (move_of_hitsSentinel hs), fun s t q hq h ht he => ?otherMoves,
    fun i s t hp h => ?acceptance, fun s t => step_einvcomp, fun s i n r hi h hr => ?commit⟩
  case otherMoves =>
    refine (advance_einvcomp hq ((exec_running hq q.cmd).symm.trans h) he).resolve_right fun hb => ?_
    rw [busy_idle ht] at hb
    cases hb.1
  case acceptance =>
    obtain ⟨cs, hc, e⟩ := exec_idle hp i
    obtain rfl := Host.Outcome.next.inj (h.symm.trans e)
    exact accept_err_ne_einvcomp hc _ s
  case commit =>
    rw [exec_compCommit_last hi h, complete, commitComp, hr]

end Sys2Proof.Machine

/-! One move of the sequencer, inverted once: which points issue which transaction, what every move answers, and the
frames the invariants of a step are read from. -/

namespace Sys2Proof.Machine

/-! ### The transactions of the points (R68) -/

/-- The transaction a point issues to a device address, with the point its answer leads to; `none` where the move issues
none. -/
def requestOf (dev : BitVec 7) : Point → Option (BusTx × (List Byte → Point))
  | .cfgFirst => some (.write dev 0xF4 [0x57], fun _ => .cfgSecond)
  | .cfgSecond => some (.write dev 0xF5 [0x10], fun _ => .cfgCommit)
  | .calRead => some (.read dev 0x88 24, .calCommit)
  | .rawRead => some (.read dev 0xF7 6, .rawCommit)
  | .baseRead i sumP sumT => some (.read dev 0xF7 6, fun b => .baseEval b i sumP sumT)
  | .cfgCommit | .calCommit _ | .rawCommit _ | .compEval | .compCommit _ | .baseEnter | .baseWait _ _ _ _
  | .baseEval _ _ _ _ | .baseAdd _ _ _ _ | .altEval | .rebase => none

theorem move_of_request {p : Point} {s : State} {tx : BusTx} {f : List Byte → Point}
    (h : requestOf s.devAddr p = some (tx, f)) : move p s = transact tx f s := by
  cases p <;> cases h <;> rfl

theorem requestOf_mem_usedTx {dev : BitVec 7} {p : Point} {tx : BusTx} {f : List Byte → Point}
    (h : requestOf dev p = some (tx, f)) : tx ∈ usedTx dev := by
  cases p <;> cases h <;> simp [usedTx]

theorem requestOf_wf {dev : BitVec 7} {p : Point} {tx : BusTx} {f : List Byte → Point}
    (h : requestOf dev p = some (tx, f)) : tx.wf = true := by
  cases p <;> cases h
  case cfgFirst => exact wf_measurementCtrl dev
  case cfgSecond => exact wf_config dev
  case calRead => exact wf_calibration dev
  case rawRead | baseRead => exact wf_raw dev

/-- An answer of the right length leads to a point of the same stage whose hidden values are as the moves leave them. -/
theorem answered_point {dev : BitVec 7} {p : Point} {tx : BusTx} {f : List Byte → Point} {b : List Byte} {s : State}
    (h : requestOf dev p = some (tx, f)) (ha : tx.answeredBy b = true) :
    stageOf (f b) = stageOf p ∧ (pointOk p s → pointOk (f b) s) ∧ pendingOk (f b) := by
  cases p <;> cases h
  case cfgFirst | cfgSecond => exact ⟨rfl, id, trivial⟩
  case calRead | rawRead => exact ⟨rfl, fun _ => beq_iff_eq.mp ha, trivial⟩
  case baseRead => exact ⟨rfl, fun hi => ⟨beq_iff_eq.mp ha, hi⟩, trivial⟩

/-! ### What a move answers -/

/-- Everything a move can do, by its point: a transaction answered, failed or met by silence, an evaluation, a delay, a
sample added, a sentinel, or one of the seven commits. -/
inductive MoveKind (s : State) : Point → Move → Prop where
  | answered {p : Point} {tx : BusTx} {f : List Byte → Point} {b : List Byte} (h : requestOf s.devAddr p = some (tx, f))
      (ha : tx.answeredBy b = true) : MoveKind s p (.goto (f b) (recordTx tx (.data b) s))
  | failed {p : Point} {tx : BusTx} {f : List Byte → Point} {a : BusResponse}
      (h : requestOf s.devAddr p = some (tx, f)) : MoveKind s p (.raise .ebus (recordTx tx a s))
  | silent {p : Point} {tx : BusTx} {f : List Byte → Point} (h : requestOf s.devAddr p = some (tx, f))
      (hn : nextAnswer tx s = .silent) : MoveKind s p (.stay s)
  | compEval (r : CompResult) (hr : comp s.rawT s.rawP s.dig = r) :
      MoveKind s .compEval (.goto (.compCommit r) { s with status := noteOvf r.ovf s.status })
  | baseEnter : MoveKind s .baseEnter (.goto (.baseWait s.settleMs 1 (fzero false) (fzero false)) s)
  | baseWait (d : BitVec 16) (i : Nat) (sp st : F64) : MoveKind s (.baseWait d i sp st) (.goto (.baseRead i sp st) s)
  | baseEval (b : List Byte) (i : Nat) (sp st : F64) (r : CompResult) (hr : readingOf s.dig b = r) :
      MoveKind s (.baseEval b i sp st) (.goto (.baseAdd r i sp st) { s with status := noteOvf r.ovf s.status })
  | sampleAdded (r : CompResult) (i : Nat) (sp st : F64) (hr : r.pinv = false) (hi : i < s.baseN.toNat) :
      MoveKind s (.baseAdd r i sp st) (.goto (.baseWait s.intervalMs (i + 1) (fadd (s.nan 0) sp r.res.pressHpa)
        (fadd (s.nan 1) st r.res.tempC)) (usedNaNs 5 s))
  | sentinel {p : Point} (h : ∀ c n, hitsSentinel ⟨c, n, p⟩ s) : MoveKind s p (.raise .einvcomp s)
  | commitCfg : MoveKind s .cfgCommit (.commit (commitCfg s))
  | commitCal (b : List Byte) : MoveKind s (.calCommit b) (.commit (commitCal b s))
  | commitRaw (b : List Byte) : MoveKind s (.rawCommit b) (.commit (commitRaw b s))
  | commitComp (r : CompResult) : MoveKind s (.compCommit r) (.commit (commitComp r s))
  | commitBase (r : CompResult) (i : Nat) (sp st : F64) (hr : r.pinv = false) (hi : ¬ i < s.baseN.toNat) :
      MoveKind s (.baseAdd r i sp st) (.commit (usedNaNs 5 (commitBase (fadd (s.nan 0) sp r.res.pressHpa)
        (fadd (s.nan 1) st r.res.tempC) s)))
  | commitAlt (hv : s.status.pinv = false) : MoveKind s .altEval (.commit (usedNaNs 5 (commitAlt s)))
  | commitRebase (hv : s.status.pinv = false) : MoveKind s .rebase (.commit (usedNaNs 1 (commitRebase s)))

/-- The inversion of a move. -/
theorem move_kind {p : Point} {s : State} {m : Move} (h : move p s = m) : MoveKind s p m := by
  subst h
  rcases hr : requestOf s.devAddr p with _ | ⟨tx, f⟩
  · cases p with
    | cfgFirst | cfgSecond | calRead | rawRead | baseRead => cases hr
    | cfgCommit => exact .commitCfg
    | calCommit b => exact .commitCal b
    | rawCommit b => exact .commitRaw b
    | compEval => exact .compEval _ rfl
    | compCommit r => exact .commitComp r
    | baseEnter => exact .baseEnter
    | baseWait d i sp st => exact .baseWait d i sp st
    | baseEval b i sp st => exact .baseEval b i sp st _ rfl
    | baseAdd r i sp st =>
      cases hv : r.pinv
      · by_cases hi : i < s.baseN.toNat
        · rw [move_baseAdd_more hv hi]; exact .sampleAdded r i sp st hv hi
        · rw [move_baseAdd_last hv hi]; exact .commitBase r i sp st hv hi
      · rw [move_baseAdd_invalid hv]; exact .sentinel fun _ _ => .inl ⟨r, i, sp, st, rfl, hv⟩
    | altEval =>
      cases hv : s.status.pinv
      · rw [move_alt hv]; exact .commitAlt hv
      · rw [move_alt_invalid hv]; exact .sentinel fun _ _ => .inr (.inl ⟨rfl, hv⟩)
    | rebase =>
      cases hv : s.status.pinv
      · rw [move_rebase hv]; exact .commitRebase hv
      · rw [move_rebase_invalid hv]; exact .sentinel fun _ _ => .inr (.inr ⟨rfl, hv⟩)
  · rw [move_of_request hr]
    obtain ⟨b, -, ha, e⟩ | ⟨a, -, -, e⟩ | ⟨hn, e⟩ := transact_cases (requestOf_wf hr) f s <;> rw [e]
    · exact .answered hr ha
    · exact .failed hr
    · exact .silent hr hn

/-- `u` differs from `s` in nothing a host read shows but OVF, which has not fallen (R203): otherwise only in the bus and
the count of NaN patterns. -/
structure WithinStage (s u : State) : Prop where
  same : u = { s with
    status := { s.status with ovf := u.status.ovf }
    sensorQueue := u.sensorQueue, busTrace := u.busTrace, draws := u.draws }
  ovf : s.status.ovf = true → u.status.ovf = true

/-- A move that does not commit stays within its stage. -/
theorem move_withinStage {p : Point} {s u : State} {m : Move} (h : move p s = m) (hc : ∀ v, m ≠ .commit v)
    (hu : moveState m = some u) : WithinStage s u := by
  cases move_kind h
  case commitCfg | commitCal | commitRaw | commitComp | commitBase | commitAlt | commitRebase => exact absurd rfl (hc _)
  all_goals
    obtain rfl := Option.some.inj hu
  case compEval | baseEval => exact ⟨rfl, fun ho => by simp [noteOvf, ho]⟩
  all_goals exact ⟨rfl, id⟩

theorem WithinStage.cfgDone {s u : State} (h : WithinStage s u) : u.status.cfgDone = s.status.cfgDone := by
  rw [h.same]
theorem WithinStage.validityOrdered {s u : State} (h : WithinStage s u) (hv : ValidityOrdered s.status) :
    ValidityOrdered u.status := by
  rw [h.same]; exact hv

/-- Only a silent sensor keeps a move from doing anything. -/
theorem stay_eq {p : Point} {s u : State} (h : move p s = .stay u) : u = s := by
  cases move_kind h; rfl

/-- Inside a stage a move goes to a point of the same stage whose hidden values are as the moves leave them. -/
theorem goto_point {p p' : Point} {s u : State} (h : move p s = .goto p' u) :
    stageOf p' = stageOf p ∧ (stageReady (stageOf p) s → pointOk p s → pointOk p' u) := by
  cases move_kind h with
  | answered hr ha =>
    obtain ⟨hs, hp, -⟩ := answered_point (s := s) hr ha
    exact ⟨hs, fun _ hx => by cases p <;> cases hr <;> exact hp hx⟩
  | compEval => exact ⟨rfl, fun _ => id⟩
  | baseEnter => exact ⟨rfl, fun hr _ => ⟨le_rfl, Nat.pos_of_ne_zero fun h0 => hr.2 (BitVec.eq_of_toNat_eq h0)⟩⟩
  | baseWait => exact ⟨rfl, fun _ => id⟩
  | baseEval => exact ⟨rfl, fun _ => And.right⟩
  | sampleAdded r i _ _ _ hi => exact ⟨rfl, fun _ _ => ⟨Nat.le_add_left 1 i, hi⟩⟩

end Sys2Proof.Machine

/-! The sequencer's invariant (R50, R200, R205): what each command and stage needs survives whatever a step changes, a
commit gives the next stage what it needs, and the validity bits keep their order (R28). -/

namespace Sys2Proof.Machine

/-! ### What a ready command and stage depend on -/

/-- No validity bit falls (R28). -/
structure KeepsValid (s t : State) : Prop where
  cfgDone : s.status.cfgDone = true → t.status.cfgDone = true
  calValid : s.status.calValid = true → t.status.calValid = true
  rawValid : s.status.rawValid = true → t.status.rawValid = true
  resValid : s.status.resValid = true → t.status.resValid = true
  baseValid : s.status.baseValid = true → t.status.baseValid = true

theorem KeepsValid.of_same {s t : State} (hc : t.status.cfgDone = s.status.cfgDone)
    (hk : t.status.calValid = s.status.calValid) (hr : s.status.rawValid = true → t.status.rawValid = true)
    (hs : t.status.resValid = s.status.resValid) (hb : t.status.baseValid = s.status.baseValid) : KeepsValid s t :=
  ⟨hc.trans, hk.trans, hr, hs.trans, hb.trans⟩

theorem MoveFrame.keepsValid {s t : State} (f : MoveFrame s t) : KeepsValid s t :=
  ⟨f.cfgDone, f.calValid, f.rawValid, f.resValid, f.baseValid⟩

theorem WriteFrame.keepsValid {r : RegName} {s t : State} (f : WriteFrame r s t) : KeepsValid s t :=
  .of_same f.cfgDone f.calValid f.rawValid f.resValid f.baseValid

/-- What `commandReady` and `stageReady` look at: BASE_N is kept and no validity bit falls. -/
structure KeepsReady (s t : State) : Prop extends KeepsValid s t where
  baseN : t.baseN = s.baseN

theorem MoveFrame.keepsReady {s t : State} (f : MoveFrame s t) : KeepsReady s t := ⟨f.keepsValid, f.baseN⟩

namespace KeepsReady

variable {s t : State}

theorem commandReady (k : KeepsReady s t) {i : Instr} (h : commandReady i s) : commandReady i t := by
  cases i with
  | nop | configure => trivial
  | loadCal => exact k.cfgDone h
  | readRaw | sample | recalibrate => exact k.calValid h
  | compensate => exact ⟨k.calValid h.1, k.rawValid h.2⟩
  | baseline => exact ⟨k.baseN.symm ▸ h.1, k.calValid h.2⟩
  | altEval => exact ⟨k.resValid h.1, k.baseValid h.2⟩
  | altitude => exact ⟨k.calValid h.1, k.baseValid h.2⟩
  | init => exact fun h0 => h (k.baseN.symm.trans h0)

/-- Stage CFG alone needs a bit that is 0. -/
theorem stageReady (k : KeepsReady s t) (hc : t.status.cfgDone = s.status.cfgDone) {st : Stage}
    (h : stageReady st s) : stageReady st t := by
  cases st with
  | cfg => exact hc.trans h
  | cal => exact k.cfgDone h
  | raw => exact k.calValid h
  | comp => exact ⟨k.calValid h.1, k.rawValid h.2⟩
  | base => exact ⟨k.calValid h.1, k.baseN.symm ▸ h.2⟩
  | alt => exact ⟨k.resValid h.1, k.baseValid h.2⟩
  | rebase => exact ⟨k.calValid h.1, k.resValid h.2⟩

theorem pointOk (k : KeepsReady s t) {p : Point} (h : pointOk p s) : pointOk p t := by
  cases p with
  | baseWait | baseRead | baseAdd => exact ⟨h.1, k.baseN.symm ▸ h.2⟩
  | baseEval => exact ⟨h.1, h.2.1, k.baseN.symm ▸ h.2.2⟩
  | _ => exact h

/-- The phase is no part of it. -/
theorem setPhase (s : State) (ph : Phase) : KeepsReady s { s with phase := ph } := ⟨⟨id, id, id, id, id⟩, rfl⟩

/-- A running command stays consistent while its place, CMD, DONE, ERR and CFG_DONE are kept. -/
theorem runningOk (k : KeepsReady s t) {q : Running} (hcmd : t.cmd = s.cmd) (hdone : t.status.done = false)
    (herr : t.status.err = s.status.err) (hcfg : t.status.cfgDone = s.status.cfgDone) (h : RunningOk q s) :
    RunningOk q t := by
  obtain ⟨h1, -, h3, h4, h5, h6, h7⟩ := h
  exact ⟨hcmd.trans h1, hdone, herr.trans h3, h4, k.commandReady h5, k.stageReady hcfg h6, k.pointOk h7⟩

end KeepsReady

/-! ### Commits -/

/-- The validity bit a stage's commit sets. -/
def stageCommitted (st : Stage) (s : State) : Prop :=
  match st with
  | .cfg => s.status.cfgDone = true
  | .cal => s.status.calValid = true
  | .raw => s.status.rawValid = true
  | .comp => s.status.resValid = true
  | .base | .rebase => s.status.baseValid = true
  | .alt => True

/-- A commit sets the bit of its stage and keeps the order of the validity bits (R28). -/
theorem commit_valid {p : Point} {s u : State} (h : move p s = .commit u) (hr : stageReady (stageOf p) s) :
    stageCommitted (stageOf p) u ∧ (ValidityOrdered s.status → ValidityOrdered u.status) := by
  cases move_kind h with
  | commitCfg => exact ⟨rfl, fun ⟨_, h2, h3⟩ => ⟨fun _ => rfl, h2, h3⟩⟩
  | commitCal => exact ⟨rfl, fun ⟨_, h2, _⟩ => ⟨fun _ => hr, fun hv => ⟨rfl, (h2 hv).2⟩, fun _ => rfl⟩⟩
  | commitRaw => exact ⟨rfl, fun ⟨h1, h2, h3⟩ => ⟨h1, fun hv => ⟨(h2 hv).1, rfl⟩, h3⟩⟩
  | commitComp => exact ⟨rfl, fun ⟨h1, _, h3⟩ => ⟨h1, fun _ => hr, h3⟩⟩
  | commitBase => exact ⟨rfl, fun ⟨h1, h2, _⟩ => ⟨h1, h2, fun _ => hr.1⟩⟩
  | commitAlt => exact ⟨trivial, id⟩
  | commitRebase => exact ⟨rfl, fun ⟨h1, h2, _⟩ => ⟨h1, h2, fun _ => hr.1⟩⟩

/-- Every point a stage starts at needs no hidden value. -/
theorem pointOk_entryOf (st : Stage) (s : State) : pointOk (entryOf st) s := by cases st <;> exact trivial

/-- In every stage list a commit and the command's own precondition give the next stage what it needs (R205). -/
theorem stageReady_next {i : Instr} {n : Nat} {st st' : Stage} {s : State} (hst : (stagesOf i)[n]? = some st)
    (hst' : (stagesOf i)[n + 1]? = some st') (hc : commandReady i s) (hd : stageCommitted st s) : stageReady st' s := by
  cases i with
  | nop | configure | loadCal | readRaw | compensate | baseline | altEval => simp [stagesOf] at hst'
  | sample =>
    obtain _ | n := n
    · cases hst; cases hst'; exact ⟨hc, hd⟩
    · simp [stagesOf] at hst'
  | altitude =>
    obtain _ | _ | n := n
    · cases hst; cases hst'; exact ⟨hc.1, hd⟩
    · cases hst; cases hst'; exact ⟨hd, hc.2⟩
    · simp [stagesOf] at hst'
  | recalibrate =>
    obtain _ | _ | n := n
    · cases hst; cases hst'; exact ⟨hc, hd⟩
    · cases hst; cases hst'; exact ⟨hc, hd⟩
    · simp [stagesOf] at hst'
  | init =>
    obtain _ | _ | n := n
    · cases hst; cases hst'; exact hd
    · cases hst; cases hst'; exact ⟨hd, hc⟩
    · simp [stagesOf] at hst'

/-! ### The sequencer -/

/-- One move of a consistent command. -/
theorem advance_sequencerOk {q : Running} {s t : State} (hq : s.phase = .running q) (hok : RunningOk q s)
    (h : advance (stagesOf q.cmd) q s = .next t) :
    SequencerOk t ∧ (ValidityOrdered s.status → ValidityOrdered t.status) := by
  obtain ⟨hcmd, hdone, herr, hstage, hready, hstageReady, hpoint⟩ := id hok
  obtain ⟨p, u, hm, e⟩ | ⟨u, hm, e⟩ | ⟨c, u, hm, e⟩ | ⟨u, hm, e⟩ := advance_cases (stagesOf q.cmd) q s <;>
    obtain rfl := Host.Outcome.next.inj (h.symm.trans e)
  case inl =>
    have hf := move_frame_of_moveState (congrArg moveState hm)
    have hw := move_withinStage hm (by simp) rfl
    obtain ⟨hs, hp⟩ := goto_point hm
    have hu : RunningOk ⟨q.cmd, q.stage, p⟩ u :=
      ⟨hf.cmd.trans hcmd, hf.done.trans hdone, hf.err.trans herr, by rw [hs]; exact hstage, hf.keepsReady.commandReady hready,
        by rw [hs]; exact hf.keepsReady.stageReady hw.cfgDone hstageReady, hp hstageReady hpoint⟩
    exact ⟨(KeepsReady.setPhase u _).runningOk rfl hu.2.1 rfl rfl hu, hw.validityOrdered⟩
  case inr.inl =>
    have hf := move_frame_of_moveState (congrArg moveState hm)
    obtain ⟨hc, hv⟩ := commit_valid hm hstageReady
    obtain ⟨st, hst, e'⟩ | ⟨-, e'⟩ := nextStage_cases (stagesOf q.cmd) q u <;> rw [e']
    · have hr := hf.keepsReady.commandReady hready
      have hn := stageReady_next hstage hst hr hc
      have hu : RunningOk ⟨q.cmd, q.stage + 1, entryOf st⟩ u :=
        ⟨hf.cmd.trans hcmd, hf.done.trans hdone, hf.err.trans herr, by rw [stageOf_entryOf]; exact hst, hr,
          by rw [stageOf_entryOf]; exact hn, pointOk_entryOf st u⟩
      exact ⟨(KeepsReady.setPhase u _).runningOk rfl hu.2.1 rfl rfl hu, hv⟩
    · exact ⟨trivial, hv⟩
  case inr.inr.inl => exact ⟨trivial, (move_withinStage hm (by simp) rfl).validityOrdered⟩
  case inr.inr.inr =>
    obtain rfl := stay_eq hm
    exact ⟨by rw [SequencerOk, hq]; exact hok, id⟩

/-- A verdict of none is the precondition of the command and, for its first stage, of that stage (R200). -/
theorem ready_of_verdict {i : Instr} {s : State} (hv : verdict i s = none) :
    commandReady i s ∧ ∀ st rest, stagesOf i = st :: rest → stageReady st s := by
  cases i with
  | nop => exact ⟨trivial, nofun⟩
  | configure =>
    have h : s.status.cfgDone = false := by simpa [verdict] using hv
    exact ⟨trivial, by rintro _ _ ⟨⟩; exact h⟩
  | loadCal =>
    have h : s.status.cfgDone = true := by simpa [verdict] using hv
    exact ⟨h, by rintro _ _ ⟨⟩; exact h⟩
  | readRaw | sample | recalibrate =>
    have h : s.status.calValid = true := by simpa [verdict] using hv
    exact ⟨h, by rintro _ _ ⟨⟩; exact h⟩
  | compensate =>
    have h : s.status.calValid = true ∧ s.status.rawValid = true := by simpa [verdict] using hv
    exact ⟨h, by rintro _ _ ⟨⟩; exact h⟩
  | baseline =>
    have h : s.baseN ≠ 0 ∧ s.status.calValid = true := by
      rw [verdict] at hv
      split_ifs at hv with h0 h1
      exact ⟨h0, h1⟩
    exact ⟨h, by rintro _ _ ⟨⟩; exact h.symm⟩
  | altEval =>
    have h : s.status.resValid = true ∧ s.status.baseValid = true := by simpa [verdict] using hv
    exact ⟨h, by rintro _ _ ⟨⟩; exact h⟩
  | altitude =>
    have h : s.status.calValid = true ∧ s.status.baseValid = true := by simpa [verdict] using hv
    exact ⟨h, by rintro _ _ ⟨⟩; exact h.1⟩
  | init =>
    have h : s.status.cfgDone = false ∧ s.baseN ≠ 0 := by
      rw [verdict] at hv
      split_ifs at hv with h0 h1
      exact ⟨Bool.eq_false_iff.mpr h0, h1⟩
    exact ⟨h.2, by rintro _ _ ⟨⟩; exact h.1⟩

/-- Acceptance starts a command only with its precondition met, and leaves the validity bits. -/
theorem accept_sequencerOk {i : Instr} {cs : List (Option ErrCode)} {s : State} (hc : firstFailing cs = verdict i s) :
    SequencerOk (accept i cs (stagesOf i) s) ∧
    (ValidityOrdered s.status → ValidityOrdered (accept i cs (stagesOf i) s).status) := by
  obtain ⟨e, -, h⟩ | ⟨-, -, h⟩ | ⟨st, rest, hf, hs, h⟩ := accept_cases i cs (stagesOf i) s <;> rw [h]
  · exact ⟨trivial, id⟩
  · exact ⟨trivial, id⟩
  · obtain ⟨hr, hst⟩ := ready_of_verdict (hc.symm.trans hf)
    have k : KeepsReady s { beginAccept (encode i) s with phase := .running ⟨i, 0, entryOf st⟩ } :=
      ⟨⟨id, id, id, id, id⟩, rfl⟩
    exact ⟨⟨rfl, rfl, rfl, by rw [stageOf_entryOf, hs]; rfl, k.commandReady hr,
      by rw [stageOf_entryOf]; exact k.stageReady rfl (hst st rest hs), pointOk_entryOf st _⟩, id⟩

/-! ### Host writes -/

/-- BASE_N, an RW* register, does not change while a command runs (R26). -/
theorem writeReg_baseN {r : RegName} {v : Word} {s : State} (hb : s.busy = true) : (writeReg r v s).baseN = s.baseN := by
  obtain ⟨-, e⟩ | ⟨-, e⟩ | ⟨-, -, e⟩ | ⟨-, hi, -⟩ | ⟨-, e⟩ := writeReg_cases r v s
  case inr.inr.inr.inl => rw [hb] at hi; cases hi
  all_goals rw [e]
  all_goals rfl

theorem writeReg_sequencerOk (r : RegName) (v : Word) {s : State} (h : SequencerOk s) : SequencerOk (writeReg r v s) := by
  have hf := writeReg_frame r v s
  rcases hp : s.phase with _ | q
  · rw [SequencerOk, hf.phase, hp]; trivial
  · rw [SequencerOk, hp] at h
    rw [SequencerOk, hf.phase, hp]
    have k : KeepsReady s (writeReg r v s) :=
      ⟨hf.keepsValid, writeReg_baseN (busy_running hp)⟩
    have hdone : (writeReg r v s).status.done = false :=
      Bool.eq_false_iff.mpr fun hd => Bool.false_ne_true (h.2.1.symm.trans (hf.done hd))
    exact k.runningOk hf.cmd hdone hf.err hf.cfgDone h

theorem writeReg_validityOrdered (r : RegName) (v : Word) {s : State} (h : ValidityOrdered s.status) :
    ValidityOrdered (writeReg r v s).status := by
  have hf := writeReg_frame r v s
  obtain ⟨h1, h2, h3⟩ := h
  rw [ValidityOrdered, hf.cfgDone, hf.calValid, hf.resValid, hf.baseValid]
  exact ⟨h1, fun hr => ⟨(h2 hr).1, hf.rawValid (h2 hr).2⟩, h3⟩

/-- The invariant looks at nothing the host's side of the state holds, nor at WR_OVR. -/
theorem sequencerOk_of_same {s t : State} (hp : t.phase = s.phase) (hcmd : t.cmd = s.cmd) (hn : t.baseN = s.baseN)
    (hst : t.status = { s.status with wrOvr := t.status.wrOvr }) (h : SequencerOk s) : SequencerOk t := by
  rcases hq : s.phase with _ | q
  · rw [SequencerOk, hp, hq]; trivial
  · rw [SequencerOk, hq] at h
    rw [SequencerOk, hp, hq]
    have k : KeepsReady s t := ⟨.of_same (by rw [hst]) (by rw [hst]) (by rw [hst]; exact id) (by rw [hst]) (by rw [hst]), hn⟩
    exact k.runningOk hcmd (by rw [hst]; exact h.2.1) (by rw [hst]) (by rw [hst]) h

/-- Settles O31: of the ways a step takes, a move, an acceptance and a register write keep the invariant by the lemmas
above; reset and a refusal leave an idle block; the others change nothing it looks at. -/
theorem sequencerStaysConsistent : Obligations.SequencerStaysConsistent := by
  intro s t hok h
  have hpop : SequencerOk (popHost s) := sequencerOk_of_same rfl rfl rfl rfl hok
  cases step_cases h with
  | still _ hu => obtain rfl | rfl := hu <;> exact ⟨by assumption, id⟩
  | move u _ q hu hq _ _ hm =>
    have hs : SequencerOk u ∧ u.status = s.status := by obtain rfl | rfl := hu <;> exact ⟨by assumption, rfl⟩
    rw [SequencerOk, hq] at hs
    exact hs.2 ▸ advance_sequencerOk hq hs.1 hm
  | reset => exact ⟨trivial, fun _ => ⟨nofun, nofun, nofun⟩⟩
  | read | poll | check | overrun => exact ⟨sequencerOk_of_same rfl rfl rfl rfl hpop, id⟩
  | register r v => exact ⟨writeReg_sequencerOk r v hpop, writeReg_validityOrdered r v (s := popHost s)⟩
  | illegal => exact ⟨trivial, id⟩
  | accept i cs _ _ _ hc => exact accept_sequencerOk (s := popHost s) (hc.trans rfl)

end Sys2Proof.Machine

/-! The result registers (R37 to R41, R146): every result the pipeline gives is consistent with itself, and so stays what
waits for its commit and what is committed. -/

namespace Sys2Proof.Machine

/-! ### What the pipeline gives -/

/-- `f64(0)` over 25600.0 is +0.0, with no draw (R147). -/
theorem floatPress_zero : floatPress 0 = fzero false := by
  have h0 : unpack (fofInt 0) = .fin false 0 (-1074) := unpack_fzero false
  have hs : unpack Config.pressScale = .fin false 0x19000000000000 (-38) := by decide
  rw [floatPress, fdiv_of_fin _ h0 hs (by decide)]
  decide

/-- One result of the pipeline: its floats are those of its integers, and the sentinel has both pressures 0 (R146). -/
theorem comp_resultsOk (rawT rawP : BitVec 20) (c : Calibration) :
    ResultsOk (comp rawT rawP c).res (comp rawT rawP c).pinv := by
  obtain ⟨f, hf0, hf1, -, hpath, hfine, hcenti⟩ := comp_fine rawT rawP c
  obtain ⟨-, -, htemp⟩ := comp_temperature rawT rawP c
  refine ⟨hfine ▸ hf0, hfine ▸ hf1, ?_, ?_, ?_, fun hp => ?_⟩
  · rw [hcenti, hfine, asr_eq_div]
    rfl
  · rw [htemp, hcenti, hpath]
  · obtain ⟨-, hq, hpress⟩ | ⟨-, -, hpress⟩ := comp_pressure rawT rawP c
    · rw [hpress, hq]
      exact floatPress_zero.symm
    · exact hpress
  · obtain ⟨-, hq, hpress⟩ | ⟨hv, -, -⟩ := comp_pressure rawT rawP c
    · exact ⟨hq, hpress⟩
    · rw [hv] at hp; cases hp

/-! ### Moves -/

/-- What an evaluation leaves to be committed is a result of the pipeline; no other move leaves anything. -/
theorem goto_pendingOk {p p' : Point} {s u : State} (h : move p s = .goto p' u) : pendingOk p' := by
  cases move_kind h with
  | answered hr ha => exact (answered_point (s := s) hr ha).2.2
  | compEval r hr =>
    have ho := comp_resultsOk s.rawT s.rawP s.dig
    rw [hr] at ho
    exact ho
  | baseEval b i sp st r hr =>
    have ho : ResultsOk (readingOf s.dig b).res (readingOf s.dig b).pinv := comp_resultsOk _ _ _
    rw [hr] at ho
    exact ho
  | baseEnter | baseWait | sampleAdded => trivial

/-- Stage COMP alone commits the result registers, with the result that waited. -/
theorem commit_resultsOk {p : Point} {s u : State} (h : move p s = .commit u) (hp : pendingOk p)
    (hr : ResultsOk s.res s.status.pinv) : ResultsOk u.res u.status.pinv := by
  cases move_kind h with
  | commitComp => exact hp
  | commitCfg | commitCal | commitRaw | commitBase | commitAlt | commitRebase => exact hr

theorem pendingOk_entryOf (st : Stage) : pendingOk (entryOf st) := by cases st <;> trivial

/-- `ReadingOk` looks at the results, PINV and the phase only. -/
theorem readingOk_of_same {s t : State} (hr : t.res = s.res) (hv : t.status.pinv = s.status.pinv)
    (hp : t.phase = s.phase) (h : ReadingOk s) : ReadingOk t := by
  rw [ReadingOk, hr, hv, hp]
  exact h

/-- An idle block, or one at the start of a stage, has nothing waiting. -/
theorem readingOk_of_idle {s : State} (hr : ResultsOk s.res s.status.pinv) (hp : s.phase = .idle) : ReadingOk s :=
  ⟨hr, fun q hq => by rw [hp] at hq; cases hq⟩

theorem readingOk_running {s : State} {q : Running} (hr : ResultsOk s.res s.status.pinv) (hq : pendingOk q.point) :
    ReadingOk { s with phase := .running q } :=
  ⟨hr, fun _ hq' => Phase.running.inj hq' ▸ hq⟩

theorem WithinStage.resultsOk {s u : State} (w : WithinStage s u) (h : ResultsOk s.res s.status.pinv) :
    ResultsOk u.res u.status.pinv := by
  rw [w.same]
  exact h

theorem advance_readingOk {stages : List Stage} {q : Running} {s t : State} (hq : s.phase = .running q)
    (h : advance stages q s = .next t) (hok : ReadingOk s) : ReadingOk t := by
  obtain ⟨hres, hpend⟩ := id hok
  obtain ⟨p, u, hm, e⟩ | ⟨u, hm, e⟩ | ⟨c, u, hm, e⟩ | ⟨u, hm, e⟩ := advance_cases stages q s <;>
    obtain rfl := Host.Outcome.next.inj (h.symm.trans e)
  case inl => exact readingOk_running ((move_withinStage hm (by simp) rfl).resultsOk hres) (goto_pendingOk hm)
  case inr.inl =>
    have hu := commit_resultsOk hm (hpend q hq) hres
    obtain ⟨st, -, e'⟩ | ⟨-, e'⟩ := nextStage_cases stages q u <;> rw [e']
    · exact readingOk_running hu (pendingOk_entryOf st)
    · exact readingOk_of_idle hu rfl
  case inr.inr.inl => exact readingOk_of_idle ((move_withinStage hm (by simp) rfl).resultsOk hres) rfl
  case inr.inr.inr =>
    obtain rfl := stay_eq hm
    exact hok

/-- Acceptance writes no result and leaves nothing waiting. -/
theorem accept_readingOk (i : Instr) (cs : List (Option ErrCode)) (stages : List Stage) {s : State} (h : ReadingOk s) :
    ReadingOk (accept i cs stages s) := by
  obtain ⟨e, -, h'⟩ | ⟨-, -, h'⟩ | ⟨st, rest, -, -, h'⟩ := accept_cases i cs stages s <;> rw [h']
  · exact readingOk_of_idle h.1 rfl
  · exact readingOk_of_idle h.1 rfl
  · exact readingOk_running (s := beginAccept (encode i) s) h.1 (pendingOk_entryOf st)

/-- The result registers at reset. -/
theorem reset_resultsOk : ResultsOk State.reset.res State.reset.status.pinv :=
  ⟨by decide, by decide, by decide, by decide +kernel, floatPress_zero.symm, nofun⟩

/-- Settles O32: moves and acceptance by the lemmas above; reset leaves the reset results; no other step touches the
results, PINV or the phase. -/
theorem resultRegistersStayConsistent : Obligations.ResultRegistersStayConsistent := by
  intro s t hok h
  have hpop : ReadingOk (popHost s) := readingOk_of_same rfl rfl rfl hok
  cases step_cases h with
  | still _ hu => obtain rfl | rfl := hu <;> assumption
  | move u _ q hu hq _ _ hm =>
    have hs : ReadingOk u := by obtain rfl | rfl := hu <;> assumption
    exact advance_readingOk hq hm hs
  | reset => exact readingOk_of_idle reset_resultsOk rfl
  | read | poll | check | overrun => exact readingOk_of_same rfl rfl rfl hpop
  | register r v =>
    have hf := writeReg_frame r v (popHost s)
    exact readingOk_of_same hf.res hf.pinv hf.phase hpop
  | illegal => exact readingOk_of_idle hok.1 rfl
  | accept i cs => exact accept_readingOk i cs _ hpop

/-- Settles O9: an idle block, no validity bit set, and the reset results. -/
theorem resetMeetsTheInvariants : Obligations.ResetMeetsTheInvariants :=
  ⟨trivial, ⟨nofun, nofun, nofun⟩, readingOk_of_idle reset_resultsOk rfl⟩

end Sys2Proof.Machine

/-! Rules of every step: no step faults, the validity bits and OVF are sticky (R24, R28), the bus sees four transactions
(R68), and every accepted command completes (R203). -/

namespace Sys2Proof.Machine

/-! ### Steps exist (R231, K18) -/

theorem advance_next (stages : List Stage) (q : Running) (s : State) : ∃ t, advance stages q s = .next t := by
  obtain ⟨_, _, -, e⟩ | ⟨_, -, e⟩ | ⟨_, _, -, e⟩ | ⟨_, -, e⟩ := advance_cases stages q s <;> exact ⟨_, e⟩

theorem exec_next (i : Instr) (s : State) : ∃ t, exec i s = .next t := by
  rcases hp : s.phase with _ | q
  · obtain ⟨cs, -, e⟩ := exec_idle hp i
    exact ⟨_, e⟩
  · rw [exec_running hp]
    exact advance_next _ q s

theorem sequencerTurn_next (s : State) : ∃ t, sequencerTurn s = .next t := by
  obtain ⟨-, e⟩ | ⟨q, -, e⟩ := sequencerTurn_cases s
  · exact ⟨s, e⟩
  · rw [e]
    exact advance_next _ q s

theorem hostWrite_next (off : BitVec 8) (v : Word) (s : State) : ∃ t, hostWrite off v s = .next t := by
  rcases hr : regAt off with _ | r
  · exact ⟨s, hostWrite_reserved hr v s⟩
  · obtain rfl := offset_of_regAt hr
    by_cases hc : r = .cmd
    · subst hc
      rw [RegName.offset, hostWrite_cmd, writeCommand]
      split
      · exact ⟨_, rfl⟩
      · cases decode v with
        | command i => exact exec_next i s
        | reservedBits | unknownOpcode => exact ⟨_, rfl⟩
    · exact ⟨_, hostWrite_register hc v s⟩

/-- A step answers a next state, or the host's next action is a misaligned access. -/
theorem step_next_or_misaligned (s : State) :
    (∃ t, step s = .next t) ∨ ∃ off rest, aligned off = false ∧
      (s.hostQueue = .read off :: rest ∨ ∃ v, s.hostQueue = .write off v :: rest) := by
  rcases hq : s.hostQueue with _ | ⟨a, rest⟩
  · rw [step_nil hq]
    exact .inl (sequencerTurn_next s)
  · cases a with
    | read off =>
      cases ha : aligned off
      · exact .inr ⟨off, rest, ha, .inl rfl⟩
      · exact .inl ⟨_, step_read hq ha⟩
    | write off v =>
      cases ha : aligned off
      · exact .inr ⟨off, rest, ha, .inr ⟨v, rfl⟩⟩
      · rw [step_write hq ha]
        exact .inl (hostWrite_next off v _)
    | wait => exact .inl ⟨_, step_wait hq⟩
    | waitIrq =>
      rw [step_waitIrq hq]
      split
      · exact .inl ⟨_, rfl⟩
      · exact .inl (sequencerTurn_next s)
    | expect => exact .inl ⟨_, step_expect hq⟩
    | pause =>
      rw [step_pause hq]
      exact .inl (sequencerTurn_next _)
    | reset => exact .inl ⟨_, step_reset hq⟩

theorem aligned_eq_false_iff (off : BitVec 8) : aligned off = false ↔ off.extractLsb' 0 2 ≠ 0 := by
  rw [← Bool.not_eq_true, aligned_iff]

/-- Settles O7: acceptance and every move answer a next state. -/
theorem everyCommandAnswers : Obligations.EveryCommandAnswers := exec_next

/-- Settles O6: a step that is no misaligned access answers a next state, and a misaligned access is refused. -/
theorem onlyMisalignedAccessesHaveNoStep : Obligations.OnlyMisalignedAccessesHaveNoStep := by
  intro s
  obtain ⟨t, ht⟩ | ⟨off, rest, ha, hq⟩ := step_next_or_misaligned s
  · refine ⟨fun r => by simp [ht], fun r => ⟨fun h => by simp [ht] at h, ?_⟩⟩
    rintro ⟨off, rest, -, hoff, hq⟩
    rw [step_misaligned ((aligned_eq_false_iff off).mpr hoff) hq] at ht
    cases ht
  · have hs := step_misaligned ha hq
    refine ⟨fun r => by simp [hs], fun r => ⟨fun h => ?_, ?_⟩⟩
    · rw [hs] at h
      exact ⟨off, rest, (Host.Outcome.refused.inj h).symm, (aligned_eq_false_iff off).mp ha, hq⟩
    · rintro ⟨off', rest', rfl, hoff, hq'⟩
      exact step_misaligned ((aligned_eq_false_iff off').mpr hoff) hq'

/-! ### The state after a move of the sequencer -/

/-- The sequencer's next state is the state its move leaves, but for the phase and what a completion sets (R202, R203). -/
theorem advance_moveState {stages : List Stage} {q : Running} {s t : State} (h : advance stages q s = .next t) :
    ∃ u, moveState (move q.point s) = some u ∧
      (t = u ∨ (∃ q', t = { u with phase := .running q' }) ∨ ∃ e, t = complete e u) := by
  obtain ⟨p, u, hm, e⟩ | ⟨u, hm, e⟩ | ⟨c, u, hm, e⟩ | ⟨u, hm, e⟩ := advance_cases stages q s <;>
    obtain rfl := Host.Outcome.next.inj (h.symm.trans e) <;> rw [hm]
  · exact ⟨u, rfl, .inr (.inl ⟨_, rfl⟩)⟩
  · refine ⟨u, rfl, .inr ?_⟩
    obtain ⟨st, -, e'⟩ | ⟨-, e'⟩ := nextStage_cases stages q u
    · exact .inl ⟨_, e'⟩
    · exact .inr ⟨_, e'⟩
  · exact ⟨u, rfl, .inr (.inr ⟨c, rfl⟩)⟩
  · exact ⟨t, rfl, .inl rfl⟩

/-! ### Validity bits (R28) -/

theorem advance_keepsValid {stages : List Stage} {q : Running} {s t : State} (h : advance stages q s = .next t) :
    KeepsValid s t := by
  obtain ⟨u, hf, rfl | ⟨q', rfl⟩ | ⟨e, rfl⟩⟩ := advance_frame h
  · exact hf.keepsValid
  · exact ⟨hf.cfgDone, hf.calValid, hf.rawValid, hf.resValid, hf.baseValid⟩
  · exact ⟨hf.cfgDone, hf.calValid, hf.rawValid, hf.resValid, hf.baseValid⟩

theorem accept_keepsValid (i : Instr) (cs : List (Option ErrCode)) (stages : List Stage) (s : State) :
    KeepsValid s (accept i cs stages s) := by
  obtain ⟨e, -, h⟩ | ⟨-, -, h⟩ | ⟨st, rest, -, -, h⟩ := accept_cases i cs stages s <;> rw [h] <;>
    exact ⟨id, id, id, id, id⟩

/-- Settles O28: of the ways a step takes, only reset clears a validity bit. -/
theorem validityBitsStayUntilReset : Obligations.ValidityBitsStayUntilReset := by
  intro s t h hr
  have k : KeepsValid s t := by
    cases step_cases h with
    | still _ hu => obtain rfl | rfl := hu <;> exact ⟨id, id, id, id, id⟩
    | move u _ q hu _ _ _ hm =>
      have hk := advance_keepsValid hm
      obtain rfl | rfl := hu
      · exact hk
      · exact ⟨hk.cfgDone, hk.calValid, hk.rawValid, hk.resValid, hk.baseValid⟩
    | reset rest hq => exact absurd hq (hr rest)
    | read | poll | check | overrun | illegal => exact ⟨id, id, id, id, id⟩
    | register r v =>
      have hk := (writeReg_frame r v (popHost s)).keepsValid
      exact ⟨hk.cfgDone, hk.calValid, hk.rawValid, hk.resValid, hk.baseValid⟩
    | accept i cs =>
      have hk := accept_keepsValid i cs (stagesOf i) (popHost s)
      exact ⟨hk.cfgDone, hk.calValid, hk.rawValid, hk.resValid, hk.baseValid⟩
  exact ⟨k.cfgDone, k.calValid, k.rawValid, k.resValid, k.baseValid⟩

/-! ### OVF (R24) -/

/-- Only the evaluations of stage COMP and of a baseline sample change OVF. -/
theorem move_ovf {p : Point} {s u : State} {m : Move} (h : move p s = m) (hu : moveState m = some u) :
    u.status.ovf = s.status.ovf ∨ p = .compEval ∨ ∃ b i sp st, p = .baseEval b i sp st := by
  cases move_kind h with
  | compEval => exact .inr (.inl rfl)
  | baseEval b i sp st => exact .inr (.inr ⟨b, i, sp, st, rfl⟩)
  | _ => exact .inl (Option.some.inj hu ▸ rfl)

theorem advance_ovf {stages : List Stage} {q : Running} {s t : State} (h : advance stages q s = .next t) :
    (s.status.ovf = true → t.status.ovf = true) ∧
    (t.status.ovf = s.status.ovf ∨ q.point = .compEval ∨ ∃ b i sp st, q.point = .baseEval b i sp st) := by
  obtain ⟨u, hm, ht⟩ := advance_moveState h
  have hto : t.status.ovf = u.status.ovf := by obtain rfl | ⟨q', rfl⟩ | ⟨e, rfl⟩ := ht <;> rfl
  rw [hto]
  exact ⟨(move_frame_of_moveState hm).ovf, move_ovf rfl hm⟩

theorem accept_ovf (i : Instr) (cs : List (Option ErrCode)) (stages : List Stage) (s : State) :
    (accept i cs stages s).status.ovf = s.status.ovf := by
  obtain ⟨e, -, h⟩ | ⟨-, -, h⟩ | ⟨st, rest, -, -, h⟩ := accept_cases i cs stages s <;> rw [h] <;> rfl

/-- What a step does to OVF: nothing, a move of the sequencer, a write to STATUS, or reset. -/
inductive OvfChange (s t : State) : Prop where
  | kept (h : t.status.ovf = s.status.ovf)
  | moved (q : Running) (hq : s.phase = .running q) (hs : s.status.ovf = true → t.status.ovf = true)
      (h : t.status.ovf = s.status.ovf ∨ q.point = .compEval ∨ ∃ b i sp st, q.point = .baseEval b i sp st)
  | cleared (v : Word) (rest : List HostAction) (hq : s.hostQueue = .write 0x04 v :: rest)
      (h : t.status.ovf = (s.status.ovf && !v.getLsbD 8))
  | reset (rest : List HostAction) (hq : s.hostQueue = .reset :: rest) (h : t.status.ovf = false)

theorem step_ovfChange {s t : State} (h : step s = .next t) : OvfChange s t := by
  cases step_cases h with
  | still _ hu => obtain rfl | rfl := hu <;> exact .kept rfl
  | move u _ q hu hq _ _ hm =>
    obtain ⟨hs, hc⟩ := advance_ovf hm
    obtain rfl | rfl := hu <;> exact .moved q hq hs hc
  | reset rest hq => exact .reset rest hq rfl
  | read | poll | check | overrun | illegal => exact .kept rfl
  | register r v rest _ hq =>
    by_cases hr : r = .status
    · subst hr
      exact .cleared v rest hq rfl
    · exact .kept ((writeReg_frame r v (popHost s)).ovfKept hr)
  | accept i cs => exact .kept (accept_ovf i cs _ _)

/-- Settles O29, by the two evaluations and by what a step does to OVF. -/
theorem ovfIsSticky : Obligations.OvfIsSticky := by
  refine ⟨?_, ?_, fun s t h h1 h0 => ?_, fun s t h h0 h1 => ?_⟩
  · rintro s ⟨c, n, p⟩ hq rfl
    exact ⟨_, exec_goto hq (move_compEval rfl), rfl⟩
  · rintro s ⟨c, n, p⟩ b i sp st hq rfl
    exact ⟨_, exec_goto hq (move_baseEval rfl i sp st), rfl⟩
  · cases step_ovfChange h with
    | kept hk => rw [hk, h1] at h0; cases h0
    | moved q hq hs => rw [hs h1] at h0; cases h0
    | cleared v rest hq hk => exact .inr ⟨v, rest, by simpa [hk, h1] using h0, hq⟩
    | reset rest hq => exact .inl ⟨rest, hq⟩
  · cases step_ovfChange h with
    | kept hk => rw [hk, h0] at h1; cases h1
    | moved q hq _ hc =>
      refine ⟨q, hq, hc.resolve_left fun hk => ?_⟩
      rw [hk, h0] at h1; cases h1
    | cleared v rest hq hk => rw [hk, h0] at h1; cases h1
    | reset rest hq hk => rw [hk] at h1; cases h1

/-! ### The bus (R67, R68) -/

/-- A move adds at most one transaction to the history, one of the four. -/
theorem move_busTrace {p : Point} {s u : State} {m : Move} (h : move p s = m) (hu : moveState m = some u) :
    u.busTrace = s.busTrace ∨ ∃ tx a, tx ∈ usedTx s.devAddr ∧ u.busTrace = s.busTrace ++ [(tx, a)] := by
  cases move_kind h with
  | answered hr => exact .inr ⟨_, _, requestOf_mem_usedTx hr, by obtain rfl := Option.some.inj hu; rfl⟩
  | failed hr => exact .inr ⟨_, _, requestOf_mem_usedTx hr, by obtain rfl := Option.some.inj hu; rfl⟩
  | _ => exact .inl (Option.some.inj hu ▸ rfl)

theorem accept_busTrace (i : Instr) (cs : List (Option ErrCode)) (stages : List Stage) (s : State) :
    (accept i cs stages s).busTrace = s.busTrace := by
  obtain ⟨e, -, h⟩ | ⟨-, -, h⟩ | ⟨st, rest, -, -, h⟩ := accept_cases i cs stages s <;> rw [h] <;> rfl

/-- Settles O30: only a move of the sequencer reaches the bus. -/
theorem onlyTheFourTransactions : Obligations.OnlyTheFourTransactions := by
  intro s t h
  cases step_cases h with
  | still _ hu => obtain rfl | rfl := hu <;> exact .inl rfl
  | move u _ q hu hq _ _ hm =>
    obtain ⟨v, hv, ht⟩ := advance_moveState hm
    have htv : t.busTrace = v.busTrace := by obtain rfl | ⟨q', rfl⟩ | ⟨e, rfl⟩ := ht <;> rfl
    have hb := move_busTrace rfl hv
    rw [htv]
    obtain rfl | rfl := hu <;> exact hb.imp_right fun hx => ⟨busy_running hq, hx⟩
  | reset | read | poll | check | overrun | illegal => exact .inl rfl
  | register r v => exact .inl (writeReg_frame r v (popHost s)).busTrace
  | accept i cs => exact .inl (accept_busTrace i cs _ _)

/-! ### Completion (R203) -/

/-- How many moves a command makes from a point to the end of its stage, at most, when BASE_N is `n`. -/
def pointMoves (n : Nat) : Point → Nat
  | .cfgFirst => 3
  | .cfgSecond => 2
  | .cfgCommit => 1
  | .calRead => 2
  | .calCommit _ => 1
  | .rawRead => 2
  | .rawCommit _ => 1
  | .compEval => 2
  | .compCommit _ => 1
  | .baseEnter => 4 * (n - 1) + 5
  | .baseWait _ i _ _ => 4 * (n - i) + 4
  | .baseRead i _ _ => 4 * (n - i) + 3
  | .baseEval _ i _ _ => 4 * (n - i) + 2
  | .baseAdd _ i _ _ => 4 * (n - i) + 1
  | .altEval => 1
  | .rebase => 1

/-- The moves of a list of stages, each from its first point on. -/
def stagesMoves (n : Nat) (stages : List Stage) : Nat := (stages.map fun st => pointMoves n (entryOf st)).sum

/-- How many moves a running command still makes, at most. -/
def movesLeft (n : Nat) (q : Running) : Nat :=
  pointMoves n q.point + stagesMoves n ((stagesOf q.cmd).drop (q.stage + 1))

theorem pointMoves_pos (n : Nat) (p : Point) : 0 < pointMoves n p := by cases p <;> simp [pointMoves]

/-- A move that goes on in its stage brings its end nearer. -/
theorem goto_pointMoves {p p' : Point} {s u : State} (h : move p s = .goto p' u) :
    pointMoves s.baseN.toNat p' < pointMoves s.baseN.toNat p := by
  cases move_kind h with
  | answered hr => cases p <;> cases hr <;> simp [pointMoves]
  | compEval | baseEnter | baseWait | baseEval => simp [pointMoves]
  | sampleAdded r i _ _ _ hi => simp only [pointMoves]; omega

/-- A commit brings the next stage of the list, and the moves of the list after it. -/
theorem movesLeft_next {n k : Nat} {i : Instr} {p : Point} {st : Stage} (h : (stagesOf i)[k + 1]? = some st) :
    movesLeft n ⟨i, k + 1, entryOf st⟩ < movesLeft n ⟨i, k, p⟩ := by
  obtain ⟨hk, rfl⟩ := List.getElem?_eq_some_iff.mp h
  have hp := pointMoves_pos n p
  simp only [movesLeft, stagesMoves]
  rw [List.drop_eq_getElem_cons hk, List.map_cons, List.sum_cons]
  omega

theorem nextAnswer_ne_silent {s : State} (h : .silent ∉ s.sensorQueue) (tx : BusTx) : nextAnswer tx s ≠ .silent := by
  unfold nextAnswer
  rcases hq : s.sensorQueue with _ | ⟨a, rest⟩
  · dsimp only
    cases Config.sensor s.busTrace tx <;> nofun
  · rintro rfl
    exact h (hq ▸ List.mem_cons_self)

/-- A move uses up scripted answers, and adds none. -/
theorem move_sensorQueue {p : Point} {s u : State} {m : Move} (h : move p s = m) (hu : moveState m = some u)
    (hs : .silent ∉ s.sensorQueue) : .silent ∉ u.sensorQueue := by
  cases move_kind h with
  | answered | failed => exact Option.some.inj hu ▸ fun hm => hs (List.mem_of_mem_tail hm)
  | _ => exact Option.some.inj hu ▸ hs

/-- Undisturbed, a running command whose sensor is never silent completes within its moves. -/
theorem runSequencer_completes (k : Nat) : ∀ (s : State) (q : Running), s.phase = .running q →
    .silent ∉ s.sensorQueue → movesLeft s.baseN.toNat q ≤ k →
    ∃ t, runSequencer k s = .next t ∧ t.phase = .idle ∧ t.status.done = true ∧ t.cmd = s.cmd := by
  induction k with
  | zero =>
    intro s q _ _ hk
    have := pointMoves_pos s.baseN.toNat q.point
    rw [movesLeft] at hk
    omega
  | succ k ih =>
    rintro s ⟨i, n, p⟩ hq hs hk
    have idle : ∀ {e u}, exec i s = .next (complete e u) → u.cmd = s.cmd →
        ∃ t, runSequencer (k + 1) s = .next t ∧ t.phase = .idle ∧ t.status.done = true ∧ t.cmd = s.cmd :=
      fun {e u} he hc => ⟨complete e u, by rw [runSequencer_move hq he, runSequencer_idle rfl], rfl, rfl, hc⟩
    have goes : ∀ {u q'}, exec i s = .next { u with phase := .running q' } → MoveFrame s u →
        .silent ∉ u.sensorQueue → movesLeft s.baseN.toNat q' < movesLeft s.baseN.toNat ⟨i, n, p⟩ →
        ∃ t, runSequencer (k + 1) s = .next t ∧ t.phase = .idle ∧ t.status.done = true ∧ t.cmd = s.cmd := by
      intro u q' he hf hu hlt
      obtain ⟨t, hrun, hphase, hdone, hcmd⟩ := ih { u with phase := .running q' } q' rfl hu
        (by simp only [hf.baseN]; omega)
      exact ⟨t, (runSequencer_move hq he k).trans hrun, hphase, hdone, hcmd.trans hf.cmd⟩
    obtain ⟨u, hu, hf⟩ := move_frame p s
    have hsu := move_sensorQueue rfl hu hs
    rcases hm : move p s with ⟨p', v⟩ | v | ⟨e, v⟩ | v | r <;> rw [hm] at hu <;> cases hu
    · exact goes (exec_goto hq hm) hf hsu (Nat.add_lt_add_right (goto_pointMoves hm) _)
    · obtain ⟨st, hst, he⟩ | ⟨-, he⟩ := nextStage_cases (stagesOf i) ⟨i, n, p⟩ u
      · exact goes (he ▸ exec_commit hq hm) hf hsu (movesLeft_next hst)
      · exact idle (he ▸ exec_commit hq hm) hf.cmd
    · exact idle (exec_raise hq hm) hf.cmd
    · cases move_kind hm with
      | silent _ hn => exact absurd hn (nextAnswer_ne_silent hs _)

/-- INIT with 255 samples makes the most moves of all commands. -/
theorem stagesMoves_le (i : Instr) (n : BitVec 8) : stagesMoves n.toNat (stagesOf i) ≤ 1026 := by
  have := n.isLt
  cases i <;> simp only [stagesOf, stagesMoves, entryOf, pointMoves, List.map_cons, List.map_nil, List.sum_cons,
    List.sum_nil] <;> omega

/-- Settles O27: acceptance completes, or starts a run of at most 1026 moves. -/
theorem everyCommandCompletes : Obligations.EveryCommandCompletes := by
  intro i s hp hs
  obtain ⟨cs, -, he⟩ := exec_idle hp i
  rw [perform_next he]
  obtain ⟨e, -, h⟩ | ⟨-, -, h⟩ | ⟨st, rest, -, hst, h⟩ := accept_cases i cs (stagesOf i) s <;> rw [h]
  · exact ⟨_, runSequencer_idle rfl _, rfl, rfl, rfl⟩
  · exact ⟨_, runSequencer_idle rfl _, rfl, rfl, rfl⟩
  · refine runSequencer_completes 1026 _ ⟨i, 0, entryOf st⟩ rfl hs ?_
    have hle := stagesMoves_le i s.baseN
    rw [hst, stagesMoves, List.map_cons, List.sum_cons] at hle
    rwa [movesLeft, hst]

end Sys2Proof.Machine

/-! What one turn changes and leaves (R201, R203, R222): acceptance and its refusals, the frames of a stage, the last move
of each command, and that no value depends on a delay (R174). -/

namespace Sys2Proof.Machine

/-! ### Turns and acceptance -/

theorem sequencerTurn_running {s : State} {q : Running} (h : s.phase = .running q) : sequencerTurn s = exec q.cmd s := by
  simp [sequencerTurn, h]

theorem sequencerTurn_idle {s : State} (h : s.phase = .idle) : sequencerTurn s = .next s := by simp [sequencerTurn, h]

/-- A CMD write that meets an idle block is the command its word decodes to. -/
theorem step_write_decoded {s : State} {w : Word} {i : Instr} {rest : List HostAction} (hp : s.phase = .idle)
    (hd : decode w = .command i) (hq : s.hostQueue = .write 0x00 w :: rest) :
    step s = exec i { s with hostQueue := rest } := by
  obtain rfl := decode_eq_command_iff_eq_encode.mp hd
  rw [step_write_cmd hq, writeCommand_encode (s := { s with hostQueue := rest }) hp]

/-- Settles O4: `withFetchWord` puts such a write at the head of an idle block's queue. -/
theorem stepRunsTheWrittenCommand : Obligations.StepRunsTheWrittenCommand := by
  refine ⟨fun s w i rest => step_write_decoded, fun s w i hd => ?_⟩
  have hw : BitVec.ofNat 32 (w.toNat % 2 ^ 32) = w := by rw [Nat.mod_eq_of_lt w.isLt, BitVec.ofNat_toNat, BitVec.setWidth_eq]
  exact step_write_decoded (s := s.withFetchWord 32 w.toNat) (w := w) (rest := s.hostQueue) rfl hd
    (by rw [State.withFetchWord, hw]; rfl)

/-- Settles O5: each of these turns is a turn of the sequencer, the poll of WAIT putting one before the next poll. -/
theorem stepMovesTheRunningCommand : Obligations.StepMovesTheRunningCommand := by
  refine ⟨fun s q hq => ⟨fun h => ?nil, fun rest h => ?pause, fun rest h => ?wait, fun rest h hi => ?waitIrq⟩,
    fun s hp => ⟨fun h => ?idleNil, fun rest h => ?idlePause⟩⟩
  case nil => rw [step_nil h, sequencerTurn_running hq]
  case pause => exact (step_pause h).trans (sequencerTurn_running (s := { s with hostQueue := rest }) hq)
  case wait =>
    have hb : (hostRead RegName.status.offset { s with hostQueue := rest }).getLsbD 0 = true :=
      (hostRead_busy _).trans (busy_running (s := { s with hostQueue := rest }) hq)
    refine ⟨_, step_wait h, ?_⟩
    have hp : (pollBusy { s with hostQueue := rest }).hostQueue = .pause :: .wait :: rest := if_pos hb
    exact (step_pause hp).trans (sequencerTurn_running (q := q) hq)
  case waitIrq => rw [step_waitIrq h, hi, if_neg (by simp), sequencerTurn_running hq]
  case idleNil => rw [step_nil h, sequencerTurn_idle hp]
  case idlePause => exact (step_pause h).trans (sequencerTurn_idle (s := { s with hostQueue := rest }) hp)

/-- A refused command of an idle block changes CMD, DONE and ERR only. -/
theorem exec_verdict {s : State} {i : Instr} {e : ErrCode} (hp : s.phase = .idle) (hv : verdict i s = some e) :
    exec i s = .next { s with cmd := encode i, status := { s.status with done := true, err := e } } := by
  rw [exec_refused hp hv, refuseCommand, complete_beginAccept_of_idle hp]

/-- Settles O21: each case is one in which the table of R200 gives that verdict. -/
theorem refusalsAtAcceptance : Obligations.RefusalsAtAcceptance := by
  intro s i e hp h
  refine exec_verdict hp ?_
  rcases h with ⟨rfl | rfl, hc, rfl⟩ | ⟨rfl, hc, hn, rfl⟩ | ⟨rfl, hn, rfl⟩ | ⟨rfl, hc, rfl⟩ |
    ⟨rfl | rfl | rfl, hc, rfl⟩ | ⟨rfl, hc | hc, rfl⟩ | ⟨rfl, hn, hc, rfl⟩ | ⟨rfl, hc | hc, rfl⟩ | ⟨rfl, hc | hc, rfl⟩
  case inr.inl | inr.inr.inl | inr.inr.inr.inr.inr.inr.inl => simp_all [verdict]
  all_goals simp [verdict, hc]

/-! ### Inside a stage (R203) -/

/-- Settles O23: only a move to another point, or one met by silence, leaves the command in its stage. -/
theorem nothingVisibleChangesInsideAStage : Obligations.NothingVisibleChangesInsideAStage := by
  intro s t q p hq h hp
  rw [exec_running hq] at h
  obtain ⟨p', u, hm, e⟩ | ⟨u, hm, e⟩ | ⟨c, u, hm, e⟩ | ⟨u, hm, e⟩ := advance_cases (stagesOf q.cmd) q s <;>
    obtain rfl := Host.Outcome.next.inj (h.symm.trans e)
  case inl =>
    have w := move_withinStage hm (by simp) rfl
    exact ⟨congrArg (fun v : State => { v with phase := .running ⟨q.cmd, q.stage, p'⟩ }) w.same, w.ovf⟩
  case inr.inl =>
    obtain ⟨st, -, e'⟩ | ⟨-, e'⟩ := nextStage_cases (stagesOf q.cmd) q u <;> rw [e'] at hp
    · have hs : q.stage + 1 = q.stage := congrArg Running.stage (Phase.running.inj hp)
      omega
    · cases hp
  case inr.inr.inl => cases hp
  case inr.inr.inr =>
    obtain rfl := stay_eq hm
    exact ⟨rfl, id⟩

/-- Settles O24: at these points the move is that transaction, and a failed one raises EBUS. -/
theorem busFailuresEndTheCommand : Obligations.BusFailuresEndTheCommand := by
  rintro s ⟨c, n, p⟩ tx hq hpoint a ha hfail
  obtain ⟨f, hr⟩ : ∃ f, requestOf s.devAddr p = some (tx, f) := by
    obtain ⟨rfl, rfl⟩ | ⟨rfl, rfl⟩ | ⟨rfl, rfl⟩ | ⟨rfl, rfl⟩ | ⟨⟨i, sp, st, rfl⟩, rfl⟩ := hpoint <;> exact ⟨_, rfl⟩
  have hfail' : a = .error ∨ ∃ b, a = .data b ∧ tx.answeredBy b = false := by
    refine hfail.imp_right ?_
    rintro ⟨d, r, m, b, rfl, rfl, hl⟩
    exact ⟨b, rfl, beq_false_of_ne hl⟩
  exact exec_raise hq ((move_of_request hr).trans (transact_failed (requestOf_wf hr) ha hfail' f))

/-! ### The last move (R202, R203) -/

/-- A commit with no stage after it completes the command with OK. -/
theorem exec_commit_last {s u : State} {i : Instr} {n : Nat} {p : Point} (h : s.phase = .running ⟨i, n, p⟩)
    (hm : move p s = .commit u) (hl : (stagesOf i)[n + 1]? = none) : exec i s = .next (complete .ok u) := by
  rw [exec_commit h hm, nextStage_last hl]

/-- Settles O26: each is a commit after which the stage list is over. -/
theorem lastMoveCommitsAndCompletes : Obligations.LastMoveCommitsAndCompletes := by
  intro s
  refine ⟨fun h => ?_, fun b h => ?_, fun b h => ?_, fun r i n hi h => ?_, fun r i n k sp st hi h hr hk => ?_,
    fun i n hi h hv => ?_, fun h hv => ?_⟩
  · exact exec_commit_last h rfl rfl
  · exact exec_commit_last h rfl rfl
  · exact exec_commit_last h rfl rfl
  · exact exec_compCommit_last hi h
  · refine ⟨s.nan, _, nan_isNaN s, exec_commit_last h (move_baseAdd_last hr (Nat.not_lt.mpr hk) sp st) ?_⟩
    obtain ⟨rfl, rfl⟩ | ⟨rfl, rfl⟩ := hi <;> rfl
  · refine ⟨s.nan, _, nan_isNaN s, exec_commit_last h (move_alt hv) ?_⟩
    obtain ⟨rfl, rfl⟩ | ⟨rfl, rfl⟩ := hi <;> rfl
  · exact ⟨s.nan 0, _, nan_isNaN s 0, exec_commit_last h (move_rebase hv) rfl⟩

/-! ### Stage BASE (R176) -/

/-- The sample, the results, the coefficients and the bits that speak of them. -/
structure KeepsReading (s u : State) : Prop where
  rawP : u.rawP = s.rawP
  rawT : u.rawT = s.rawT
  res : u.res = s.res
  altOut : u.altOut = s.altOut
  dig : u.dig = s.dig
  pinv : u.status.pinv = s.status.pinv
  resValid : u.status.resValid = s.status.resValid
  rawValid : u.status.rawValid = s.status.rawValid
  cfgDone : u.status.cfgDone = s.status.cfgDone
  calValid : u.status.calValid = s.status.calValid

/-- The reference values of the altitude and their bit. -/
structure KeepsBaseline (s u : State) : Prop where
  p0 : u.p0 = s.p0
  t0 : u.t0 = s.t0
  altOffset : u.altOffset = s.altOffset
  baseValid : u.status.baseValid = s.status.baseValid

theorem WithinStage.keepsReading {s u : State} (w : WithinStage s u) : KeepsReading s u := by
  rw [w.same]; constructor <;> rfl

theorem WithinStage.keepsBaseline {s u : State} (w : WithinStage s u) : KeepsBaseline s u := by
  rw [w.same]; constructor <;> rfl

/-- A move of stage BASE keeps the reading, and the baseline unless it adds the last sample, no sentinel. -/
theorem move_base {p : Point} {s u : State} (hp : stageOf p = .base) (hu : moveState (move p s) = some u) :
    KeepsReading s u ∧ (KeepsBaseline s u ∨
      ∃ r i sp st, p = .baseAdd r i sp st ∧ r.pinv = false ∧ s.baseN.toNat ≤ i) := by
  rcases hm : move p s with ⟨p', v⟩ | v | ⟨e, v⟩ | v | r <;> rw [hm] at hu <;> cases hu
  case commit =>
    cases move_kind hm with
    | commitBase r i sp st hr hi => exact ⟨by constructor <;> rfl, .inr ⟨r, i, sp, st, rfl, hr, Nat.not_lt.mp hi⟩⟩
    | commitCfg | commitCal | commitRaw | commitComp | commitAlt | commitRebase => cases hp
  all_goals
    have w := move_withinStage hm (by simp) rfl
    exact ⟨w.keepsReading, .inl w.keepsBaseline⟩

/-- Settles O34: a move of stage BASE, and then only the phase, DONE and ERR. -/
theorem baselineLeavesTheReadingAlone : Obligations.BaselineLeavesTheReadingAlone := by
  intro s t q hq hp h
  rw [exec_running hq] at h
  obtain ⟨u, hu, ht⟩ := advance_moveState h
  obtain ⟨hr, hb⟩ := move_base hp hu
  have hr : KeepsReading s t := by
    obtain rfl | ⟨q', rfl⟩ | ⟨e, rfl⟩ := ht
    · exact hr
    all_goals exact ⟨hr.rawP, hr.rawT, hr.res, hr.altOut, hr.dig, hr.pinv, hr.resValid, hr.rawValid, hr.cfgDone, hr.calValid⟩
  have hb : KeepsBaseline s t ∨ ∃ r i sp st, q.point = .baseAdd r i sp st ∧ r.pinv = false ∧ s.baseN.toNat ≤ i := by
    refine hb.imp_left fun hb => ?_
    obtain rfl | ⟨q', rfl⟩ | ⟨e, rfl⟩ := ht
    · exact hb
    all_goals exact ⟨hb.p0, hb.t0, hb.altOffset, hb.baseValid⟩
  exact ⟨hr.rawP, hr.rawT, hr.res, hr.altOut, hr.dig, hr.pinv, hr.resValid, hr.rawValid, hr.cfgDone, hr.calValid,
    hb.imp_left fun k => ⟨k.p0, k.t0, k.altOffset, k.baseValid⟩⟩

/-! ### Delays (R174) -/

/-- A point with a running delay counter forgotten. -/
def forgetPoint : Point → Point
  | .baseWait _ i sp st => .baseWait 0 i sp st
  | p => p

/-- A state with its delay registers forgotten and another phase. -/
def timeless (ph : Phase) (s : State) : State := { s with settleMs := 0, intervalMs := 0, phase := ph }

theorem forgetDelays_running {s : State} {c : Instr} {n : Nat} {p : Point} (h : s.phase = .running ⟨c, n, p⟩) :
    forgetDelays s = timeless (.running ⟨c, n, forgetPoint p⟩) s := by
  unfold forgetDelays
  rw [h]
  cases p <;> rfl

theorem forgetDelays_idempotent (s : State) : forgetDelays (forgetDelays s) = forgetDelays s := by
  rcases h : s.phase with _ | ⟨c, n, p⟩
  · simp only [forgetDelays, h]
  · rw [forgetDelays_running h, forgetDelays_running (s := timeless _ s) rfl]
    cases p <;> rfl

/-- Two moves that differ only in a delay, the second one's states being timeless. -/
inductive SameButDelay (ph : Phase) : Move → Move → Prop where
  | goto {p p' : Point} (u : State) (hp : forgetPoint p = forgetPoint p') :
      SameButDelay ph (.goto p u) (.goto p' (timeless ph u))
  | commit (u : State) : SameButDelay ph (.commit u) (.commit (timeless ph u))
  | raise (e : ErrCode) (u : State) : SameButDelay ph (.raise e u) (.raise e (timeless ph u))
  | stay (u : State) : SameButDelay ph (.stay u) (.stay (timeless ph u))
  | refuse (r : Refusal) : SameButDelay ph (.refuse r) (.refuse r)

theorem transact_sameButDelay (ph : Phase) (tx : BusTx) (f : List Byte → Point) (s : State) :
    SameButDelay ph (transact tx f s) (transact tx f (timeless ph s)) := by
  have hn : nextAnswer tx (timeless ph s) = nextAnswer tx s := rfl
  unfold transact
  rw [hn]
  split
  · rcases nextAnswer tx s with b | _ | _
    · dsimp only
      split
      · exact .goto _ rfl
      · exact .raise _ _
    · exact .raise _ _
    · exact .stay _
  · exact .refuse _

/-- No move looks at the delay registers, the delay counter or the phase. -/
theorem move_sameButDelay (ph : Phase) (p : Point) (s : State) :
    SameButDelay ph (move p s) (move (forgetPoint p) (timeless ph s)) := by
  cases p with
  | cfgFirst => exact transact_sameButDelay ph (.write s.devAddr 0xF4 [0x57]) _ s
  | cfgSecond => exact transact_sameButDelay ph (.write s.devAddr 0xF5 [0x10]) _ s
  | calRead => exact transact_sameButDelay ph (.read s.devAddr 0x88 24) _ s
  | rawRead => exact transact_sameButDelay ph (.read s.devAddr 0xF7 6) _ s
  | baseRead i sp st => exact transact_sameButDelay ph (.read s.devAddr 0xF7 6) _ s
  | cfgCommit | calCommit | rawCommit | compCommit => exact .commit _
  | compEval | baseEnter | baseWait | baseEval => exact .goto _ rfl
  | baseAdd r i sp st =>
    change SameButDelay ph (move (.baseAdd r i sp st) s) (move (.baseAdd r i sp st) (timeless ph s))
    cases hr : r.pinv
    · by_cases hi : i < s.baseN.toNat
      · rw [move_baseAdd_more hr hi, move_baseAdd_more (s := timeless ph s) hr hi]
        exact .goto _ rfl
      · rw [move_baseAdd_last hr hi, move_baseAdd_last (s := timeless ph s) hr hi]
        exact .commit _
    · rw [move_baseAdd_invalid hr, move_baseAdd_invalid hr]
      exact .raise _ _
  | altEval =>
    change SameButDelay ph (move .altEval s) (move .altEval (timeless ph s))
    cases hv : s.status.pinv
    · rw [move_alt hv, move_alt (s := timeless ph s) hv]
      exact .commit _
    · rw [move_alt_invalid hv, move_alt_invalid (s := timeless ph s) hv]
      exact .raise _ _
  | rebase =>
    change SameButDelay ph (move .rebase s) (move .rebase (timeless ph s))
    cases hv : s.status.pinv
    · rw [move_rebase hv, move_rebase (s := timeless ph s) hv]
      exact .commit _
    · rw [move_rebase_invalid hv, move_rebase_invalid (s := timeless ph s) hv]
      exact .raise _ _

/-- Acceptance looks at no delay. -/
theorem exec_forgetDelays_idle {i : Instr} {s t : State} (hp : s.phase = .idle) (h : exec i s = .next t) :
    ∃ t', exec i (forgetDelays s) = .next t' ∧ forgetDelays t' = forgetDelays t := by
  have hp' : (forgetDelays s).phase = .idle := by simp only [forgetDelays, hp]
  have hv' : verdict i (forgetDelays s) = verdict i s := rfl
  rcases hv : verdict i s with _ | e <;> rw [hv] at hv'
  · rcases hst : stagesOf i with _ | ⟨st, more⟩
    · obtain rfl := Host.Outcome.next.inj (h.symm.trans (exec_completed hp hv hst))
      exact ⟨_, exec_completed hp' hv' hst, rfl⟩
    · obtain rfl := Host.Outcome.next.inj (h.symm.trans (exec_accepted hp hv hst))
      exact ⟨_, exec_accepted hp' hv' hst, rfl⟩
  · obtain rfl := Host.Outcome.next.inj (h.symm.trans (exec_refused hp hv))
    exact ⟨_, exec_refused hp' hv', rfl⟩

theorem forgetDelays_setRunning (u : State) (ph : Phase) (c : Instr) (n : Nat) {p p' : Point}
    (h : forgetPoint p = forgetPoint p') :
    forgetDelays { timeless ph u with phase := .running ⟨c, n, p'⟩ } =
      forgetDelays { u with phase := .running ⟨c, n, p⟩ } := by
  rw [forgetDelays_running (s := { timeless ph u with phase := .running ⟨c, n, p'⟩ }) rfl,
    forgetDelays_running (s := { u with phase := .running ⟨c, n, p⟩ }) rfl, h]
  rfl

theorem forgetDelays_nextStage (u : State) (ph : Phase) (c : Instr) (n : Nat) (p p' : Point) (stages : List Stage) :
    forgetDelays (nextStage stages ⟨c, n, p'⟩ (timeless ph u)) = forgetDelays (nextStage stages ⟨c, n, p⟩ u) := by
  unfold nextStage
  dsimp only
  rcases stages[n + 1]? with _ | st
  · rfl
  · exact forgetDelays_setRunning u ph c (n + 1) rfl

/-- A move looks at no delay. -/
theorem exec_forgetDelays_running {i c : Instr} {n : Nat} {p : Point} {s t : State}
    (hq : s.phase = .running ⟨c, n, p⟩) (h : exec i s = .next t) :
    ∃ t', exec i (forgetDelays s) = .next t' ∧ forgetDelays t' = forgetDelays t := by
  have hz := forgetDelays_running hq
  have hs := move_sameButDelay (.running ⟨c, n, forgetPoint p⟩) p s
  rw [exec_running hq, advance] at h
  rw [exec_running (hz ▸ rfl : (forgetDelays s).phase = .running ⟨c, n, forgetPoint p⟩), advance]
  rw [← hz] at hs
  generalize move (forgetPoint p) (forgetDelays s) = m' at hs ⊢
  rcases hm : move p s with ⟨p', u⟩ | u | ⟨e, u⟩ | u | r <;> rw [hm] at hs h <;> cases hs
  case refuse => cases h
  all_goals
    obtain rfl := Host.Outcome.next.inj h
  case goto hp => exact ⟨_, rfl, forgetDelays_setRunning u _ c n hp⟩
  case commit => exact ⟨_, rfl, forgetDelays_nextStage u _ c n _ _ _⟩
  case raise => exact ⟨_, rfl, rfl⟩
  case stay =>
    obtain rfl := stay_eq hm
    exact ⟨_, rfl, by rw [← hz, forgetDelays_idempotent]⟩

/-- Settles O33: both answers are, delays forgotten, that of the common state. -/
theorem delaysChangeNoValue : Obligations.DelaysChangeNoValue := by
  intro i s s' t t' hss h h'
  have common : ∀ {s t}, exec i s = .next t → ∃ v, exec i (forgetDelays s) = .next v ∧ forgetDelays v = forgetDelays t := by
    intro s t h
    rcases hp : s.phase with _ | ⟨c, n, p⟩
    · exact exec_forgetDelays_idle hp h
    · exact exec_forgetDelays_running hp h
  obtain ⟨v, hv, e⟩ := common h
  obtain ⟨v', hv', e'⟩ := common h'
  rw [hss, hv'] at hv
  rw [← e, ← e', Host.Outcome.next.inj hv]

end Sys2Proof.Machine

/-! The host's side: the words of the opcode map and program lines (R81, R91), what registers read (R23, R62), and the
writes, reads and resets that leave the block as R21, R60 and R250 say. -/

namespace Sys2Proof.Machine

/-! ### Words and program lines -/

/-- Settles O1, word by word. -/
theorem wordsOfTheOpcodeMapDecode : Obligations.WordsOfTheOpcodeMapDecode := by
  unfold Obligations.WordsOfTheOpcodeMapDecode
  decide

/-- A binary64 literal stands for its decimal, rounded (R91). -/
theorem nearest_rounds (d : Decimal) : Rounds d.nearest (decimalValue d) := by
  rw [← exactValue_decimal d]
  exact fround_rounds d.neg _ (by positivity)

/-- Settles O3: each line is its list of actions, and a literal is rounded. -/
theorem programLinesAreHostAccesses : Obligations.ProgramLinesAreHostAccesses :=
  ⟨fun _ _ => rfl, fun _ _ => rfl, fun _ => rfl, fun _ _ => rfl, fun _ _ _ => rfl, fun _ => rfl, nearest_rounds,
    fun _ _ _ => rfl, fun _ _ => rfl, fun _ _ => rfl, fun _ => rfl, fun _ _ _ => rfl, fun _ _ _ => rfl⟩

/-! ### What registers read -/

/-- The two halves of a 64-bit value put together again (R62). -/
theorem hiWord_append_loWord (v : BitVec 64) : hiWord v ++ loWord v = v :=
  (BitVec.extractLsb'_append_extractLsb'_eq_extractLsb' rfl).trans BitVec.extractLsb'_eq_self

/-- A pair of registers reads as the halves of its value. -/
theorem hostRead_pair {hi lo : RegName} {s : State} {v : BitVec 64} (hh : readReg hi s = hiWord v)
    (hl : readReg lo s = loWord v) : hostRead hi.offset s ++ hostRead lo.offset s = v := by
  rw [hostRead_offset, hostRead_offset, hh, hl, hiWord_append_loWord]

theorem hostRead_unsigned {r : RegName} {s : State} {c : BitVec 16} (h : readReg r s = c.zeroExtend 32) :
    (hostRead r.offset s).toNat = c.toNat := by
  rw [hostRead_offset, h]
  exact BitVec.toNat_setWidth_of_le (by norm_num)

theorem hostRead_signed {r : RegName} {s : State} {c : BitVec 16} (h : readReg r s = c.signExtend 32) :
    (hostRead r.offset s).toInt = c.toInt := by
  rw [hostRead_offset, h]
  exact BitVec.toInt_signExtend_of_le (by norm_num)

/-- Settles O19, register by register. -/
theorem wideRegistersAndCoefficientsRead : Obligations.WideRegistersAndCoefficientsRead := fun s =>
  ⟨hostRead_pair (hi := .pQ248Hi) (lo := .pQ248Lo) rfl rfl, hostRead_pair (hi := .tempCHi) (lo := .tempCLo) rfl rfl,
    hostRead_pair (hi := .pressHpaHi) (lo := .pressHpaLo) rfl rfl, hostRead_pair (hi := .p0Hi) (lo := .p0Lo) rfl rfl,
    hostRead_pair (hi := .t0Hi) (lo := .t0Lo) rfl rfl, hostRead_pair (hi := .altOffsetHi) (lo := .altOffsetLo) rfl rfl,
    hostRead_pair (hi := .recalAltHi) (lo := .recalAltLo) rfl rfl, hostRead_pair (hi := .altOutHi) (lo := .altOutLo) rfl rfl,
    hostRead_offset .cmd s, hostRead_offset .tFine s, hostRead_offset .tCenti s,
    hostRead_unsigned (r := .digT1) rfl, hostRead_signed (r := .digT2) rfl, hostRead_signed (r := .digT3) rfl,
    hostRead_unsigned (r := .digP1) rfl, hostRead_signed (r := .digP2) rfl, hostRead_signed (r := .digP3) rfl,
    hostRead_signed (r := .digP4) rfl, hostRead_signed (r := .digP5) rfl, hostRead_signed (r := .digP6) rfl,
    hostRead_signed (r := .digP7) rfl, hostRead_signed (r := .digP8) rfl, hostRead_signed (r := .digP9) rfl⟩

/-- Past the ten one-bit fields STATUS holds reserved bits and the code of the error (R23). -/
theorem statusWord_high (st : Status) (busy : Bool) (k n : Nat) :
    (statusWord st busy).extractLsb' (10 + k) n = (0#16 ++ st.err.code ++ 0#2).extractLsb' k n := by
  have skip : ∀ {w : Nat} (x : BitVec w) (b : Bool) (j : Nat),
      (x ++ BitVec.ofBool b).extractLsb' (j + 1) n = x.extractLsb' j n :=
    fun x b j => BitVec.extractLsb'_append_eq_of_le (Nat.le_add_left 1 j)
  rw [Nat.add_comm 10 k, statusWord]
  simp only [skip]

/-- Settles O14: the word is the concatenation of its fields, each read at its place. -/
theorem statusWordLayout : Obligations.StatusWordLayout := by
  intro s w
  have hw : w = statusWord s.status s.busy := hostRead_offset .status s
  rw [hw]
  refine ⟨?_, ?_, ?_, ?_, ?_, ?_, ?_, ?_, ?_, ?_, ?low, ?high, ?code⟩
  case low => exact (statusWord_high _ _ 0 2).trans BitVec.extractLsb'_append_eq_right
  case high =>
    rw [statusWord_high _ _ 6 16, BitVec.extractLsb'_append_eq_of_le (by norm_num)]
    exact BitVec.extractLsb'_append_eq_left
  case code =>
    rw [statusWord_high _ _ 2 4, BitVec.extractLsb'_append_eq_of_le (by norm_num)]
    exact BitVec.extractLsb'_append_eq_right.trans (by cases s.status.err <;> rfl)
  all_goals
    simp only [statusWord, BitVec.getLsbD_append]
    simp

/-! ### Reads and checks -/

/-- The reserved offsets of R21. -/
theorem regAt_reserved : ∀ off : BitVec 8,
    off = 0x1C ∨ (0x70 ≤ off.toNat ∧ off.toNat ≤ 0x7C) ∨ 0xB0 ≤ off.toNat → regAt off = none := by decide

theorem hostRead_reserved {off : BitVec 8} (h : regAt off = none) (s : State) : hostRead off s = 0 := by
  simp [hostRead, h]

/-- Settles O10: each is a turn that records a word or an outcome. -/
theorem hostReadsChangeNothing : Obligations.HostReadsChangeNothing := by
  refine ⟨fun s off rest hoff hq => ⟨step_read hq ((aligned_iff off).mpr hoff),
    fun h => hostRead_reserved (regAt_reserved off h) s⟩, fun s rest hq => ?_, fun s want rest hq => ?_⟩
  · have hb := hostRead_busy s
    refine ⟨hb, ?_⟩
    rw [← hb]
    exact step_wait hq
  · refine ⟨expectHolds want s, ?_, step_expect hq⟩
    simp only [expectHolds_iff, aligned_iff]

/-! ### Writes -/

/-- At an aligned offset but the eleven of R21 there is no register, or a read-only one. -/
theorem regAt_not_writable : ∀ off : BitVec 8,
    off ∉ [0x00#8, 0x04, 0x08, 0x0C, 0x10, 0x14, 0x18, 0x20, 0x24, 0x60, 0x64] →
    ∀ r, regAt off = some r → r.access = .ro := by
  intro off hoff r hr
  obtain rfl := offset_of_regAt hr
  cases r <;> simp [RegName.access, RegName.offset] at hoff ⊢

/-- Settles O11: a write to a reserved offset or a read-only register does nothing. -/
theorem readOnlyAndReservedWritesAreIgnored : Obligations.ReadOnlyAndReservedWritesAreIgnored := by
  intro s off v rest ha hoff hq
  rw [step_write hq ((aligned_iff off).mpr ha)]
  rcases hr : regAt off with _ | r
  · exact hostWrite_reserved hr v _
  · have hro := regAt_not_writable off hoff r hr
    have hc : r ≠ .cmd := by rintro rfl; cases hro
    obtain rfl := offset_of_regAt hr
    rw [hostWrite_register hc, writeReg, hro]

/-- Settles O13: the register rule of STATUS. -/
theorem statusWriteClearsThreeBits : Obligations.StatusWriteClearsThreeBits := by
  intro s v rest hq
  rw [step_write_register (r := .status) (by decide) hq]
  have hclear : ∀ a b : Bool, (a && !b) = if b then false else a := by decide
  simp only [writeReg, RegName.access, statusClear, hclear]

/-- A field of `n` bits keeps the low bits of what is written, and reads them zero-extended (R31). -/
theorem zeroExtend_setWidth (v : Word) {n : Nat} (hn : n ≤ 32) :
    (v.setWidth n).zeroExtend 32 = v &&& BitVec.ofNat 32 (2 ^ n - 1) := by
  apply BitVec.eq_of_toNat_eq
  have hlt : 2 ^ n - 1 < 2 ^ 32 := by
    have := Nat.pow_le_pow_right (n := 2) (by norm_num) hn
    omega
  rw [BitVec.toNat_and, BitVec.toNat_ofNat, Nat.mod_eq_of_lt hlt, Nat.and_two_pow_sub_one_eq_mod]
  rw [BitVec.zeroExtend, BitVec.toNat_setWidth_of_le hn, BitVec.toNat_setWidth]

/-- An argument register after a write while idle: what it stores, and what it reads. -/
theorem step_write_field {s : State} {r : RegName} {v mask : Word} {rest : List HostAction} {t : State}
    (hr : r.access = .rwIdle) (hp : s.phase = .idle) (hq : s.hostQueue = .write r.offset v :: rest)
    (ht : writeArgument r v { s with hostQueue := rest } = t) (hm : readReg r t = v &&& mask) :
    ∃ u, step s = .next u ∧ hostRead r.offset u = v &&& mask ∧ u = t :=
  ⟨t, ht ▸ step_write_idle hr hp hq, (hostRead_offset r t).trans hm, rfl⟩

/-- Settles O16, register by register. -/
theorem configurationRegisters : Obligations.ConfigurationRegisters := fun s v rest hp =>
  ⟨fun hq => step_write_field (r := .devAddr) rfl hp hq rfl (zeroExtend_setWidth v (by norm_num)),
    fun hq => step_write_field (r := .baseN) rfl hp hq rfl (zeroExtend_setWidth v (by norm_num)),
    fun hq => step_write_field (r := .settleMs) rfl hp hq rfl (zeroExtend_setWidth v (by norm_num)),
    fun hq => step_write_field (r := .intervalMs) rfl hp hq rfl (zeroExtend_setWidth v (by norm_num))⟩

/-- Settles O17, for each of the two raw registers. -/
theorem rawRegistersSetRawValid : Obligations.RawRegistersSetRawValid := fun s v rest hp =>
  ⟨fun hq => step_write_field (r := .rawP) rfl hp hq rfl (zeroExtend_setWidth v (by norm_num)),
    fun hq => step_write_field (r := .rawT) rfl hp hq rfl (zeroExtend_setWidth v (by norm_num))⟩

/-! ### Reset (R250) -/

/-- Every register word is the block's own, so reset leaves each as it is in `State.reset`. -/
theorem hostRead_applyReset (off : BitVec 8) (s : State) : hostRead off (applyReset s) = hostRead off State.reset := by
  unfold hostRead
  rcases regAt off with _ | r
  · rfl
  · cases r <;> rfl

/-- The words of `State.reset`. -/
theorem hostRead_reset : ∀ off : BitVec 8, hostRead off State.reset =
    if off = 0x0C then 0x76 else if off = 0x10 then 10 else if off = 0x14 then 0x3E8
    else if off = 0x18 then 0x64 else 0 := by decide

/-- Settles O8: the words by `hostRead_reset`, the rest by what reset keeps. -/
theorem resetInputRestoresTheBlock : Obligations.ResetInputRestoresTheBlock := fun _ _ hq =>
  ⟨_, step_reset hq, rfl, rfl, fun off => (hostRead_applyReset off _).trans (hostRead_reset off), rfl, rfl, rfl, rfl, rfl⟩

end Sys2Proof.Machine

/-! Whole commands, undisturbed: acceptance and then the moves of the stages, each rewriting the run (R110 to R205). -/

namespace Sys2Proof.Machine

/-! ### Acceptance and runs -/

/-- A command whose verdict is none stands, after acceptance, at the first point of its first stage (R201). -/
theorem exec_started {s : State} {i : Instr} {st : Stage} {more : List Stage} (hp : s.phase = .idle)
    (hv : verdict i s = none) (hs : stagesOf i = st :: more) :
    exec i s = .next { s with
      cmd := encode i, status := { s.status with done := false, err := .ok }, phase := .running ⟨i, 0, entryOf st⟩ } :=
  exec_accepted hp hv hs

/-- A run of at least `n` moves from what the command starts with. -/
theorem perform_of_run {s t : State} {i : Instr} {n k : Nat} {o : Out} (he : exec i s = .next t) (hk : n ≤ k)
    (h : ∀ j, runSequencer (j + n) t = o) : perform k i s = o := by
  obtain ⟨j, rfl⟩ := Nat.exists_eq_add_of_le' hk
  exact (perform_next he _).trans (h j)

/-- A run ends with the move that raises an error (R221). -/
theorem run_raise {s t o : State} {i : Instr} {n k : Nat} {p : Point} {e : ErrCode} (h : s.phase = .running ⟨i, n, p⟩)
    (hm : move p s = .raise e t) (ho : complete e t = o) : runSequencer (k + 1) s = .next o :=
  run_move h (exec_raise h hm) (ho ▸ runSequencer_idle rfl k)

/-- A run ends with the commit of the last stage (R203). -/
theorem run_last {s t o : State} {i : Instr} {n k : Nat} {p : Point} (h : s.phase = .running ⟨i, n, p⟩)
    (hm : move p s = .commit t) (hl : (stagesOf i)[n + 1]? = none) (ho : complete .ok t = o) :
    runSequencer (k + 1) s = .next o :=
  run_move h (exec_commit_last h hm hl) (ho ▸ runSequencer_idle rfl k)

/-- A move to another point of the stage. -/
theorem run_goto {s t : State} {i : Instr} {n k : Nat} {p p' : Point} {o : Out} (h : s.phase = .running ⟨i, n, p⟩)
    (hm : move p s = .goto p' t) (rest : runSequencer k { t with phase := .running ⟨i, n, p'⟩ } = o) :
    runSequencer (k + 1) s = o :=
  run_move h (exec_goto h hm) rest

/-- A commit, and the first point of the next stage. -/
theorem run_commit {s t : State} {i : Instr} {n k : Nat} {p : Point} {st : Stage} {o : Out}
    (h : s.phase = .running ⟨i, n, p⟩) (hm : move p s = .commit t) (hn : (stagesOf i)[n + 1]? = some st)
    (rest : runSequencer k { t with phase := .running ⟨i, n + 1, entryOf st⟩ } = o) : runSequencer (k + 1) s = o :=
  run_move h (by rw [exec_commit h hm, nextStage_more hn]) rest

/-! ### CONFIGURE, LOAD_CAL, READ_RAW (R110, R112, R115) -/

/-- Settles O49. -/
theorem configureWritesTheSensor : Obligations.ConfigureWritesTheSensor := by
  intro s hp w1 w2
  refine ⟨fun hc => exec_verdict hp (by simp [verdict, hc]), fun hc => ?_⟩
  have start := exec_started (i := .configure) hp (by simp [verdict, hc]) rfl
  rw [hp]
  refine ⟨start, fun x1 x2 h1 h2 k hk => perform_of_run start hk fun j => ?both,
    fun h1 k hk => perform_of_run start hk fun j => run_raise rfl (move_cfgFirst_failed (by exact h1)) rfl,
    fun x1 h1 h2 k hk => perform_of_run start hk fun j => ?second⟩
  case both =>
    refine run_goto rfl (move_cfgFirst (by exact h1)) (run_goto rfl (move_cfgSecond (by exact h2)) ?_)
    refine run_last rfl rfl rfl ?_
    simp only [complete, commitCfg, recordTx, List.append_assoc, List.cons_append, List.nil_append]
    rfl
  case second =>
    refine run_goto rfl (move_cfgFirst (by exact h1)) (run_raise rfl (move_cfgSecond_failed (by exact h2)) ?_)
    simp only [complete, recordTx, List.append_assoc, List.cons_append, List.nil_append]
    rfl

/-- Settles O50. -/
theorem loadCalReplacesTheCoefficients : Obligations.LoadCalReplacesTheCoefficients := by
  intro s hp tx
  refine ⟨fun hc => exec_verdict hp (by simp [verdict, hc]), fun hc => ?_⟩
  have start := exec_started (i := .loadCal) hp (by simp [verdict, hc]) rfl
  rw [hp]
  exact ⟨start,
    fun b hn hl k hk => perform_of_run start hk fun j =>
      run_goto rfl (move_calRead (by exact hn) hl) (run_last rfl rfl rfl rfl),
    fun a hn ha k hk => perform_of_run start hk fun j => run_raise rfl (move_calRead_failed (by exact hn) ha) rfl⟩

/-- Settles O51. -/
theorem readRawTakesOneBurst : Obligations.ReadRawTakesOneBurst := by
  intro s hp
  refine ⟨fun hc => exec_verdict hp (by simp [verdict, hc]), fun hc => ?_⟩
  have start := exec_started (i := .readRaw) hp (by simp [verdict, hc]) rfl
  rw [hp]
  exact ⟨start,
    fun b hn hl k hk => perform_of_run start hk fun j =>
      run_goto rfl (move_rawRead (by exact hn) hl) (run_last rfl rfl rfl rfl),
    fun a hn ha k hk => perform_of_run start hk fun j => run_raise rfl (move_rawRead_failed (by exact hn) ha) rfl⟩

/-! ### COMPENSATE, SAMPLE (R151, R152) -/

/-- Settles O52. -/
theorem compensateCommitsThePipeline : Obligations.CompensateCommitsThePipeline := by
  intro s hp
  refine ⟨fun hc => exec_verdict hp (by obtain hc | hc := hc <;> simp [verdict, hc]), fun hc hr => ?_⟩
  have start := exec_started (i := .compensate) hp (by simp [verdict, hc, hr]) rfl
  obtain ⟨r, hres⟩ : ∃ r, comp s.rawT s.rawP s.dig = r := ⟨_, rfl⟩
  rw [hres, hp]
  exact ⟨start, fun k hk => perform_of_run start hk fun j =>
    run_goto rfl (move_compEval (by exact hres)) (run_last rfl rfl rfl rfl)⟩

/-- The block `s` after one burst `b` and the pipeline's result `r` on it, both committed (R115, R150). -/
def sampled (b : List Byte) (r : CompResult) (s : State) : State :=
  { s with
    rawP := rawPressure b, rawT := rawTemperature b, res := r.res
    status := { s.status with rawValid := true, resValid := true, pinv := r.pinv, ovf := s.status.ovf || r.ovf }
    sensorQueue := s.sensorQueue.tail, busTrace := s.busTrace ++ [(rawBurst s, .data b)] }

/-- Stages RAW and COMP at the head of a stage list take three moves to the commit of COMP (R115, R150). -/
theorem run_sample {s : State} {i : Instr} {b : List Byte} {r : CompResult} {k : Nat} {o : Out}
    (h : s.phase = .running ⟨i, 0, .rawRead⟩) (hs : (stagesOf i)[1]? = some .comp)
    (hn : nextAnswer (rawBurst s) s = .data b) (hl : b.length = 6) (hr : readingOf s.dig b = r)
    (rest : ∀ u, u.phase = .running ⟨i, 1, .compCommit r⟩ → commitComp r u = { sampled b r s with phase := u.phase } →
      runSequencer k u = o) : runSequencer (k + 3) s = o :=
  run_goto h (move_rawRead hn hl) (run_commit rfl rfl hs (run_goto rfl (move_compEval (by exact hr)) (rest _ rfl rfl)))

/-- The same with the commit of COMP, when a stage follows it. -/
theorem run_sample_next {s : State} {i : Instr} {b : List Byte} {r : CompResult} {k : Nat} {st : Stage} {o : Out}
    (h : s.phase = .running ⟨i, 0, .rawRead⟩) (hs : (stagesOf i)[1]? = some .comp)
    (hs' : (stagesOf i)[2]? = some st) (hn : nextAnswer (rawBurst s) s = .data b) (hl : b.length = 6)
    (hr : readingOf s.dig b = r)
    (rest : runSequencer k { sampled b r s with phase := .running ⟨i, 2, entryOf st⟩ } = o) :
    runSequencer (k + 4) s = o :=
  run_sample (k := k + 1) h hs hn hl hr fun _ hu hc => run_commit hu rfl hs' (hc ▸ rest)

/-- Settles O53. -/
theorem sampleReadsAndCompensates : Obligations.SampleReadsAndCompensates := by
  intro s hp
  refine ⟨fun hc => exec_verdict hp (by simp [verdict, hc]), fun hc => ?_⟩
  have start := exec_started (i := .sample) hp (by simp [verdict, hc]) rfl
  rw [hp]
  refine ⟨start, fun b hn hl => ?_,
    fun a hn ha k hk => perform_of_run start hk fun j => run_raise rfl (move_rawRead_failed (by exact hn) ha) rfl⟩
  obtain ⟨r, hr⟩ : ∃ r, readingOf s.dig b = r := ⟨_, rfl⟩
  rw [hr]
  exact fun k hk => perform_of_run start hk fun j => run_sample (k := j + 1) rfl rfl (by exact hn) hl (by exact hr)
    fun _ hu hc => run_last hu rfl rfl (by rw [hc]; rfl)

/-! ### ALT_EVAL, ALTITUDE, RECALIBRATE (R180, R182, R185) -/

/-- Settles O55. -/
theorem altEvalEvaluatesTheFormula : Obligations.AltEvalEvaluatesTheFormula := by
  intro s hp
  refine ⟨fun hc => exec_verdict hp (by obtain hc | hc := hc <;> simp [verdict, hc]), fun hr hb => ?_⟩
  have start := exec_started (i := .altEval) hp (by simp [verdict, hr, hb]) rfl
  rw [hp]
  exact ⟨start,
    fun hv k hk => perform_of_run start hk fun j => run_raise rfl (move_alt_invalid (by exact hv)) rfl,
    fun hv k hk => ⟨s.nan, s.draws + 5, nan_isNaN s, perform_of_run start hk fun j =>
      run_last rfl (move_alt (by exact hv)) rfl rfl⟩⟩

/-- Settles O56. -/
theorem altitudeUsesAFreshSample : Obligations.AltitudeUsesAFreshSample := by
  intro s hp
  refine ⟨fun hc => exec_verdict hp (by obtain hc | hc := hc <;> simp [verdict, hc]), fun hc hb => ?_⟩
  have start := exec_started (i := .altitude) hp (by simp [verdict, hc, hb]) rfl
  rw [hp]
  refine ⟨start,
    fun a hn ha k hk => perform_of_run start hk fun j => run_raise rfl (move_rawRead_failed (by exact hn) ha) rfl,
    fun b hn hl => ?_⟩
  obtain ⟨r, hr⟩ : ∃ r, readingOf s.dig b = r := ⟨_, rfl⟩
  rw [hr]
  refine ⟨fun hv k hk => perform_of_run start hk fun j => ?sentinel,
    fun hv k hk => ⟨s.nan, s.draws + 5, nan_isNaN s, perform_of_run start hk fun j => ?valid⟩⟩ <;>
    refine run_sample_next (k := j + 1) rfl rfl rfl (by exact hn) hl (by exact hr) ?_
  case sentinel => exact run_raise rfl (move_alt_invalid hv) (by rw [sampled, hv]; rfl)
  case valid => exact run_last rfl (move_alt hv) rfl (by rw [sampled, hv]; rfl)

/-- Settles O57. -/
theorem recalibrateRebasesOnAFreshSample : Obligations.RecalibrateRebasesOnAFreshSample := by
  intro s hp
  refine ⟨fun hc => exec_verdict hp (by simp [verdict, hc]), fun hc => ?_⟩
  have start := exec_started (i := .recalibrate) hp (by simp [verdict, hc]) rfl
  rw [hp]
  refine ⟨start,
    fun a hn ha k hk => perform_of_run start hk fun j => run_raise rfl (move_rawRead_failed (by exact hn) ha) rfl,
    fun b hn hl => ?_⟩
  obtain ⟨r, hr⟩ : ∃ r, readingOf s.dig b = r := ⟨_, rfl⟩
  rw [hr]
  refine ⟨fun hv k hk => perform_of_run start hk fun j => ?sentinel,
    fun hv k hk => ⟨s.nan 0, s.draws + 1, nan_isNaN s 0, perform_of_run start hk fun j => ?valid⟩⟩ <;>
    refine run_sample_next (k := j + 1) rfl rfl rfl (by exact hn) hl (by exact hr) ?_
  case sentinel => exact run_raise rfl (move_rebase_invalid hv) (by rw [sampled, hv]; rfl)
  case valid => exact run_last rfl (move_rebase hv) rfl (by rw [sampled, hv]; rfl)

end Sys2Proof.Machine

/-! Stage BASE over many samples (R173, R175): the samples of a script taken one by one, the sums over them, and the runs
of BASELINE and INIT up to the commit or up to a burst that fails or is the sentinel (R176). -/

namespace Sys2Proof.Machine

/-! ### The samples of a script -/

/-- The first sample, and the samples after it. -/
theorem takeSamples_succ {n : Nat} {v u : State} {bs : List (List Byte)} (h : takeSamples (n + 1) v = some (bs, u)) :
    ∃ b bs', nextAnswer (rawBurst v) v = .data b ∧ b.length = 6 ∧
      takeSamples n (recordTx (rawBurst v) (.data b) v) = some (bs', u) ∧ bs = b :: bs' := by
  rw [takeSamples] at h
  rcases hn : nextAnswer (rawBurst v) v with b | _ | _ <;> simp only [hn, reduceCtorEq] at h
  by_cases hl : b.length = 6
  · rw [if_pos hl, Option.map_eq_some_iff] at h
    obtain ⟨⟨bs', u'⟩, ht, hu⟩ := h
    obtain ⟨rfl, rfl⟩ := Prod.mk.inj hu
    exact ⟨b, bs', rfl, hl, ht, rfl⟩
  · rw [if_neg hl] at h
    cases h

theorem takeSamples_cons {n : Nat} {v u : State} {b : List Byte} {bs : List (List Byte)}
    (hn : nextAnswer (rawBurst v) v = .data b) (hl : b.length = 6)
    (ht : takeSamples n (recordTx (rawBurst v) (.data b) v) = some (bs, u)) :
    takeSamples (n + 1) v = some (b :: bs, u) := by
  simp only [takeSamples, hn, hl, if_true, ht, Option.map_some]

/-- The last sample, and the samples before it. -/
theorem takeSamples_last {n : Nat} : ∀ {v u : State} {bs : List (List Byte)}, takeSamples (n + 1) v = some (bs, u) →
    ∃ bs' w b, takeSamples n v = some (bs', w) ∧ nextAnswer (rawBurst v) w = .data b ∧ b.length = 6 ∧
      bs = bs' ++ [b] ∧ u = recordTx (rawBurst v) (.data b) w := by
  induction n with
  | zero =>
    intro v u bs h
    obtain ⟨b, bs', hn, hl, ht, rfl⟩ := takeSamples_succ h
    cases ht
    exact ⟨[], v, b, rfl, hn, hl, rfl, rfl⟩
  | succ n ih =>
    intro v u bs h
    obtain ⟨b, bs', hn, hl, ht, rfl⟩ := takeSamples_succ h
    obtain ⟨bs'', w, b', ht', hn', hl', rfl, rfl⟩ := ih ht
    exact ⟨b :: bs'', w, b', takeSamples_cons hn hl ht', hn', hl', rfl, rfl⟩

theorem takeSamples_length {n : Nat} : ∀ {v u : State} {bs : List (List Byte)}, takeSamples n v = some (bs, u) →
    bs.length = n := by
  induction n with
  | zero =>
    intro v u bs h
    cases h
    rfl
  | succ n ih =>
    intro v u bs h
    obtain ⟨b, bs', -, -, ht, rfl⟩ := takeSamples_succ h
    rw [List.length_cons, ih ht]

/-- One more sample at the end is one more addition to each sum. -/
theorem sumSamples_concat (nan : Nat → F64) (c : Calibration) (b : List Byte) (bs : List (List Byte)) :
    ∀ (k : Nat) (acc : F64 × F64), sumSamples nan c k (bs ++ [b]) acc =
      (fadd (nan (k + 5 * bs.length)) (sumSamples nan c k bs acc).1 (readingOf c b).res.pressHpa,
        fadd (nan (k + 5 * bs.length + 1)) (sumSamples nan c k bs acc).2 (readingOf c b).res.tempC) := by
  induction bs with
  | nil => intro k acc; rfl
  | cons x bs ih =>
    intro k acc
    rw [List.cons_append, sumSamples, ih, sumSamples, List.length_cons, Nat.mul_add, Nat.mul_one,
      Nat.add_comm (5 * bs.length), Nat.add_assoc k 5]

/-! ### Runs of stage BASE -/

/-- Two states with the same bus: the same device address, script and history. -/
structure SameBus (v s : State) : Prop where
  devAddr : v.devAddr = s.devAddr
  sensorQueue : v.sensorQueue = s.sensorQueue
  busTrace : v.busTrace = s.busTrace

/-- The sums of R173 over samples from the count of NaN patterns of `s` on. -/
def sumsOf (bs : List (List Byte)) (s : State) : F64 × F64 :=
  sumSamples s.nan s.dig 0 bs (0x0000000000000000, 0x0000000000000000)

theorem sumsOf_concat (bs : List (List Byte)) (b : List Byte) (s : State) : sumsOf (bs ++ [b]) s =
    (fadd (s.nan (5 * bs.length)) (sumsOf bs s).1 (readingOf s.dig b).res.pressHpa,
      fadd (s.nan (5 * bs.length + 1)) (sumsOf bs s).2 (readingOf s.dig b).res.tempC) := by
  rw [sumsOf, sumSamples_concat, Nat.zero_add, sumsOf]

/-- The block `s` once the samples `bs`, none of them the last, are added; the bus is then that of `u`. -/
def withSamples (bs : List (List Byte)) (u s : State) : State :=
  { s with
    status := noteOvf (bs.any fun b => (readingOf s.dig b).ovf) s.status
    sensorQueue := u.sensorQueue, busTrace := u.busTrace, draws := s.draws + 5 * bs.length }

/-- The place of the first NaN pattern of the means, after those of the `n` samples (R175). -/
def meanDraw (n : Nat) : Nat := 5 * (n - 1) + 2

section
variable {s v u : State} {cmd : Instr} {stage j : Nat} {bs : List (List Byte)}

/-- From its entry on, stage BASE adds `j` samples and waits for the next one, in `1 + 4 * j` moves. -/
theorem run_base_samples (h : s.phase = .running ⟨cmd, stage, .baseEnter⟩) (bus : SameBus v s)
    (ht : takeSamples j v = some (bs, u)) (hb : ∀ b ∈ bs, (readingOf s.dig b).pinv = false) (hj : j < s.baseN.toNat)
    (k : Nat) : ∃ d, runSequencer (k + (1 + 4 * j)) s = runSequencer k { withSamples bs u s with
      phase := .running ⟨cmd, stage, .baseWait d (1 + j) (sumsOf bs s).1 (sumsOf bs s).2⟩ } := by
  obtain ⟨d, hd⟩ := run_samples j { s with phase := .running ⟨cmd, stage, .baseWait s.settleMs 1 (fzero false) (fzero false)⟩ }
    v u bs 1 _ _ _ rfl ht bus.devAddr bus.sensorQueue bus.busTrace hb (by show 1 + j ≤ s.baseN.toNat; omega) k
  refine ⟨d, ?_⟩
  rw [show k + (1 + 4 * j) = k + 4 * j + 1 by omega, withSamples, takeSamples_length ht]
  exact run_goto h rfl hd

/-- The burst after `j` samples fails (R176). -/
theorem run_base_failed (h : s.phase = .running ⟨cmd, stage, .baseEnter⟩) (bus : SameBus v s)
    (ht : takeSamples j v = some (bs, u)) (hb : ∀ b ∈ bs, (readingOf s.dig b).pinv = false) (hj : j < s.baseN.toNat)
    {a : BusResponse} (hn : nextAnswer (rawBurst s) u = a) (ha : a = .error ∨ ∃ b, a = .data b ∧ b.length ≠ 6)
    {k : Nat} {o : State} (ho : complete .ebus (recordTx (rawBurst s) a (withSamples bs u s)) = o) :
    runSequencer (k + (3 + 4 * j)) s = .next o := by
  obtain ⟨d, hd⟩ := run_base_samples h bus ht hb hj (k + 2)
  rw [show k + (3 + 4 * j) = k + 2 + (1 + 4 * j) by omega, hd]
  exact run_goto rfl rfl (run_raise rfl (move_baseRead_failed (by exact hn) ha _ _ _) ho)

/-- The burst after `j` samples answers: from its evaluation on. -/
theorem run_base_answered (h : s.phase = .running ⟨cmd, stage, .baseEnter⟩) (bus : SameBus v s)
    (ht : takeSamples j v = some (bs, u)) (hb : ∀ b ∈ bs, (readingOf s.dig b).pinv = false) (hj : j < s.baseN.toNat)
    {b : List Byte} (hn : nextAnswer (rawBurst s) u = .data b) (hl : b.length = 6) {r : CompResult}
    (hr : readingOf s.dig b = r) {k : Nat} {o : Out}
    (rest : ∀ w : State, w = { recordTx (rawBurst s) (.data b) (withSamples bs u s) with
        status := noteOvf r.ovf (withSamples bs u s).status
        phase := .running ⟨cmd, stage, .baseAdd r (1 + j) (sumsOf bs s).1 (sumsOf bs s).2⟩ } →
      runSequencer (k + 1) w = o) :
    runSequencer (k + (5 + 4 * j)) s = o := by
  obtain ⟨d, hd⟩ := run_base_samples h bus ht hb hj (k + 4)
  rw [show k + (5 + 4 * j) = k + 4 + (1 + 4 * j) by omega, hd]
  exact run_goto rfl rfl (run_goto rfl (move_baseRead (by exact hn) hl _ _ _)
    (run_goto rfl (move_baseEval (by exact hr) _ _ _) (rest _ rfl)))

/-- The burst after `j` samples is the sentinel (R176). -/
theorem run_base_sentinel (h : s.phase = .running ⟨cmd, stage, .baseEnter⟩) (bus : SameBus v s)
    (ht : takeSamples j v = some (bs, u)) (hb : ∀ b ∈ bs, (readingOf s.dig b).pinv = false) (hj : j < s.baseN.toNat)
    {b : List Byte} (hn : nextAnswer (rawBurst s) u = .data b) (hl : b.length = 6)
    (hv : (readingOf s.dig b).pinv = true) {k : Nat} {o : State}
    (ho : complete .einvcomp { recordTx (rawBurst s) (.data b) (withSamples bs u s) with
      status := noteOvf ((bs ++ [b]).any fun x => (readingOf s.dig x).ovf) s.status } = o) :
    runSequencer (k + (5 + 4 * j)) s = .next o := by
  obtain ⟨r, hr⟩ : ∃ r, readingOf s.dig b = r := ⟨_, rfl⟩
  refine run_base_answered h bus ht hb hj hn hl hr fun w hw => ?_
  refine run_raise (by rw [hw]) (move_baseAdd_invalid (hr ▸ hv) _ _ _) ?_
  subst hw ho
  simp only [complete, withSamples, noteOvf, List.any_append, List.any_cons, List.any_nil, Bool.or_false, hr, Bool.or_assoc]

/-- All `n` samples answer and none is the sentinel: the last one is added, the means are committed and the command,
whose last stage this is, completes (R175). -/
theorem run_base_commit {n k : Nat} (h : s.phase = .running ⟨cmd, stage, .baseEnter⟩)
    (hlast : (stagesOf cmd)[stage + 1]? = none) (hs : s.baseN.toNat = n) (hn : n ≠ 0) (bus : SameBus v s)
    (ht : takeSamples n v = some (bs, u)) (hb : ∀ b ∈ bs, (readingOf s.dig b).pinv = false) :
    runSequencer (k + (1 + 4 * n)) s = .next { s with
      phase := .idle
      p0 := fdiv (s.nan (meanDraw n)) (sumsOf bs s).1 (fofInt n)
      t0 := fadd (s.nan (meanDraw n + 2)) (fdiv (s.nan (meanDraw n + 1)) (sumsOf bs s).2 (fofInt n)) 0x4071126666666666
      altOffset := 0x0000000000000000
      status := { s.status with
        done := true, err := .ok, baseValid := true
        ovf := s.status.ovf || bs.any (fun b => (readingOf s.dig b).ovf) }
      sensorQueue := u.sensorQueue, busTrace := u.busTrace, draws := s.draws + 5 * n } := by
  obtain ⟨j, rfl⟩ := Nat.exists_eq_succ_of_ne_zero hn
  obtain ⟨bs', w, b, ht', ha, hl, rfl, rfl⟩ := takeSamples_last ht
  obtain ⟨r, hr⟩ : ∃ r, readingOf s.dig b = r := ⟨_, rfl⟩
  have hburst : rawBurst v = rawBurst s := by rw [rawBurst, rawBurst, bus.devAddr]
  rw [hburst] at ha
  have hv : r.pinv = false := hr ▸ hb b (by simp)
  rw [show k + (1 + 4 * (j + 1)) = k + (5 + 4 * j) by omega]
  refine run_base_answered h bus ht' (fun x hx => hb x (by simp [hx])) (by omega) ha hl hr fun w' hw => ?_
  refine run_last (by rw [hw]) (move_baseAdd_last hv (by rw [hw]; show ¬ 1 + j < s.baseN.toNat; omega) _ _) hlast ?_
  have hnan : ∀ m, w'.nan m = s.nan (5 * j + m) := by
    intro m
    rw [hw, State.nan, State.nan]
    show nan64 (s.draws + 5 * bs'.length + m) = _
    rw [takeSamples_length ht', Nat.add_assoc]
  have hovf : ((bs' ++ [b]).any fun x => (readingOf s.dig x).ovf) = ((bs'.any fun x => (readingOf s.dig x).ovf) || r.ovf) := by
    rw [List.any_append, List.any_cons, List.any_nil, Bool.or_false, hr]
  rw [sumsOf_concat, takeSamples_length ht', hr, hovf, hburst, ← Bool.or_assoc]
  simp only [complete, usedNaNs, commitBase, baselinePressure, baselineKelvin, hnan]
  rw [hw]
  simp only [recordTx, withSamples, takeSamples_length ht', noteOvf, zext, hs]
  rfl

end

/-! ### BASELINE and INIT (R173, R205) -/

/-- The block once BASELINE is accepted. -/
def baselineStarted (s : State) : State :=
  { s with
    cmd := 0x00000006
    status := { s.status with done := false, err := .ok }
    phase := .running ⟨.baseline, 0, .baseEnter⟩ }

/-- Settles O54, by the runs of stage BASE. -/
theorem baselineAveragesTheSamples : Obligations.BaselineAveragesTheSamples := by
  intro s hp
  refine ⟨fun hN => exec_verdict hp (by simp [verdict, hN]), fun hN hc => exec_verdict hp (by simp_all [verdict]),
    fun hN hc => ?_⟩
  have hN' : s.baseN.toNat ≠ 0 := fun h0 => hN (BitVec.eq_of_toNat_eq h0)
  have start := exec_started (i := .baseline) hp (by simp_all [verdict]) rfl
  rw [hp]
  refine ⟨start, fun bs u ht hb k hk => ⟨s.nan, meanDraw s.baseN.toNat, s.draws + 5 * s.baseN.toNat, nan_isNaN s, ?commit⟩,
    fun j bs u hj ht hb => ⟨fun a hn ha k hk => ⟨s.draws + 5 * bs.length, ?failed⟩,
      fun b hn hl hv k hk => ⟨s.draws + 5 * bs.length, ?sentinel⟩⟩⟩
  case commit => exact perform_of_run start hk fun _ => run_base_commit (v := s) rfl rfl rfl hN' ⟨rfl, rfl, rfl⟩ ht hb
  case failed => exact perform_of_run start hk fun _ =>
    run_base_failed (s := baselineStarted s) (v := s) rfl ⟨rfl, rfl, rfl⟩ ht (by exact hb) (by exact hj) (by exact hn) ha rfl
  case sentinel => exact perform_of_run start hk fun _ =>
    run_base_sentinel (s := baselineStarted s) (v := s) rfl ⟨rfl, rfl, rfl⟩ ht (by exact hb) (by exact hj) (by exact hn) hl (by exact hv) rfl

/-- Settles O58: stages CFG and CAL, five moves to the entry of BASE, and the run of BASE. -/
theorem initConfiguresLoadsAndAverages : Obligations.InitConfiguresLoadsAndAverages := by
  intro s hp w1 w2 rd
  refine ⟨fun hc => exec_verdict hp (by simp [verdict, hc]), fun hc hN => exec_verdict hp (by simp [verdict, hc, hN]),
    fun hc hN => ?_⟩
  have hN' : s.baseN.toNat ≠ 0 := fun h0 => hN (BitVec.eq_of_toNat_eq h0)
  have start := exec_started (i := .init) hp (by simp_all [verdict]) rfl
  rw [hp]
  refine ⟨start, ?commit, ?failed⟩
  case commit =>
    intro x1 x2 cal bs u h1 h2 s2 h3 hl ht hb k hk
    refine ⟨s.nan, meanDraw s.baseN.toNat, s.draws + 5 * s.baseN.toNat, nan_isNaN s, perform_of_run start hk fun j => ?_⟩
    rw [show j + (6 + 4 * s.baseN.toNat) = j + (1 + 4 * s.baseN.toNat) + 1 + 1 + 1 + 1 + 1 by omega]
    refine run_goto rfl (move_cfgFirst (by exact h1)) (run_goto rfl (move_cfgSecond (by exact h2)) ?_)
    refine run_commit rfl rfl rfl (run_goto rfl (move_calRead (by exact h3) hl) (run_commit rfl rfl rfl ?_))
    exact run_base_commit (v := recordTx rd (.data cal) s2) rfl rfl rfl hN' ⟨rfl, rfl, rfl⟩ ht hb
  case failed =>
    intro x1 x2 a h1 h2 s2 h3 ha k hk
    refine perform_of_run start hk fun j => ?_
    refine run_goto rfl (move_cfgFirst (by exact h1)) (run_goto rfl (move_cfgSecond (by exact h2)) ?_)
    refine run_commit rfl rfl rfl (run_raise rfl (move_calRead_failed (by exact h3) ha) ?_)
    simp only [complete, commitCfg, recordTx, List.append_assoc, List.cons_append, List.nil_append]
    rfl

end Sys2Proof.Machine

/-! The integer pipeline (R9, R133, R138): its wraps, shift and division as integer functions, what cannot wrap, and the
formula a run gives that wraps nowhere. -/

namespace Sys2Proof.Machine

/-! ### Wraps, shift and division (R9) -/

theorem eq_w32_val_iff (e v : Int) : -2 ^ 31 ≤ v ∧ v < 2 ^ 31 ∧ (2 ^ 32 : Int) ∣ e - v ↔ v = (w32 e).val := by
  simp only [w32, wrap32_eq]
  omega

theorem eq_w64_val_iff (e v : Int) : -2 ^ 63 ≤ v ∧ v < 2 ^ 63 ∧ (2 ^ 64 : Int) ∣ e - v ↔ v = (w64 e).val := by
  simp only [w64, wrap64_eq]
  omega

theorem asr_eq_floor (v : Int) (k : Nat) : asr v k = ⌊(v : ℚ) / 2 ^ k⌋ := by
  have h := Rat.floor_intCast_div_natCast v (2 ^ k)
  push_cast at h
  rw [h, asr_eq_div]

/-- The exact quotient is the truncated one and a fraction of its sign. -/
theorem div_eq_truncDiv_add (a : Int) {b : Int} (hb : b ≠ 0) :
    ∃ x : ℚ, (a : ℚ) / b = truncDiv a b + x ∧ |x| < 1 ∧ (0 ≤ (a : ℚ) / b → 0 ≤ x) ∧ ((a : ℚ) / b ≤ 0 → x ≤ 0) := by
  obtain ⟨r, ha, hlt, hpos, hneg⟩ := truncDiv_remainder a hb
  have hb' : (b : ℚ) ≠ 0 := Int.cast_ne_zero.mpr hb
  have hpos' : 0 ≤ (a : ℚ) → 0 ≤ (r : ℚ) := by exact_mod_cast hpos
  have hneg' : (a : ℚ) ≤ 0 → (r : ℚ) ≤ 0 := by exact_mod_cast hneg
  refine ⟨r / b, ?_, ?_, ?_, ?_⟩
  · rw [eq_comm, ← mul_div_cancel_right₀ (truncDiv a b : ℚ) hb', ← add_div]
    exact_mod_cast congrArg (fun x : Int => (x : ℚ) / b) ha.symm
  · rw [abs_div, div_lt_one (abs_pos.mpr hb')]
    exact_mod_cast hlt
  · rw [div_nonneg_iff, div_nonneg_iff]
    rintro (⟨h, hb⟩ | ⟨h, hb⟩)
    · exact .inl ⟨hpos' h, hb⟩
    · exact .inr ⟨hneg' h, hb⟩
  · rw [div_nonpos_iff, div_nonpos_iff]
    rintro (⟨h, hb⟩ | ⟨h, hb⟩)
    · exact .inl ⟨hpos' h, hb⟩
    · exact .inr ⟨hneg' h, hb⟩

/-- Settles O37. -/
theorem wrapShiftAndDivision : Obligations.WrapShiftAndDivision := by
  refine ⟨fun e v => ⟨eq_w32_val_iff e v, ?_⟩, fun e v => ⟨eq_w64_val_iff e v, ?_⟩, asr_eq_floor, fun a b hb => ?_⟩
  · exact bne_iff_ne
  · exact bne_iff_ne
  · obtain ⟨x, hx, hlt, hpos, hneg⟩ := div_eq_truncDiv_add a hb
    obtain ⟨h1, h2⟩ := abs_lt.mp hlt
    refine ⟨fun h => (Int.floor_eq_iff.mpr ⟨?_, ?_⟩).symm, fun h => (Int.ceil_eq_iff.mpr ⟨?_, ?_⟩).symm⟩
    · linarith [hpos h]
    · linarith
    · linarith
    · linarith [hneg h]

/-! ### What cannot wrap on the pressure path (R140) -/

/-- Slopes that, on the greatest sample, take `v1` past the least value for which P6 wraps with the greatest DIG_P1; and
the least DIG_P4, whose `v2` lets P9 wrap on the least sample. -/
def wrappingCalibration : Calibration :=
  { t1 := 0, t2 := 3000, t3 := 0, p1 := 0xFFFF, p2 := 0x7FFF, p3 := 0, p4 := 0x8000, p5 := 0, p6 := 0, p7 := 0, p8 := 0,
    p9 := 0 }

/-- Settles O40, step by step; P6 and P9 wrap on one calibration. -/
theorem pressurePathRanges : Obligations.PressurePathRanges := by
  refine ⟨fun c rawT rawP => ?_, ⟨wrappingCalibration, 0xFFFFF, by decide⟩, ⟨wrappingCalibration, 0xFFFFF, 0, by decide⟩⟩
  obtain ⟨f, hf0, hf1, hfine, -⟩ := tempPathOf_fine c rawT
  rw [hfine]
  obtain ⟨v2, a5, -, -, hv2le, -, hv1, ha2, ha3, hv2, ha5, -⟩ := pressFrontOf_front c hf0 hf1
  obtain ⟨hrp0, hrp1⟩ := zext_range rawP
  have hp8 : ∀ g, (pressBackOf c rawP g).p8 = ⟨1048576 - zext rawP, false⟩ := fun g => stepP8_eq hrp0 hrp1
  have hnum : (pressBackOf c rawP (pressFrontOf c f)).num = stepP9 (1048576 - zext rawP) v2 := by
    rw [show (1048576 - zext rawP) = (pressBackOf c rawP (pressFrontOf c f)).p8.val by rw [hp8],
      show v2 = (pressFrontOf c f).v2.val by rw [hv2]]
    rfl
  obtain ⟨hn0, hn1⟩ := stepP9_range (p := 1048576 - zext rawP) (by omega) (by omega) hv2le
  have hquot : (pressBackOf c rawP (pressFrontOf c f)).quot.ovf = false := by
    show (stepP10 (pressBackOf c rawP (pressFrontOf c f)).num.val _).ovf = false
    rw [hnum, stepP10_eq hn0 hn1]
  intro g b
  rw [hv1, hv2, ha5, hp8, hnum]
  refine ⟨rfl, ?_, ?_, ha2, ha3, rfl, ?_, rfl, rfl, ?_, ?_, fun _ => ⟨?_, hquot⟩⟩
  · show _ ≤ f - 128000
    omega
  · show f - 128000 ≤ _
    omega
  · exact hv2le.trans_lt (by norm_num)
  · show 1 ≤ 1048576 - zext rawP
    omega
  · show 1048576 - zext rawP ≤ _
    omega
  · omega

/-! ### A run that wraps nowhere (R24, R133, R138) -/

section
variable {a b c d : Int}

theorem stepT2_exact (h : (stepT2 a b).ovf = false) : (stepT2 a b).val = a * b / 2 ^ 11 := by
  rw [stepT2, asr_eq_div, w32_exact h]

theorem stepT4_exact (h : (stepT4 a).ovf = false) : (stepT4 a).val = a ^ 2 / 2 ^ 12 := by
  rw [stepT4, asr_eq_div, w32_exact h, sq]

theorem stepT5_exact (h : (stepT5 a b).ovf = false) : (stepT5 a b).val = a * b / 2 ^ 14 := by
  rw [stepT5, asr_eq_div, w32_exact h]

theorem stepP6_exact (ha : |a| ≤ 394388000000000) (h : (stepP6 a b).ovf = false) :
    (stepP6 a b).val = (2 ^ 47 + a) * b / 2 ^ 33 := by
  rw [stepP6_eq ha] at h ⊢
  rw [w64_exact h]

theorem stepP9_exact (h : (stepP9 a b).ovf = false) : (stepP9 a b).val = (a * 2 ^ 31 - b) * 3125 := by
  simp only [stepP9, Bool.or_eq_false_iff] at h ⊢
  obtain ⟨⟨h1, h2⟩, h3⟩ := h
  rw [w64_exact h3, w64_exact h2, w64_exact h1]

theorem stepP10_exact (h : (stepP10 a b).ovf = false) : (stepP10 a b).val = Int.tdiv a b := w64_exact h

theorem stepP11_exact (h : (stepP11 a b).ovf = false) : (stepP11 a b).val = a * (b / 2 ^ 13) * (b / 2 ^ 13) / 2 ^ 25 := by
  simp only [stepP11, Bool.or_eq_false_iff, asr_eq_div] at h ⊢
  obtain ⟨h1, h2⟩ := h
  rw [w64_exact h2, w64_exact h1]

theorem stepP12_exact (h : (stepP12 a b).ovf = false) : (stepP12 a b).val = a * b / 2 ^ 19 := by
  rw [stepP12, asr_eq_div, w64_exact h]

theorem stepP13_exact (h : (stepP13 a b c d).ovf = false) : (stepP13 a b c d).val = (a + b + c) / 2 ^ 8 + d * 2 ^ 4 := by
  simp only [stepP13, Bool.or_eq_false_iff, asr_eq_div] at h ⊢
  obtain ⟨⟨⟨h1, h2⟩, h3⟩, h4⟩ := h
  rw [w64_exact h4, w64_exact h3, w64_exact h2, w64_exact h1]

end

theorem tempPathOf_exact {c : Calibration} {rawT : BitVec 20} (h : tempOvf (tempPathOf c rawT) = false) :
    (tempPathOf c rawT).tFine.val = exactTFine (zext rawT) (zext c.t1) (sext c.t2) (sext c.t3) := by
  simp only [tempOvf, Bool.or_eq_false_iff] at h
  obtain ⟨⟨⟨⟨⟨⟨-, hvar1⟩, -⟩, hs⟩, hvar2⟩, hfine⟩, -⟩ := h
  have evar1 : (tempPathOf c rawT).var1.val = (tempPathOf c rawT).a1.val * sext c.t2 / 2 ^ 11 := stepT2_exact hvar1
  have es : (tempPathOf c rawT).s.val = (tempPathOf c rawT).d.val ^ 2 / 2 ^ 12 := stepT4_exact hs
  have evar2 : (tempPathOf c rawT).var2.val = (tempPathOf c rawT).s.val * sext c.t3 / 2 ^ 14 := stepT5_exact hvar2
  have efine : (tempPathOf c rawT).tFine.val = (tempPathOf c rawT).var1.val + (tempPathOf c rawT).var2.val :=
    w32_exact hfine
  rw [efine, evar2, es, evar1, tempPathOf_a1, tempPathOf_d]
  rfl

theorem pressFrontOf_exact {c : Calibration} {f : Int} (h1 : -1179648 ≤ f) (h2 : f ≤ 1179646)
    (h : frontOvf (pressFrontOf c f) = false) :
    (pressFrontOf c f).v2.val = exactV2 f (sext c.p4) (sext c.p5) (sext c.p6) ∧
    (pressFrontOf c f).divisor.val = exactDivisor f (zext c.p1) (sext c.p2) (sext c.p3) := by
  simp only [frontOvf, Bool.or_eq_false_iff] at h
  obtain ⟨v2, a5, e2, e5, -, hle, -, -, -, hv2, -, hd⟩ := pressFrontOf_front c h1 h2
  have hdivisor := h.2
  rw [hd] at hdivisor
  rw [hv2, hd, stepP6_exact hle hdivisor, e2, e5, exactV2, exactDivisor, sq]
  exact ⟨rfl, rfl⟩

theorem pressBackOf_exact {c : Calibration} {rawP : BitVec 20} {g : PressFront}
    (h : backOvf (pressBackOf c rawP g) = false) :
    (pressBackOf c rawP g).p.val =
      exactPressure (zext rawP) g.v2.val g.divisor.val (sext c.p7) (sext c.p8) (sext c.p9) := by
  simp only [backOvf, Bool.or_eq_false_iff] at h
  obtain ⟨⟨⟨⟨⟨h8, hnum⟩, hquot⟩, hv1⟩, hv2⟩, hp⟩ := h
  have e8 : (pressBackOf c rawP g).p8.val = 1048576 - zext rawP := w64_exact h8
  have enum : (pressBackOf c rawP g).num.val = ((pressBackOf c rawP g).p8.val * 2 ^ 31 - g.v2.val) * 3125 :=
    stepP9_exact hnum
  have equot : (pressBackOf c rawP g).quot.val = Int.tdiv (pressBackOf c rawP g).num.val g.divisor.val :=
    stepP10_exact hquot
  rw [enum, e8] at equot
  have ep : (pressBackOf c rawP g).p.val = ((pressBackOf c rawP g).quot.val + (pressBackOf c rawP g).v1.val +
      (pressBackOf c rawP g).v2.val) / 2 ^ 8 + sext c.p7 * 2 ^ 4 := stepP13_exact hp
  have ev1 : (pressBackOf c rawP g).v1.val = sext c.p9 * ((pressBackOf c rawP g).quot.val / 2 ^ 13) *
      ((pressBackOf c rawP g).quot.val / 2 ^ 13) / 2 ^ 25 := stepP11_exact hv1
  have ev2 : (pressBackOf c rawP g).v2.val = sext c.p8 * (pressBackOf c rawP g).quot.val / 2 ^ 19 := stepP12_exact hv2
  rw [exactPressure, ← equot, exactFinish, ep, ev1, ev2]

/-- A run sets OVF when one of its paths wraps. -/
theorem comp_ovf (rawT rawP : BitVec 20) (c : Calibration) (h : (comp rawT rawP c).ovf = false) :
    tempOvf (tempPathOf c rawT) = false ∧ frontOvf (pressFrontOf c (tempPathOf c rawT).tFine.val) = false ∧
    ((comp rawT rawP c).pinv = false →
      backOvf (pressBackOf c rawP (pressFrontOf c (tempPathOf c rawT).tFine.val)) = false) := by
  obtain ⟨-, e⟩ | ⟨-, e⟩ := comp_cases rawT rawP c <;> rw [e] at h ⊢ <;>
    simp only [sentinelResult, pressureResult, Bool.or_eq_false_iff] at h
  · exact ⟨h.1, h.2, nofun⟩
  · exact ⟨h.1.1, h.1.2, fun _ => h.2⟩

/-- Settles O44, path by path. -/
theorem noOverflowMeansTheExactFormula : Obligations.NoOverflowMeansTheExactFormula := by
  intro rawT rawP c
  obtain ⟨f, hf0, hf1, hpath, -, hfine, -⟩ := comp_fine rawT rawP c
  have hpinv := comp_pinv rawT rawP c
  have hpressure := comp_pressure rawT rawP c
  have hpaths := comp_ovf rawT rawP c
  simp only [hpath] at hpinv hpressure hpaths
  dsimp only
  intro hovf
  obtain ⟨htemp, hfront, hback⟩ := hpaths hovf
  have htf : f = exactTFine (zext rawT) (zext c.t1) (sext c.t2) (sext c.t3) := by
    rw [← tempPathOf_exact htemp, hpath]
  obtain ⟨ev2, ev1⟩ := pressFrontOf_exact hf0 hf1 hfront
  rw [← htf]
  refine ⟨hfine, by rw [hpinv, ev1], fun hv => ?_⟩
  obtain ⟨hi, -⟩ | ⟨-, hp, -⟩ := hpressure
  · exact absurd (hi.symm.trans hv) (by decide)
  · rw [hp, pressBackOf_exact (hback hv), ev2, ev1]

end Sys2Proof.Machine

/-! The binary64 operations on every kind of operand (R9, D32, G6): what each answers on finite operands as a rounded exact
result, and the special results. -/

namespace Sys2Proof.Machine

/-! ### Zeros and infinities -/

@[simp] theorem fval_fzero (s : Bool) : fval (fzero s) = 0 := (fval_eq_zero_iff (unpack_fzero s)).mpr rfl

@[simp] theorem fsignBit_fzero : ∀ s, fsignBit (fzero s) = s := by decide

theorem fround_zero (s : Bool) (d : Nat) : fround s 0 d = fzero s := if_pos rfl

theorem rounds_fzero (s : Bool) : Rounds (fzero s) 0 := by
  simpa [fround_zero, exactValue] using fround_rounds s 0 (d := 1) one_pos

/-- The two zeros are the finite patterns of value 0, and their signs tell them apart. -/
theorem eq_fzero_iff {x : F64} (hf : fisFinite x = true) (s : Bool) : x = fzero s ↔ fval x = 0 ∧ fsignBit x = s := by
  constructor
  · rintro rfl
    exact ⟨fval_fzero s, fsignBit_fzero s⟩
  · rintro ⟨h, rfl⟩
    exact eq_fzero_of_fval hf h

theorem fsignBit_of_pos {x : F64} (hf : fisFinite x = true) (h : 0 < fval x) : fsignBit x = false := by
  rw [Bool.eq_false_iff]
  exact fun hs => (fval_nonpos hf hs).not_gt h

theorem fsignBit_of_neg {x : F64} (hf : fisFinite x = true) (h : fval x < 0) : fsignBit x = true := by
  rw [← Bool.not_eq_false]
  exact fun hs => (fval_nonneg hf hs).not_gt h

theorem fnegate_eq_fzero_iff (x : F64) (s : Bool) : fnegate x = fzero s ↔ x = fzero (!s) := by
  rw [← fnegate_fzero]
  exact ⟨fun h => by rw [← h, fnegate_fnegate], fun h => by rw [h, fnegate_fnegate]⟩

theorem unpack_fnegate_fin {x : F64} {s : Bool} {m : Nat} {e : Int} (h : unpack x = .fin s m e) :
    unpack (fnegate x) = .fin (!s) m e := by
  rw [unpack_fnegate, h]

/-! ### Sums -/

section
variable {nan a b : F64}

/-- A sum of finite operands: the exact sum is an integer in units of a power of two, and that is rounded; an exact zero
sum is negative only when both operands are. -/
theorem fadd_of_finite (nan : F64) (ha : fisFinite a = true) (hb : fisFinite b = true) :
    ∃ z base : Int, fval a + fval b = z * (2 : ℚ) ^ base ∧ fadd nan a b =
      if z = 0 then fzero (fsignBit a && fsignBit b)
      else fround (decide (z < 0)) (dyadicNum z.natAbs base) (dyadicDen base) := by
  obtain ⟨m, e, hu, -⟩ := unpack_finite ha
  obtain ⟨n, f, hv, -⟩ := unpack_finite hb
  refine ⟨scaledInt (fsignBit a) m e (min e f) + scaledInt (fsignBit b) n f (min e f), min e f, ?_, ?_⟩
  · push_cast
    rw [add_mul, scaledInt_value _ _ (min_le_left e f), scaledInt_value _ _ (min_le_right e f), fval_of_unpack hu,
      fval_of_unpack hv]
  · simp only [fadd, hu, hv]

theorem fadd_rounds (nan : F64) (ha : fisFinite a = true) (hb : fisFinite b = true) :
    Rounds (fadd nan a b) (fval a + fval b) := by
  obtain ⟨z, base, hv, h⟩ := fadd_of_finite nan ha hb
  rw [hv, h]
  split
  case isTrue hz =>
    rw [hz, Int.cast_zero, zero_mul]
    exact rounds_fzero _
  case isFalse =>
    rw [← exactValue_dyadic]
    exact fround_rounds (decide (z < 0)) (dyadicNum z.natAbs base) (dyadicDen_pos base)

/-- Two finite numbers that are not positive and add to 0 are the negative zeros. -/
theorem fadd_of_sum_zero (nan : F64) (ha : fisFinite a = true) (hb : fisFinite b = true) (h : fval a + fval b = 0) :
    fadd nan a b = if a = fzero true ∧ b = fzero true then fzero true else fzero false := by
  obtain ⟨z, base, hv, he⟩ := fadd_of_finite nan ha hb
  have hz : z = 0 := by
    rw [hv, mul_eq_zero] at h
    exact_mod_cast h.resolve_right (unit_pos base).ne'
  rw [he, if_pos hz]
  split
  case isTrue hab => rw [hab.1, hab.2, fsignBit_fzero, Bool.and_self]
  case isFalse hab =>
    congr 1
    rw [Bool.and_eq_false_iff, ← Bool.not_eq_true, ← Bool.not_eq_true, ← not_and_or]
    rintro ⟨hsa, hsb⟩
    have hva := fval_nonpos ha hsa
    have hvb := fval_nonpos hb hsb
    exact hab ⟨(eq_fzero_iff ha true).mpr ⟨by linarith, hsa⟩, (eq_fzero_iff hb true).mpr ⟨by linarith, hsb⟩⟩

theorem fsub_of_finite (nan : F64) (ha : fisFinite a = true) (hb : fisFinite b = true) :
    fsub nan a b = fadd nan a (fnegate b) := fsub_eq nan (fisNaN_of_finite ha) (fisNaN_of_finite hb)

theorem fsub_rounds (nan : F64) (ha : fisFinite a = true) (hb : fisFinite b = true) :
    Rounds (fsub nan a b) (fval a - fval b) := by
  rw [fsub_of_finite nan ha hb, sub_eq_add_neg, ← fval_fnegate]
  exact fadd_rounds nan ha (by rwa [fisFinite_fnegate])

theorem fsub_of_difference_zero (nan : F64) (ha : fisFinite a = true) (hb : fisFinite b = true) (h : fval a - fval b = 0) :
    fsub nan a b = if a = fzero true ∧ b = fzero false then fzero true else fzero false := by
  rw [fsub_of_finite nan ha hb, fadd_of_sum_zero nan ha (by rwa [fisFinite_fnegate]) (by rw [fval_fnegate]; linarith)]
  simp only [fnegate_eq_fzero_iff, Bool.not_true]

/-! ### Products and quotients -/

/-- The sign of a product or quotient. -/
theorem sign_mul_sign (s t : Bool) : (if (s != t) = true then (-1 : ℚ) else 1) = (if s then -1 else 1) * (if t then -1 else 1) := by
  cases s <;> cases t <;> norm_num

theorem fmul_rounds (nan : F64) (ha : fisFinite a = true) (hb : fisFinite b = true) :
    Rounds (fmul nan a b) (fval a * fval b) := by
  obtain ⟨m, e, hu, -⟩ := unpack_finite ha
  obtain ⟨n, f, hv, -⟩ := unpack_finite hb
  have hval : exactValue (fsignBit a != fsignBit b) (dyadicNum (m * n) (e + f)) (dyadicDen (e + f)) = fval a * fval b := by
    rw [exactValue, dyadic_value, fval_of_unpack hu, fval_of_unpack hv, sign_mul_sign, zpow_add₀ (by norm_num)]
    push_cast
    ring
  rw [fmul_of_fin nan hu hv, ← hval]
  exact fround_rounds _ _ (dyadicDen_pos _)

theorem fsignBit_fmul (nan : F64) (ha : fisFinite a = true) (hb : fisFinite b = true) :
    fsignBit (fmul nan a b) = (fsignBit a != fsignBit b) := by
  obtain ⟨m, e, hu, -⟩ := unpack_finite ha
  obtain ⟨n, f, hv, -⟩ := unpack_finite hb
  rw [fmul_of_fin nan hu hv, fsignBit_fround]

/-- A quotient of finite operands by a divisor other than 0 is the exact quotient, rounded. -/
theorem fdiv_of_finite (ha : fisFinite a = true) (hb : fisFinite b = true) (h : fval b ≠ 0) :
    ∃ n d : Nat, 0 < d ∧ exactValue (fsignBit a != fsignBit b) n d = fval a / fval b ∧
      ∀ nan, fdiv nan a b = fround (fsignBit a != fsignBit b) n d := by
  obtain ⟨m, e, hu, -⟩ := unpack_finite ha
  obtain ⟨n, f, hv, -⟩ := unpack_finite hb
  have hn : n ≠ 0 := fun h0 => h ((fval_eq_zero_iff hv).mpr h0)
  have hn' : (n : ℚ) ≠ 0 := Nat.cast_ne_zero.mpr hn
  have hf := (unit_pos f).ne'
  refine ⟨_, _, Nat.mul_pos (Nat.pos_of_ne_zero hn) (dyadicDen_pos (e - f)), ?_, fun nan => fdiv_of_fin nan hu hv hn⟩
  rw [exactValue, Nat.cast_mul, mul_comm (n : ℚ), ← div_div, dyadic_value, fval_of_unpack hu, fval_of_unpack hv,
    sign_mul_sign, zpow_sub₀ (by norm_num)]
  cases fsignBit a <;> cases fsignBit b <;> simp <;> field_simp

theorem fdiv_rounds (nan : F64) (ha : fisFinite a = true) (hb : fisFinite b = true) (h : fval b ≠ 0) :
    Rounds (fdiv nan a b) (fval a / fval b) := by
  obtain ⟨n, d, hd, hval, hr⟩ := fdiv_of_finite ha hb h
  rw [hr, ← hval]
  exact fround_rounds _ _ hd

theorem fsignBit_fdiv (nan : F64) (ha : fisFinite a = true) (hb : fisFinite b = true) (h : fval b ≠ 0) :
    fsignBit (fdiv nan a b) = (fsignBit a != fsignBit b) := by
  obtain ⟨n, d, -, -, hr⟩ := fdiv_of_finite ha hb h
  rw [hr, fsignBit_fround]

theorem fdiv_by_zero (nan : F64) (ha : fisFinite a = true) (hb : fisFinite b = true) (h : fval b = 0) :
    fdiv nan a b = if fval a = 0 then nan else finf (fsignBit a != fsignBit b) := by
  obtain ⟨m, e, hu, -⟩ := unpack_finite ha
  obtain ⟨n, f, hv, -⟩ := unpack_finite hb
  have hn : n = 0 := (fval_eq_zero_iff hv).mp h
  simp only [fdiv, hu, hv, if_pos hn, fval_eq_zero_iff hu]

/-! ### Infinities -/

/-- Two infinities. -/
theorem ops_of_inf_inf (nan : F64) {s t : Bool} (ha : unpack a = .inf s) (hb : unpack b = .inf t) :
    fadd nan a b = (if s = t then finf s else nan) ∧ fmul nan a b = finf (s != t) ∧ fdiv nan a b = nan :=
  ⟨by simp only [fadd, ha, hb], by simp only [fmul, ha, hb], by simp only [fdiv, ha, hb]⟩

/-- An infinity and a finite operand. -/
theorem ops_of_inf_finite (nan : F64) {s t : Bool} {n : Nat} {f : Int} (ha : unpack a = .inf s)
    (hb : unpack b = .fin t n f) :
    fadd nan a b = finf s ∧ fmul nan a b = (if n = 0 then nan else finf (s != t)) ∧ fdiv nan a b = finf (s != t) :=
  ⟨by simp only [fadd, ha, hb], by simp only [fmul, ha, hb], by simp only [fdiv, ha, hb]⟩

/-- A finite operand and an infinity. -/
theorem ops_of_finite_inf (nan : F64) {s t : Bool} {m : Nat} {e : Int} (ha : unpack a = .fin s m e)
    (hb : unpack b = .inf t) :
    fadd nan a b = finf t ∧ fmul nan a b = (if m = 0 then nan else finf (s != t)) ∧ fdiv nan a b = fzero (s != t) :=
  ⟨by simp only [fadd, ha, hb], by simp only [fmul, ha, hb], by simp only [fdiv, ha, hb]⟩

/-- A NaN operand: the propagated NaN, which no draw changes (R208). -/
theorem ops_of_nan (nan : F64) (h : fisNaN a = true ∨ fisNaN b = true) : ∀ op ∈ [fadd, fsub, fmul, fdiv],
    fisNaN (op nan a b) = true ∧ ∀ nan', op nan' a b = op nan a b := by
  simp only [List.forall_mem_cons, fadd_of_nan _ h, fsub_of_nan _ h, fmul_of_nan _ h, fdiv_of_nan _ h,
    fisNaN_propagateNaN, implies_true, and_true, List.not_mem_nil, false_imp_iff]

end

/-- Settles O45, operation by operation and kind of operand by kind. -/
theorem floatOperationsFollowTheStandard : Obligations.FloatOperationsFollowTheStandard := by
  refine fun nan a b => ⟨fun ha hb => ?_, ?_, ?_, ?_, ops_of_nan nan⟩
  · exact ⟨fadd_rounds nan ha hb, fsub_rounds nan ha hb, fmul_rounds nan ha hb, fdiv_rounds nan ha hb,
      fadd_of_sum_zero nan ha hb, fsub_of_difference_zero nan ha hb, fsignBit_fmul nan ha hb, fsignBit_fdiv nan ha hb,
      fdiv_by_zero nan ha hb⟩
  · rintro s t rfl rfl
    obtain ⟨hadd, hmul, hdiv⟩ := ops_of_inf_inf nan (unpack_finf s) (unpack_finf t)
    refine ⟨hadd, ?_, hmul, hdiv⟩
    rw [fsub_eq nan (fisNaN_finf s) (fisNaN_finf t), fnegate_finf, (ops_of_inf_inf nan (unpack_finf s) (unpack_finf !t)).1]
    cases s <;> cases t <;> rfl
  · rintro s rfl hb
    obtain ⟨n, f, hv, -⟩ := unpack_finite hb
    obtain ⟨hadd, hmul, hdiv⟩ := ops_of_inf_finite nan (unpack_finf s) hv
    refine ⟨hadd, ?_, ?_, hdiv⟩
    · rw [fsub_eq nan (fisNaN_finf s) (fisNaN_of_finite hb)]
      exact (ops_of_inf_finite nan (unpack_finf s) (unpack_fnegate_fin hv)).1
    · simp only [hmul, fval_eq_zero_iff hv]
  · rintro t ha rfl
    obtain ⟨m, e, hu, -⟩ := unpack_finite ha
    obtain ⟨hadd, hmul, hdiv⟩ := ops_of_finite_inf nan hu (unpack_finf t)
    refine ⟨hadd, ?_, ?_, hdiv⟩
    · rw [fsub_eq nan (fisNaN_of_finite ha) (fisNaN_finf t), fnegate_finf]
      exact (ops_of_finite_inf nan hu (unpack_finf !t)).1
    · simp only [hmul, fval_eq_zero_iff hu]

end Sys2Proof.Machine

/-! The float stage (R147) and the power function (R171, D34): rounding keeps bounds that are themselves binary64 numbers,
and so the signs and zeros of the quotients of the float stage. -/

namespace Sys2Proof.Machine

/-! ### Rounding keeps bounds -/

/-- A finite number at most the exact value is at most its rounding. -/
theorem le_of_nearest {z y : F64} {v : ℚ} (h : Nearest z v) (hy : fisFinite y = true) (hle : fval y ≤ v) :
    fval y ≤ fval z := by
  by_contra hlt
  have hn := h.2 y hy
  rw [abs_of_nonpos (by linarith), abs_of_nonpos (by linarith)] at hn
  linarith

/-- A finite number at least the exact value is at least its rounding. -/
theorem ge_of_nearest {z y : F64} {v : ℚ} (h : Nearest z v) (hy : fisFinite y = true) (hle : v ≤ fval y) :
    fval z ≤ fval y := by
  by_contra hlt
  have hn := h.2 y hy
  rw [abs_of_nonneg (by linarith), abs_of_nonneg (by linarith)] at hn
  linarith

/-- An exact value that is a binary64 number is its own rounding. -/
theorem eq_of_nearest {z y : F64} {v : ℚ} (h : Nearest z v) (hy : fisFinite y = true) (hv : fval y = v) : fval z = v := by
  rw [← hv]
  exact le_antisymm (ge_of_nearest h hy hv.ge) (le_of_nearest h hy hv.le)

theorem lt_overflowBound_of_le {v : ℚ} (h : |v| ≤ 2 ^ 64) : |v| < overflowBound := by
  have h64 : (2 : ℚ) ^ 64 ≤ 2 ^ (1023 : Int) := by
    rw [← zpow_natCast]
    exact zpow_le_zpow_right₀ (by norm_num) (by norm_num)
  exact (h.trans h64).trans_lt lt_overflowBound

/-! ### The literals as numbers -/

theorem fval_one : fval Config.one = 1 := by
  rw [fval_of_unpack (show unpack Config.one = .fin false (2 ^ 52) (-52) by decide)]
  norm_num

theorem fval_hundred : fval Config.hundred = 100 := by
  rw [fval_of_unpack (show unpack Config.hundred = .fin false 0x19000000000000 (-46) by decide)]
  norm_num

theorem fval_pressScale : fval Config.pressScale = 25600 := by
  rw [fval_of_unpack (show unpack Config.pressScale = .fin false 0x19000000000000 (-38) by decide)]
  norm_num

/-- 2^-20, below every non-zero quotient of the float stage. -/
def smallF64 : F64 := 0x3EB0000000000000

theorem fisFinite_smallF64 : fisFinite smallF64 = true := by decide

theorem fval_smallF64 : fval smallF64 = 1 / 2 ^ 20 := by
  rw [fval_of_unpack (show unpack smallF64 = .fin false (2 ^ 52) (-72) by decide)]
  norm_num

/-! ### Integers as floats -/

theorem rounds_fofInt (i : Int) : Rounds (fofInt i) i := by
  have hval : exactValue (decide (i < 0)) i.natAbs 1 = i := by
    simpa [dyadicNum, dyadicDen] using exactValue_dyadic i 0
  rw [← hval]
  exact fround_rounds (decide (i < 0)) i.natAbs one_pos

theorem nearest_fofInt {i : Int} (h : |i| ≤ 2 ^ 63) : Nearest (fofInt i) i ∧ TiesEven (fofInt i) i := by
  have h' : |(i : ℚ)| ≤ 2 ^ 63 := by exact_mod_cast h
  exact (rounds_fofInt i).1 (lt_overflowBound_of_le (h'.trans (by norm_num)))

/-- An integer of at most 53 bits is a binary64 number: shifted until its top bit is bit 52. -/
theorem exists_fval_eq {i : Int} (h : |i| < 2 ^ 53) : ∃ y, fisFinite y = true ∧ fval y = i := by
  obtain ⟨n, hn⟩ : ∃ n, i.natAbs = n := ⟨_, rfl⟩
  rcases Nat.eq_zero_or_pos n with rfl | hpos
  · obtain rfl := Int.natAbs_eq_zero.mp hn
    exact ⟨fzero false, by decide, by simp⟩
  · have hlt : n < 2 ^ 53 := by
      rw [Int.abs_eq_natAbs, hn] at h
      exact_mod_cast h
    have hlog : Nat.log2 n ≤ 52 := Nat.lt_succ_iff.mp ((Nat.log2_lt hpos.ne').mpr hlt)
    obtain ⟨k, hk⟩ := Nat.exists_eq_add_of_le hlog
    have hlo := Nat.mul_le_mul_right (2 ^ k) (Nat.log2_self_le hpos.ne')
    have hhi := Nat.mul_lt_mul_of_pos_right (Nat.lt_log2_self (n := n)) (Nat.two_pow_pos k)
    rw [← pow_add, ← hk] at hlo
    rw [← pow_add, show Nat.log2 n + 1 + k = 53 by omega] at hhi
    have hc : Canonical (n * 2 ^ k) (-k) := .inl ⟨hlo, hhi, by omega, by omega⟩
    refine ⟨_, fisFinite_of_unpack (unpack_fpack (decide (i < 0)) hc), ?_⟩
    rw [fval_of_unpack (unpack_fpack _ hc), Nat.cast_mul, Nat.cast_pow, Nat.cast_ofNat, mul_assoc, mul_assoc, ← zpow_natCast,
      ← zpow_add₀ (by norm_num), add_neg_cancel, zpow_zero, mul_one, ← hn]
    rcases lt_or_ge i 0 with hi | hi
    · simp [hi, abs_of_neg]
    · simp [not_lt.mpr hi, abs_of_nonneg hi]

theorem fval_fofInt {i : Int} (h : |i| < 2 ^ 53) : fval (fofInt i) = i := by
  obtain ⟨y, hy, hv⟩ := exists_fval_eq h
  exact eq_of_nearest (nearest_fofInt (h.le.trans (by norm_num))).1 hy hv

/-! ### The quotients of the float stage -/

section
variable {i : Int} {y : F64} (nan : F64) (hi : |i| ≤ 2 ^ 63) (hy : fisFinite y = true) (h1 : 1 ≤ fval y)
include hi hy h1

theorem nearest_fdiv_fofInt : Nearest (fdiv nan (fofInt i) y) (fval (fofInt i) / fval y) ∧
    TiesEven (fdiv nan (fofInt i) y) (fval (fofInt i) / fval y) := by
  obtain ⟨hn, -⟩ := nearest_fofInt hi
  have hi' : |(i : ℚ)| ≤ 2 ^ 63 := by exact_mod_cast hi
  have hz := hn.2 (fzero false) (by decide)
  rw [fval_fzero, zero_sub, abs_neg] at hz
  have htri := abs_sub_abs_le_abs_sub (fval (fofInt i)) i
  refine (fdiv_rounds nan hn.1 hy (by linarith)).1 (lt_overflowBound_of_le ?_)
  rw [abs_div, abs_of_pos (by linarith : 0 < fval y)]
  calc |fval (fofInt i)| / fval y ≤ |fval (fofInt i)| := div_le_self (abs_nonneg _) h1
    _ ≤ 2 ^ 64 := by linarith

theorem fdiv_fofInt_pos (h2 : fval y ≤ 25600) (h : 0 < i) : 0 < fval (fdiv nan (fofInt i) y) := by
  have hint : 1 ≤ fval (fofInt i) := by
    rw [← fval_one]
    exact le_of_nearest (nearest_fofInt hi).1 (by decide) (by rw [fval_one]; exact_mod_cast h)
  have hq := le_of_nearest (nearest_fdiv_fofInt nan hi hy h1).1 fisFinite_smallF64 (by
    rw [fval_smallF64, le_div_iff₀ (by linarith)]
    linarith)
  rw [fval_smallF64] at hq
  linarith

theorem fdiv_fofInt_neg (h2 : fval y ≤ 25600) (h : i < 0) : fval (fdiv nan (fofInt i) y) < 0 := by
  have hint : fval (fofInt i) ≤ -1 := by
    rw [← fval_one, ← fval_fnegate]
    refine ge_of_nearest (nearest_fofInt hi).1 (by decide) ?_
    rw [fval_fnegate, fval_one]
    exact_mod_cast Int.le_sub_one_of_lt h
  have hq := ge_of_nearest (y := fnegate smallF64) (nearest_fdiv_fofInt nan hi hy h1).1 (by decide) (by
    rw [fval_fnegate, fval_smallF64, div_le_iff₀ (by linarith)]
    linarith)
  rw [fval_fnegate, fval_smallF64] at hq
  linarith

/-- The quotient of 0 is +0.0, the sign of 0 and of `y` being clear. -/
theorem fdiv_fofInt_zero (h : i = 0) : fdiv nan (fofInt i) y = fzero false := by
  subst h
  have h0 : fofInt 0 = fzero false := rfl
  have hn := (nearest_fdiv_fofInt nan hi hy h1).1
  have hpos := fsignBit_of_pos hy (by linarith)
  refine (eq_fzero_iff hn.1 false).mpr ⟨?_, ?_⟩
  · have hv : fval (fofInt 0) / fval y = 0 := by rw [h0, fval_fzero, zero_div]
    rw [← hv]
    exact eq_of_nearest hn (y := fzero false) (by decide) (by rw [hv, fval_fzero])
  · rw [fsignBit_fdiv nan (by decide) hy (by linarith), h0, fsignBit_fzero, hpos]
    rfl

/-- The quotient is +0.0 for 0 only, and never -0.0. -/
theorem fdiv_fofInt_zeros (h2 : fval y ≤ 25600) :
    (fdiv nan (fofInt i) y = fzero false ↔ i = 0) ∧ fdiv nan (fofInt i) y ≠ fzero true := by
  obtain h | h | h := lt_trichotomy i 0
  · have hlt := fdiv_fofInt_neg nan hi hy h1 h2 h
    refine ⟨⟨fun e => ?_, fun e => absurd e h.ne⟩, fun e => ?_⟩ <;>
    · rw [e, fval_fzero] at hlt
      exact absurd hlt (lt_irrefl 0)
  · rw [fdiv_fofInt_zero nan hi hy h1 h]
    exact ⟨⟨fun _ => h, fun _ => rfl⟩, by decide⟩
  · have hlt := fdiv_fofInt_pos nan hi hy h1 h2 h
    refine ⟨⟨fun e => ?_, fun e => absurd e h.ne'⟩, fun e => ?_⟩ <;>
    · rw [e, fval_fzero] at hlt
      exact absurd hlt (lt_irrefl 0)

end

/-- T_CENTI of a consistent result (R137) is small enough for its float to be exact. -/
theorem ResultsOk.tCenti_range {r : Results} {pinv : Bool} (h : ResultsOk r pinv) : |sext r.tCenti| ≤ 23040 := by
  obtain ⟨hf0, hf1, htc, -⟩ := h
  rw [htc, asr_eq_div, abs_le]
  omega

theorem abs_sext64_le (v : BitVec 64) : |sext v| ≤ 2 ^ 63 := by
  obtain ⟨h0, h1⟩ := sext64_range v
  rw [abs_le]
  omega

/-- TEMP_C is `t_centi / 100` rounded (R147). -/
theorem floatTemp_rounded {tc : Int} (h : |tc| < 2 ^ 53) :
    Nearest (floatTemp tc) ((tc : ℚ) / 100) ∧ TiesEven (floatTemp tc) ((tc : ℚ) / 100) := by
  rw [← fval_fofInt h, ← fval_hundred]
  exact nearest_fdiv_fofInt _ (h.le.trans (by norm_num)) (by decide) (by rw [fval_hundred]; norm_num)

/-- PRESS_HPA is `f64(p) / 25600` rounded (R147). -/
theorem floatPress_rounded {p : Int} (h : |p| ≤ 2 ^ 63) :
    Nearest (floatPress p) (fval (fofInt p) / 25600) ∧ TiesEven (floatPress p) (fval (fofInt p) / 25600) := by
  rw [← fval_pressScale]
  exact nearest_fdiv_fofInt _ h (by decide) (by rw [fval_pressScale]; norm_num)

theorem floatPress_zeros {p : Int} (h : |p| ≤ 2 ^ 63) :
    (floatPress p = fzero false ↔ p = 0) ∧ floatPress p ≠ fzero true :=
  fdiv_fofInt_zeros _ h (by decide) (by rw [fval_pressScale]; norm_num) fval_pressScale.le

theorem floatTemp_ne_negative_zero {tc : Int} (h : |tc| < 2 ^ 53) : floatTemp tc ≠ fzero true :=
  (fdiv_fofInt_zeros _ (h.le.trans (by norm_num)) (by decide) (by rw [fval_hundred]; norm_num)
    (by rw [fval_hundred]; norm_num)).2

/-- Settles O43, by the quotients of the float stage on a consistent result. -/
theorem floatStageIsCorrectlyRounded : Obligations.FloatStageIsCorrectlyRounded := by
  intro rawT rawP c
  dsimp only
  have hok := comp_resultsOk rawT rawP c
  generalize comp rawT rawP c = r at *
  have htc := hok.tCenti_range.trans_lt (by norm_num : (23040 : Int) < 2 ^ 53)
  have hp := abs_sext64_le r.res.pQ248
  obtain ⟨hzero, hneg⟩ := floatPress_zeros hp
  obtain ⟨htempNear, htempEven⟩ := floatTemp_rounded htc
  obtain ⟨hpressNear, hpressEven⟩ := floatPress_rounded hp
  obtain ⟨hintNear, hintEven⟩ := nearest_fofInt hp
  obtain ⟨-, -, -, htemp, hpress, hsentinel⟩ := hok
  rw [htemp]
  refine ⟨fval_fofInt htc, htempNear, htempEven, hintNear, hintEven, fun h => (hsentinel h).2,
    fun _ => hpress ▸ ⟨hpressNear, hpressEven⟩, ⟨fun h => .inr ?_, ?_⟩, floatTemp_ne_negative_zero htc, hpress ▸ hneg⟩
  · rw [hpress] at h
    exact hzero.mp h
  · rintro (h | h)
    · exact (hsentinel h).2
    · rw [hpress]
      exact hzero.mpr h

/-! ### The power function -/

theorem fNegative_of_fval {x : F64} (hf : fisFinite x = true) (h : fval x < 0) : fNegative x = true := by
  have hz : fisZero x = false := by
    by_contra hz
    rw [(fval_eq_zero_iff (unpack_of_fisZero (by simpa using hz))).mpr rfl] at h
    exact lt_irrefl 0 h
  simp only [fNegative, fisNaN_of_finite hf, hz, fsignBit_of_neg hf h, Bool.not_false, Bool.and_self]

theorem pow64_fzero (s : Bool) : pow64 (fzero s) = fzero false := by
  rw [pow64, unpack_fzero]
  rfl

theorem pow64_inf : pow64 (finf false) = finf false := by
  rw [pow64, unpack_finf]

/-- COEFF as the quotient of the two integers of D34. -/
theorem fval_coeff : ((fval Config.coeff : ℚ) : ℝ) = (coeffNum : ℝ) / (coeffDen : ℝ) := by
  have h : fval Config.coeff = (coeffNum : ℚ) / (coeffDen : ℚ) := by
    rw [fval_of_unpack (show unpack Config.coeff = .fin false coeffNum (-55) by decide), coeffDen]
    norm_num [div_eq_mul_inv]
  rw [h]
  push_cast
  rfl

/-- On a finite number above 0 `pow64` is 1.0 at 1.0, and else the free value. -/
theorem pow64_of_positive {x : F64} (hf : fisFinite x = true) (hx : 0 < fval x) (h1 : x ≠ Config.one) :
    pow64 x = powFree x := by
  obtain ⟨m, e, hu, -⟩ := unpack_finite hf
  have hm : m ≠ 0 := fun h => hx.ne' ((fval_eq_zero_iff hu).mpr h)
  simp only [pow64, hu, fsignBit_of_pos hf hx, if_neg hm, if_neg h1, Bool.false_eq_true, if_false]

theorem pow64_accurate {x : F64} (hf : fisFinite x = true) (hx : 0 < fval x) : fisFinite (pow64 x) = true ∧
    |((fval (pow64 x) : ℚ) : ℝ) - ((fval x : ℚ) : ℝ) ^ ((fval Config.coeff : ℚ) : ℝ)| ≤ ((fulp (pow64 x) : ℚ) : ℝ) := by
  by_cases h1 : x = Config.one
  · rw [h1, pow64_one, fval_one, Rat.cast_one, Real.one_rpow, sub_self, abs_zero]
    refine ⟨by decide, ?_⟩
    rw [fulp, show unpack Config.one = .fin false (2 ^ 52) (-52) by decide]
    positivity
  · obtain ⟨-, hfin, -, hbound⟩ := (@Config.power ⟨floorPower⟩).bound x hf hx
    rw [pow64_of_positive hf hx h1, fval_coeff]
    exact ⟨hfin, hbound⟩

/-- Settles O47. -/
theorem powerFunctionProperties : Obligations.PowerFunctionProperties :=
  ⟨pow64_one, pow64_fzero false, pow64_fzero true, pow64_inf, fun _ => pow64_of_nan,
    fun _ hf hx => pow64_of_negative (fNegative_of_fval hf hx), pow64_of_negative (by decide), fun _ => pow64_accurate⟩

end Sys2Proof.Machine

/-! The altitude formula at its corners (R181), and the recalibration property (R187): at the reference pressure the formula
gives the offset, and right after RECALIBRATE the pressure is the reference pressure. -/

namespace Sys2Proof.Machine

/-! ### Exact results -/

/-- A finite non-zero number is the rounding of its own value. -/
theorem fround_of_value {x : F64} (hf : fisFinite x = true) (hx : fval x ≠ 0) {neg : Bool} {n d : Nat} (hd : 0 < d)
    (hv : exactValue neg n d = fval x) : fround neg n d = x := by
  obtain ⟨m, e, hu, -⟩ := unpack_finite hf
  have hm : m ≠ 0 := fun h => hx ((fval_eq_zero_iff hu).mpr h)
  have hq : 0 < (n : ℚ) / d := lt_of_le_of_ne' (by positivity) fun h => hx (by rw [← hv, exactValue, h, mul_zero])
  have hs : neg = fsignBit x := by
    cases neg
    · rw [exactValue, if_neg Bool.false_ne_true, one_mul] at hv
      exact (fsignBit_of_pos hf (hv ▸ hq)).symm
    · rw [exactValue, if_pos rfl, neg_one_mul] at hv
      exact (fsignBit_of_neg hf (by linarith)).symm
  subst hs
  refine fround_self hu hm hd ?_
  rw [fval_of_unpack hu, exactValue, mul_assoc] at hv
  exact mul_left_cancel₀ (by cases fsignBit x <;> norm_num) hv

/-- A finite non-zero number over itself is 1.0. -/
theorem fdiv_self_eq_one (nan : F64) {x : F64} (hf : fisFinite x = true) (hx : fval x ≠ 0) : fdiv nan x x = Config.one := by
  obtain ⟨n, d, hd, hv, h⟩ := fdiv_of_finite hf hf hx
  rw [h]
  exact fround_of_value (by decide) (by rw [fval_one]; norm_num) hd (by rw [hv, div_self hx, fval_one])

/-- +0.0 is neutral in a sum, but for -0.0. -/
theorem fadd_zero (nan : F64) {x : F64} (hx : fisNaN x = false) :
    fadd nan x (fzero false) = if x = fzero true then fzero false else x := by
  rcases hu : unpack x with _ | s | ⟨s, m, e⟩
  · rw [(fisNaN_iff x).mpr hu] at hx
    cases hx
  · obtain rfl := eq_finf_of_unpack hu
    rw [(ops_of_inf_finite nan hu (unpack_fzero false)).1, if_neg (by cases s <;> decide)]
  · have hf := fisFinite_of_unpack hu
    by_cases h0 : fval x = 0
    · rw [fadd_of_sum_zero nan hf (by decide) (by rw [h0, fval_fzero, add_zero]), if_neg fun h => absurd h.2 (by decide),
        eq_fzero_of_fval hf h0]
      cases fsignBit x <;> rfl
    · obtain ⟨z, base, hv, h⟩ := fadd_of_finite nan hf (show fisFinite (fzero false) = true by decide)
      rw [fval_fzero, add_zero] at hv
      have hz : z ≠ 0 := by
        rintro rfl
        exact h0 (by rw [hv, Int.cast_zero, zero_mul])
      rw [h, if_neg hz, if_neg fun h => h0 (by rw [h, fval_fzero])]
      exact fround_of_value hf h0 (dyadicDen_pos base) (by rw [exactValue_dyadic, hv])

/-- A positive finite number times +0.0 is +0.0. -/
theorem fmul_zero {x : F64} (nan : F64) (hf : fisFinite x = true) (hx : fPositive x = true) :
    fmul nan x (fzero false) = fzero false := by
  obtain rfl | ⟨m, e, hu, -⟩ := fPositive_cases hx
  · exact absurd hf (by decide)
  · rw [fmul_of_fin nan hu (unpack_fzero false), mul_zero, dyadicNum, zero_mul, fround_zero]
    rfl

/-! ### Infinities in the formula -/

theorem fdiv_positive_zero (nan : F64) {p : F64} (h : fPositive p = true) : fdiv nan p (fzero false) = finf false := by
  obtain rfl | ⟨m, e, hu, hm⟩ := fPositive_cases h
  · exact (ops_of_inf_finite nan (unpack_finf false) (unpack_fzero false)).2.2
  · simp only [fdiv, hu, unpack_fzero, if_pos, if_neg hm]
    rfl

theorem fdiv_negative_zero (nan : F64) {p : F64} (h : fNegative p = true) : fdiv nan p (fzero false) = finf true := by
  obtain rfl | ⟨m, e, hu, hm⟩ := fNegative_cases h
  · exact (ops_of_inf_finite nan (unpack_finf true) (unpack_fzero false)).2.2
  · simp only [fdiv, hu, unpack_fzero, if_pos, if_neg hm]
    rfl

/-- 0 / 0 is the drawn NaN. -/
theorem fdiv_zero_zero (nan : F64) {p p0 : F64} (hp : fisZero p = true) (hp0 : fisZero p0 = true) : fdiv nan p p0 = nan := by
  simp only [fdiv, unpack_of_fisZero hp, unpack_of_fisZero hp0, if_pos]

theorem one_sub_inf (nan : F64) : fsub nan Config.one (finf false) = finf true := by
  rw [fsub_eq nan (by decide) (fisNaN_finf false), fnegate_finf]
  exact (ops_of_finite_inf nan (show unpack Config.one = .fin false (2 ^ 52) (-52) by decide) (unpack_finf true)).1

theorem fmul_positive_neg_inf (nan : F64) {q : F64} (h : fPositive q = true) : fmul nan q (finf true) = finf true := by
  obtain rfl | ⟨m, e, hu, hm⟩ := fPositive_cases h
  · exact (ops_of_inf_inf nan (unpack_finf false) (unpack_finf true)).2.1
  · rw [(ops_of_finite_inf nan hu (unpack_finf true)).2.1, if_neg hm]
    rfl

theorem fadd_neg_inf (nan : F64) {x : F64} (hx : fisNaN x = false) (hinf : x ≠ finf false) :
    fadd nan x (finf true) = finf true := by
  rcases hu : unpack x with _ | s | ⟨s, m, e⟩
  · rw [(fisNaN_iff x).mpr hu] at hx
    cases hx
  · rw [(ops_of_inf_inf nan hu (unpack_finf true)).1]
    cases s
    · exact absurd (eq_finf_of_unpack hu) hinf
    · rfl
  · exact (ops_of_finite_inf nan hu (unpack_finf true)).1

/-- The quotient by 0.0065 takes no draw. -/
theorem fdiv_lapseRate_drawless (nan nan' t0 : F64) : fdiv nan t0 Config.lapseRate = fdiv nan' t0 Config.lapseRate := by
  have hl : unpack Config.lapseRate = .fin false 0x1A9FBE76C8B439 (-60) := by decide
  unfold fdiv
  rw [hl]
  cases unpack t0 <;> rfl

/-! ### The corners (R181) -/

section
variable (nan : Nat → F64) {p p0 t0 off : F64}

/-- At the reference pressure the formula adds +0.0 to the offset. -/
theorem altitude_at_reference (hf : fisFinite p = true) (hp : fval p ≠ 0)
    (hqf : fisFinite (fdiv (nan 2) t0 Config.lapseRate) = true) (hq : fPositive (fdiv (nan 2) t0 Config.lapseRate) = true) :
    altitudeFormula nan p p t0 off = fadd (nan 4) off (fzero false) := by
  have hone : fsub (nan 1) Config.one Config.one = fzero false := by
    rw [fsub_of_difference_zero _ (by decide) (by decide) (sub_self _)]
    decide
  rw [altitudeFormula, fdiv_self_eq_one _ hf hp, pow64_one, hone, fmul_zero _ hqf hq]

/-- With the reference pressure +0.0 the power is infinite. -/
theorem altitude_at_zero_reference (hp : fPositive p = true) (hq : fPositive (fdiv (nan 2) t0 Config.lapseRate) = true)
    (hoff : fisNaN off = false) (hinf : off ≠ finf false) : altitudeFormula nan p (fzero false) t0 off = finf true := by
  rw [altitudeFormula, fdiv_positive_zero _ hp, pow64_inf, one_sub_inf, fmul_positive_neg_inf _ hq,
    fadd_neg_inf _ hoff hinf]

/-- A NaN power is propagated through the formula, with no draw. -/
theorem altitude_of_nan_power (h : fisNaN (pow64 (fdiv (nan 0) p p0)) = true) :
    altitudeFormula nan p p0 t0 off = propagateNaN .add off (propagateNaN .mul (fdiv (nan 2) t0 Config.lapseRate)
      (propagateNaN .sub Config.one (pow64 (fdiv (nan 0) p p0)))) := by
  rw [altitudeFormula, fsub_of_nan _ (.inr h), fmul_of_nan _ (.inr (fisNaN_propagateNaN ..)),
    fadd_of_nan _ (.inr (fisNaN_propagateNaN ..))]

theorem altitude_isNaN (h : fisNaN (pow64 (fdiv (nan 0) p p0)) = true) : fisNaN (altitudeFormula nan p p0 t0 off) = true := by
  rw [altitude_of_nan_power nan h]
  exact fisNaN_propagateNaN ..

/-- A negative ratio gives a NaN, whatever is drawn: neither quotient of the formula takes a draw. -/
theorem altitude_of_negative_ratio (hnan : fisNaN (nan 0) = true) (h : fNegative (fdiv (nan 0) p p0) = true)
    (nan' : Nat → F64) : altitudeFormula nan' p p0 t0 off = altitudeFormula nan p p0 t0 off := by
  have hr : fdiv (nan' 0) p p0 = fdiv (nan 0) p p0 := by
    refine fdiv_drawless (nan' 0) hnan ?_
    simp only [fNegative, Bool.and_eq_true, Bool.not_eq_true'] at h
    exact h.1.1
  have hpow := pow64_of_negative h
  rw [altitude_of_nan_power nan hpow, altitude_of_nan_power nan' (by rwa [hr]), hr,
    fdiv_lapseRate_drawless (nan' 2) (nan 2)]

end

/-- Settles O59, corner by corner. -/
theorem altitudeCornerCases : Obligations.AltitudeCornerCases := by
  intro nan p p0 t0 off hnan
  refine ⟨?_, ?_, fun hp0 hp => ?_, fun hr => ?_, ?_, fun hoff => ?_⟩
  · rintro rfl hf hp hqf hq
    have h := altitude_at_reference nan (off := off) hf hp hqf hq
    exact ⟨h, fun hoff => h.trans (fadd_zero _ hoff)⟩
  · rintro rfl hp hq hoff hinf
    exact altitude_at_zero_reference nan hp hq hoff hinf
  · refine altitude_isNaN nan (pow64_of_nan ?_)
    rw [fdiv_zero_zero _ hp hp0]
    exact hnan 0
  · exact ⟨altitude_isNaN nan (pow64_of_negative hr), altitude_of_negative_ratio nan (hnan 0) hr⟩
  · rintro rfl hp
    exact (congrArg fNegative (fdiv_negative_zero (nan 0) hp)).trans (by decide)
  · rw [altitudeFormula, fadd_of_nan _ (.inl hoff)]
    exact fisNaN_propagateNaN ..

/-! ### The reference temperature after RECALIBRATE -/

theorem fPositive_of_fval {x : F64} (hf : fisFinite x = true) (h : 0 < fval x) : fPositive x = true := by
  rw [← fNegative_fnegate]
  exact fNegative_of_fval (by rwa [fisFinite_fnegate]) (by rw [fval_fnegate]; linarith)

/-- A nearest number lies between the integers around the exact value. -/
theorem bounds_of_nearest {z : F64} {v : ℚ} {l u : Int} (h : Nearest z v) (hl : |l| < 2 ^ 53) (hu : |u| < 2 ^ 53)
    (hlv : l ≤ v) (hvu : v ≤ u) : l ≤ fval z ∧ fval z ≤ u := by
  have finite := fun {i : Int} (hi : |i| < 2 ^ 53) => (nearest_fofInt (hi.le.trans (by norm_num))).1.1
  have hle := le_of_nearest (y := fofInt l) h (finite hl) (by rwa [fval_fofInt hl])
  have hge := ge_of_nearest (y := fofInt u) h (finite hu) (by rwa [fval_fofInt hu])
  rw [fval_fofInt hl] at hle
  rw [fval_fofInt hu] at hge
  exact ⟨hle, hge⟩

/-- The temperature of a consistent result in kelvin over 0.0065 is finite and positive (R37, R147). -/
theorem kelvin_div_lapseRate (nan nan' : F64) {tc : Int} (h : |tc| ≤ 23040) :
    fisFinite (fdiv nan' (fadd nan (floatTemp tc) Config.kelvinZero) Config.lapseRate) = true ∧
    fPositive (fdiv nan' (fadd nan (floatTemp tc) Config.kelvinZero) Config.lapseRate) = true := by
  obtain ⟨hlapse, hkelvin, -⟩ := constantsAreTheLiterals
  obtain ⟨htemp, -⟩ := floatTemp_rounded (h.trans_lt (by norm_num))
  obtain ⟨htc0, htc1⟩ := abs_le.mp h
  have htc0' : (-23040 : ℚ) ≤ tc := by exact_mod_cast htc0
  have htc1' : (tc : ℚ) ≤ 23040 := by exact_mod_cast htc1
  obtain ⟨ht0, ht1⟩ := bounds_of_nearest (l := -231) (u := 231) htemp (by norm_num) (by norm_num)
    (by push_cast; linarith) (by push_cast; linarith)
  obtain ⟨hk0, hk1⟩ := bounds_of_nearest (l := 273) (u := 274) hkelvin (by norm_num) (by norm_num) (by norm_num) (by norm_num)
  have hl0 := le_of_nearest hlapse fisFinite_smallF64 (by rw [fval_smallF64]; norm_num)
  have hl1 := ge_of_nearest (y := Config.one) hlapse (by decide) (by rw [fval_one]; norm_num)
  rw [fval_smallF64] at hl0
  rw [fval_one] at hl1
  push_cast at ht0 ht1 hk0 hk1
  obtain ⟨hsum, -⟩ := (fadd_rounds nan htemp.1 hkelvin.1).1 (lt_overflowBound_of_le (by rw [abs_le]; constructor <;> linarith))
  obtain ⟨hs0, hs1⟩ := bounds_of_nearest (l := 42) (u := 505) hsum (by norm_num) (by norm_num)
    (by push_cast; linarith) (by push_cast; linarith)
  push_cast at hs0 hs1
  have hpos : 0 < fval Config.lapseRate := by linarith
  generalize fadd nan (floatTemp tc) Config.kelvinZero = x at *
  have hq0 : 1 ≤ fval x / fval Config.lapseRate := by
    rw [le_div_iff₀ hpos]
    linarith
  have hq1 : fval x / fval Config.lapseRate ≤ 2 ^ 64 := by
    rw [div_le_iff₀ hpos]
    linarith
  obtain ⟨hq, -⟩ := (fdiv_rounds nan' hsum.1 hlapse.1 hpos.ne').1
    (lt_overflowBound_of_le (by rw [abs_le]; constructor <;> linarith))
  have hone := le_of_nearest (y := Config.one) hq (by decide) (by rwa [fval_one])
  rw [fval_one] at hone
  exact ⟨hq.1, fPositive_of_fval hq.1 (by linarith)⟩

/-- A pressure other than +0.0 of a consistent result is finite and not 0. -/
theorem ResultsOk.pressure_ne_zero {r : Results} {pinv : Bool} (h : ResultsOk r pinv) (hr : r.pressHpa ≠ 0) :
    fisFinite r.pressHpa = true ∧ fval r.pressHpa ≠ 0 := by
  obtain ⟨-, -, -, -, hpress, -⟩ := h
  have hp := abs_sext64_le r.pQ248
  obtain ⟨hnear, -⟩ := floatPress_rounded hp
  obtain ⟨-, hneg⟩ := floatPress_zeros hp
  rw [← hpress] at hnear hneg
  refine ⟨hnear.1, fun h0 => ?_⟩
  have hz := eq_fzero_of_fval hnear.1 h0
  cases hs : fsignBit r.pressHpa <;> rw [hs] at hz
  · exact hr hz
  · exact hneg hz

/-- RECALIBRATE on a sample that is not the sentinel: what ALT_EVAL then reads (O57). -/
theorem recalibrate_reference {s : State} {b : List Byte} {r : CompResult} (hp : s.phase = .idle)
    (hcal : s.status.calValid = true) (ha : nextAnswer (rawBurst s) s = .data b) (hl : b.length = 6)
    (hr : readingOf s.dig b = r) (hv : r.pinv = false) :
    ∃ (t : State) (nan : F64), perform 5 .recalibrate s = .next t ∧ t.phase = .idle ∧
      t.status.err = .ok ∧ t.status.resValid = true ∧ t.status.baseValid = true ∧ t.status.pinv = false ∧
      t.res = r.res ∧ t.p0 = r.res.pressHpa ∧ t.t0 = fadd nan r.res.tempC Config.kelvinZero ∧
      t.altOffset = s.recalAlt := by
  obtain ⟨-, hrecal⟩ := recalibrateRebasesOnAFreshSample s hp
  obtain ⟨-, -, hsample⟩ := hrecal hcal
  have h := hsample b ha hl
  rw [hr] at h
  obtain ⟨nan, d, -, ht⟩ := h.2 hv 5 le_rfl
  exact ⟨_, nan, ht, hp, rfl, rfl, rfl, rfl, rfl, rfl, rfl, rfl⟩

/-- ALT_EVAL on a valid reading and baseline gives the formula (O55). -/
theorem altEval_formula {t : State} (hp : t.phase = .idle) (hr : t.status.resValid = true)
    (hb : t.status.baseValid = true) (hv : t.status.pinv = false) :
    ∃ (u : State) (nan : Nat → F64), perform 1 .altEval t = .next u ∧ u.status.err = .ok ∧
      u.altOut = altitudeFormula nan t.res.pressHpa t.p0 t.t0 t.altOffset := by
  obtain ⟨-, halt⟩ := altEvalEvaluatesTheFormula t hp
  obtain ⟨-, -, hformula⟩ := halt hr hb
  obtain ⟨nan, d, -, hu⟩ := hformula hv 1 le_rfl
  exact ⟨_, nan, hu, rfl, rfl⟩

/-- Settles O60: RECALIBRATE leaves the pressure as reference pressure, and ALT_EVAL evaluates the formula there. -/
theorem recalibrationProperty : Obligations.RecalibrationProperty := by
  intro s b hp hcal ha hl hv hpress
  have hok : ResultsOk (readingOf s.dig b).res (readingOf s.dig b).pinv := comp_resultsOk ..
  obtain ⟨r, hr⟩ : ∃ r, readingOf s.dig b = r := ⟨_, rfl⟩
  rw [hr] at hv hpress hok
  obtain ⟨t, nan, ht, htp, hterr, htr, htb, htv, hres, hp0, ht0, hoff⟩ := recalibrate_reference hp hcal ha hl hr hv
  obtain ⟨u, nan', hu, huerr, hout⟩ := altEval_formula htp htr htb htv
  rw [hres, hp0, ht0, hoff] at hout
  obtain ⟨hfin, hne⟩ := hok.pressure_ne_zero hpress
  have htc := hok.tCenti_range
  obtain ⟨-, -, -, htemp, -⟩ := hok
  obtain ⟨hqf, hq⟩ := kelvin_div_lapseRate nan (nan' 2) htc
  rw [← htemp] at hqf hq
  rw [altitude_at_reference nan' hfin hne hqf hq] at hout
  refine ⟨t, u, ht, hu, hterr, huerr, fun h => ?_, fun h => hout.trans (fadd_zero _ h)⟩
  rw [hout, fadd_of_nan _ (.inl h)]
  exact fisNaN_propagateNaN ..

end Sys2Proof.Machine
